-- ==== Sys2Proof/Word.lean ====
section
/-! DEFINITION. The word types of the model (00_scope.md R7, R12). -/

namespace Sys2Proof

/-- A byte, 8 bits. -/
abbrev Byte := BitVec 8

/-- An offset, a linear address or a physical address, 64 bits; outside 64-bit mode the upper bits are zero. -/
abbrev Addr := BitVec 64

end Sys2Proof
end

