-- ==== Sys2Proof/Config.lean ====
section
/-! DEFINITION. The parameters of the machine (00_scope.md R5, R6): what an implementation fixes and no step changes.
They are plain data; State holds one `Config`, so that a statement over every state is over every configuration (log 6). -/

namespace Sys2Proof

/-- Width in bits of the widest vector register (00_scope.md R5). -/
def vlmax : Nat := 256

/-- MODE: operating mode and default code-segment size (00_scope.md R6). -/
inductive Mode where
  | mode64
  | compat32
  | prot32
  | prot16
  | real16
  | v86
deriving DecidableEq, Repr

/-- NREG: how many XMM/YMM registers an instruction can name (10_state.md R15). -/
def Mode.nreg : Mode → Nat
  | .mode64 => 16
  | .compat32 => 8
  | .prot32 => 8
  | .prot16 => 8
  | .real16 => 8
  | .v86 => 8

/-- The part of MODE that a code segment selects while CR0.PE = 1 and EFLAGS.VM = 0; Real16 and V86 follow from those
two bits (log 5). -/
inductive CodeMode where
  | mode64
  | compat32
  | prot32
  | prot16
deriving DecidableEq, Repr

/-- The CPUID feature flags (00_scope.md R3). -/
structure Features where
  hasMmx  : Bool
  hasSse2 : Bool
  hasAvx  : Bool
  hasAvx2 : Bool
deriving DecidableEq, Repr

/-- The access kinds Translate is asked with (20_memory.md R39). -/
inductive AccessKind where
  | dataRead
  | fetch
deriving DecidableEq, Repr

/-- What Translate answers (20_memory.md R39): a physical address, or a page fault with the bits of its code that the
access itself does not fix (P; RSVD; and I/D, which a fetch may set). -/
inductive TransResult where
  | mapTo (base : Addr)
  | pageFault (present rsvd instr : Bool)
deriving DecidableEq, Repr

/-- One rule of Translate: it answers for the linear addresses `lo` to `hi`, the access kind and the privilege level it
names (`none` names all). A list of such rules can say any function on the finite set of linear addresses (log 7). -/
structure TransRule where
  lo     : Addr
  hi     : Addr
  kind   : Option AccessKind
  cpl    : Option (BitVec 2)
  result : TransResult
deriving DecidableEq, Repr

/-- A range of physical addresses, both ends included. -/
structure PhysRange where
  lo : Addr
  hi : Addr
deriving DecidableEq, Repr

/-- The parameters of 00_scope.md R6. -/
structure Config where
  features    : Features
  codeMode    : CodeMode
  translation : List TransRule
  memMap      : List PhysRange
deriving DecidableEq, Repr

end Sys2Proof
end

