-- ==== Sys2Proof/Syntax.lean ====
section
/-! DEFINITION. The instructions as syntax, in the manual's own shape (30_encoding.md R42): an instruction holds every
field of its bytes, so that its length (R63) and its encoding are functions of it. Bits that a VEX prefix stores inverted
stand here as their true values (R57). -/

namespace Sys2Proof

/-- The segment registers (10_state.md R22). -/
inductive Seg where
  | es
  | cs
  | ss
  | ds
  | fs
  | gs
deriving DecidableEq, Repr

/-- The four bits of a REX byte (30_encoding.md R55). -/
structure Rex where
  w : Bool
  r : Bool
  x : Bool
  b : Bool
deriving DecidableEq, Repr

/-- A byte that may stand before the escape byte 0F or before a VEX prefix (30_encoding.md R55, R56). -/
inductive LegacyPrefix where
  | opSize
  | addrSize
  | lock
  | repne
  | rep
  | segment (seg : Seg)
  | rex (bits : Rex)
deriving DecidableEq, Repr

/-- ModRM.mod of a memory operand: 00, 01, 10 (30_encoding.md R49); 11 is `RM.reg`. -/
inductive MemMod where
  | m00
  | m01
  | m10
deriving DecidableEq, Repr

/-- The SIB byte (30_encoding.md R52). -/
structure Sib where
  ss    : BitVec 2
  idx   : BitVec 3
  base  : BitVec 3
deriving DecidableEq, Repr

/-- The displacement bytes (30_encoding.md R53). -/
inductive Disp where
  | absent
  | disp8 (v : BitVec 8)
  | disp16 (v : BitVec 16)
  | disp32 (v : BitVec 32)
deriving DecidableEq, Repr

/-- A memory operand as encoded (30_encoding.md R51 to R54). -/
structure MemOperand where
  mod  : MemMod
  rm   : BitVec 3
  sib  : Option Sib
  disp : Disp
deriving DecidableEq, Repr

/-- The ModRM:r/m operand: a register when mod = 11, else memory (30_encoding.md R49, R50). -/
inductive RM where
  | reg (rm : BitVec 3)
  | mem (m : MemOperand)
deriving DecidableEq, Repr

/-- The VEX prefix less L, pp and mmmmm, which the form fixes (30_encoding.md R57, R58). -/
inductive Vex where
  | two (r : Bool) (vvvv : BitVec 4)
  | three (r x b w : Bool) (vvvv : BitVec 4)
deriving DecidableEq, Repr

/-- The fields of a legacy-shape instruction, Op/En RM (30_encoding.md R46). -/
structure LegacyOps where
  prefixes : List LegacyPrefix
  reg      : BitVec 3
  rm       : RM
deriving DecidableEq, Repr

/-- The fields of a VEX-shape instruction, Op/En RVM (30_encoding.md R47). -/
structure VexOps where
  prefixes : List LegacyPrefix
  vex      : Vex
  reg      : BitVec 3
  rm       : RM
deriving DecidableEq, Repr

/-- The twelve instruction forms, one constructor per row of the opcode table (00_scope.md R2). -/
inductive Instr where
  /-- form 1: PSUBB mm, mm/m64 -/
  | psubbMm (o : LegacyOps)
  /-- form 2: PSUBB xmm1, xmm2/m128 -/
  | psubbXmm (o : LegacyOps)
  /-- form 3: PSUBW mm, mm/m64 -/
  | psubwMm (o : LegacyOps)
  /-- form 4: PSUBW xmm1, xmm2/m128 -/
  | psubwXmm (o : LegacyOps)
  /-- form 5: PSUBD mm, mm/m64 -/
  | psubdMm (o : LegacyOps)
  /-- form 6: PSUBD xmm1, xmm2/m128 -/
  | psubdXmm (o : LegacyOps)
  /-- form 7: VPSUBB xmm1, xmm2, xmm3/m128 -/
  | vpsubbXmm (o : VexOps)
  /-- form 8: VPSUBW xmm1, xmm2, xmm3/m128 -/
  | vpsubwXmm (o : VexOps)
  /-- form 9: VPSUBD xmm1, xmm2, xmm3/m128 -/
  | vpsubdXmm (o : VexOps)
  /-- form 10: VPSUBB ymm1, ymm2, ymm3/m256 -/
  | vpsubbYmm (o : VexOps)
  /-- form 11: VPSUBW ymm1, ymm2, ymm3/m256 -/
  | vpsubwYmm (o : VexOps)
  /-- form 12: VPSUBD ymm1, ymm2, ymm3/m256 -/
  | vpsubdYmm (o : VexOps)
deriving DecidableEq, Repr

end Sys2Proof
end

