-- ==== Sys2Proof/Machine/Fields.lean ====
section
/-! DEFINITION. What the fields of an encoded instruction mean before any state is read: prefix queries (30_encoding.md
R55, R56), register numbers (R46, R47), address size (R51), which SIB and displacement bytes follow ModRM (R51 to R54),
and the length (R63). The decoder, the well-formedness check and the machine share these. -/

namespace Sys2Proof

/-! ## Prefixes -/

/-- What counts as one prefix for "each prefix at most once and at most one segment override" (30_encoding.md R56). -/
inductive PrefixKind where
  | opSize
  | addrSize
  | lock
  | repne
  | rep
  | segment
  | rex
deriving DecidableEq, Repr

def LegacyPrefix.kind : LegacyPrefix → PrefixKind
  | .opSize => .opSize
  | .addrSize => .addrSize
  | .lock => .lock
  | .repne => .repne
  | .rep => .rep
  | .segment _ => .segment
  | .rex _ => .rex

/-- Whether a prefix of this kind is present. -/
def hasKind (k : PrefixKind) (p : List LegacyPrefix) : Bool :=
  p.any fun q => decide (q.kind = k)

/-- Each prefix at most once, at most one segment override, at most one REX (30_encoding.md R56; 92 D18). -/
def prefixesOnce (p : List LegacyPrefix) : Bool :=
  decide (p.map LegacyPrefix.kind).Nodup

/-- The REX prefix of a legacy-shape instruction: the byte immediately before 0F; a REX byte followed by another prefix
byte is ignored (30_encoding.md R55). -/
def effectiveRex (p : List LegacyPrefix) : Rex :=
  match p.getLast? with
  | some (.rex r) => r
  | _ => ⟨false, false, false, false⟩

/-- The segment a segment-override prefix names. -/
def segOverride : List LegacyPrefix → Option Seg
  | [] => none
  | .segment g :: _ => some g
  | _ :: t => segOverride t

/-- 66, F2, F3, REX or LOCK before a VEX prefix is #UD (30_encoding.md R62; 60_exceptions.md R94); this is the list less
LOCK, which every form refuses. A REX byte anywhere before VEX counts (log 14). -/
def vexForbidden (p : List LegacyPrefix) : Bool :=
  hasKind .opSize p || hasKind .repne p || hasKind .rep p || hasKind .rex p

/-- The legacy shape carries no F2 or F3 (30_encoding.md R65). -/
def noRepeatPrefix (p : List LegacyPrefix) : Bool :=
  !hasKind .repne p && !hasKind .rep p

/-! ## Register numbers -/

/-- Four-bit register number: an extension bit above the three bits of a ModRM or SIB field (30_encoding.md R46). -/
def regNumber (ext : Bool) (low : BitVec 3) : BitVec 4 :=
  BitVec.ofBool ext ++ low

def Vex.r : Vex → Bool
  | .two r _ => r
  | .three r _ _ _ _ => r

/-- VEX.X; the two-byte form implies 0 (30_encoding.md R57). -/
def Vex.x : Vex → Bool
  | .two _ _ => false
  | .three _ x _ _ _ => x

/-- VEX.B; the two-byte form implies 0 (30_encoding.md R57). -/
def Vex.b : Vex → Bool
  | .two _ _ => false
  | .three _ _ b _ _ => b

def Vex.vvvv : Vex → BitVec 4
  | .two _ v => v
  | .three _ _ _ _ v => v

/-- Outside 64-bit mode a VEX prefix names registers 0 to 7 only (30_encoding.md R61). -/
def Vex.wellFormed (m : Mode) (v : Vex) : Bool :=
  decide (m = .mode64) || (!v.r && !v.x && !v.b && !v.vvvv.getLsbD 3)

/-- Bytes of the VEX prefix. -/
def Vex.len : Vex → Nat
  | .two _ _ => 2
  | .three _ _ _ _ _ => 3

/-- XMM register of ModRM:reg in a legacy form (30_encoding.md R46). -/
def LegacyOps.xmmReg (o : LegacyOps) : BitVec 4 :=
  regNumber (effectiveRex o.prefixes).r o.reg

/-- Destination register of a VEX form (30_encoding.md R47). -/
def VexOps.dst (o : VexOps) : BitVec 4 :=
  regNumber o.vex.r o.reg

/-! ## Address size and the bytes after ModRM -/

inductive AddressSize where
  | a16
  | a32
  | a64
deriving DecidableEq, Repr

/-- asz: the default of the mode, or the other of the pair under a 67 prefix (30_encoding.md R51, R54, R56). -/
def addressSize (m : Mode) (p : List LegacyPrefix) : AddressSize :=
  match m, hasKind .addrSize p with
  | .mode64, false => .a64
  | .mode64, true => .a32
  | .compat32, false => .a32
  | .compat32, true => .a16
  | .prot32, false => .a32
  | .prot32, true => .a16
  | .prot16, false => .a16
  | .prot16, true => .a32
  | .real16, false => .a16
  | .real16, true => .a32
  | .v86, false => .a16
  | .v86, true => .a32

/-- A SIB byte follows ModRM when r/m = 100 under 32- or 64-bit addressing (30_encoding.md R52, R54). -/
def needsSib (z : AddressSize) (rm : BitVec 3) : Bool :=
  decide (z ≠ .a16) && decide (rm = 4)

inductive DispSize where
  | d0
  | d1
  | d2
  | d4
deriving DecidableEq, Repr

/-- Which displacement follows (30_encoding.md R51, R52, R54); the tests are made on the three-bit fields. -/
def dispSize (z : AddressSize) (mod : MemMod) (rm : BitVec 3) (sib : Option Sib) : DispSize :=
  match z, mod with
  | .a16, .m00 => if rm = 6 then .d2 else .d0
  | .a16, .m01 => .d1
  | .a16, .m10 => .d2
  | .a32, .m00 => if rm = 5 then .d4 else if rm = 4 ∧ sib.any (fun s => decide (s.base = 5)) then .d4 else .d0
  | .a32, .m01 => .d1
  | .a32, .m10 => .d4
  | .a64, .m00 => if rm = 5 then .d4 else if rm = 4 ∧ sib.any (fun s => decide (s.base = 5)) then .d4 else .d0
  | .a64, .m01 => .d1
  | .a64, .m10 => .d4

def Disp.size : Disp → DispSize
  | .absent => .d0
  | .disp8 _ => .d1
  | .disp16 _ => .d2
  | .disp32 _ => .d4

/-! ## Length -/

/-- D of 30_encoding.md R63. -/
def Disp.len : Disp → Nat
  | .absent => 0
  | .disp8 _ => 1
  | .disp16 _ => 2
  | .disp32 _ => 4

/-- S of 30_encoding.md R63. -/
def sibLen : Option Sib → Nat
  | none => 0
  | some _ => 1

/-- The bytes after ModRM. -/
def RM.len : RM → Nat
  | .reg _ => 0
  | .mem m => sibLen m.sib + m.disp.len

/-- Length of a legacy-shape instruction (30_encoding.md R63); a REX byte stands among the prefixes. -/
def LegacyOps.len (o : LegacyOps) : Nat :=
  o.prefixes.length + 2 + 1 + o.rm.len

/-- Length of a VEX-shape instruction (30_encoding.md R63). -/
def VexOps.len (o : VexOps) : Nat :=
  o.prefixes.length + o.vex.len + 1 + 1 + o.rm.len

/-- Length in bytes of an instruction (30_encoding.md R63). -/
def Instr.len : Instr → Nat
  | .psubbMm o => o.len
  | .psubbXmm o => o.len
  | .psubwMm o => o.len
  | .psubwXmm o => o.len
  | .psubdMm o => o.len
  | .psubdXmm o => o.len
  | .vpsubbXmm o => o.len
  | .vpsubwXmm o => o.len
  | .vpsubdXmm o => o.len
  | .vpsubbYmm o => o.len
  | .vpsubwYmm o => o.len
  | .vpsubdYmm o => o.len

/-- The prefix bytes of an instruction. -/
def Instr.prefixes : Instr → List LegacyPrefix
  | .psubbMm o => o.prefixes
  | .psubbXmm o => o.prefixes
  | .psubwMm o => o.prefixes
  | .psubwXmm o => o.prefixes
  | .psubdMm o => o.prefixes
  | .psubdXmm o => o.prefixes
  | .vpsubbXmm o => o.prefixes
  | .vpsubwXmm o => o.prefixes
  | .vpsubdXmm o => o.prefixes
  | .vpsubbYmm o => o.prefixes
  | .vpsubwYmm o => o.prefixes
  | .vpsubdYmm o => o.prefixes

/-- The r/m operand of an instruction. -/
def Instr.rm : Instr → RM
  | .psubbMm o => o.rm
  | .psubbXmm o => o.rm
  | .psubwMm o => o.rm
  | .psubwXmm o => o.rm
  | .psubdMm o => o.rm
  | .psubdXmm o => o.rm
  | .vpsubbXmm o => o.rm
  | .vpsubwXmm o => o.rm
  | .vpsubdXmm o => o.rm
  | .vpsubbYmm o => o.rm
  | .vpsubwYmm o => o.rm
  | .vpsubdYmm o => o.rm

/-- The four groups of forms that share exception conditions and operand widths (00_scope.md R2; 60_exceptions.md R92). -/
inductive FormClass where
  | mmx
  | sse2
  | vex128
  | vex256
deriving DecidableEq, Repr

def Instr.formClass : Instr → FormClass
  | .psubbMm _ => .mmx
  | .psubbXmm _ => .sse2
  | .psubwMm _ => .mmx
  | .psubwXmm _ => .sse2
  | .psubdMm _ => .mmx
  | .psubdXmm _ => .sse2
  | .vpsubbXmm _ => .vex128
  | .vpsubwXmm _ => .vex128
  | .vpsubdXmm _ => .vex128
  | .vpsubbYmm _ => .vex256
  | .vpsubwYmm _ => .vex256
  | .vpsubdYmm _ => .vex256

/-- Bytes of the memory operand (20_memory.md R28). -/
def FormClass.operandBytes : FormClass → Nat
  | .mmx => 8
  | .sse2 => 16
  | .vex128 => 16
  | .vex256 => 32

end Sys2Proof
end

