-- ==== Sys2Proof/Machine/State.lean ====
section
/-! DEFINITION. The state of the machine as plain data (10_state.md), how a step may stop (00_scope.md R11, 60_exceptions.md
R109, 30_encoding.md R65), and the state after reset (10_state.md R26). -/

namespace Sys2Proof.Machine

/-- A segment register: selector, base, limit, readable (10_state.md R22; 92 D12). The base is the one held here in every
mode but 64-bit mode, real-address mode included (R26 gives CS selector F000H and base FFFF0000H). -/
structure Segment where
  selector : BitVec 16
  base     : Addr
  limit    : BitVec 32
  readable : Bool
deriving DecidableEq, Repr

/-- The six segment registers (10_state.md R22). -/
structure SegFile where
  es : Segment
  cs : Segment
  ss : Segment
  ds : Segment
  fs : Segment
  gs : Segment
deriving DecidableEq, Repr

/-- The state of the machine. -/
structure State where
  /-- Parameters, fixed over a run (00_scope.md R6). -/
  cfg       : Config
  /-- YMM0 to YMM15; XMMi is bits 127:0 (10_state.md R14, R15). -/
  ymm       : Vector (BitVec 256) 16
  /-- x87 physical data registers R0 to R7; MMi is bits 63:0 (10_state.md R13, R17). -/
  x87data   : Vector (BitVec 80) 8
  /-- x87 tag word (40 R77). -/
  x87tag    : BitVec 16
  /-- x87 status word: ES bit 7, TOP bits 13:11 (10_state.md R23). -/
  x87status : BitVec 16
  /-- General registers, numbered as in 10_state.md R20. -/
  gpr       : Vector (BitVec 64) 16
  /-- Instruction pointer: offset in the code segment (10_state.md R21). -/
  pc        : Addr
  /-- EFLAGS (10_state.md R19, R23). -/
  eflags    : BitVec 64
  /-- MXCSR (10_state.md R24). -/
  mxcsr     : BitVec 32
  /-- CR0 (10_state.md R23). -/
  cr0       : BitVec 64
  /-- CR2, the page-fault linear address; no completing step writes it (60 R100, log 9). -/
  cr2       : BitVec 64
  /-- CR4 (10_state.md R23). -/
  cr4       : BitVec 64
  /-- XCR0 (10_state.md R23). -/
  xcr0      : BitVec 64
  /-- Current privilege level (10_state.md R23; log 17). -/
  cpl       : BitVec 2
  /-- Segment registers (10_state.md R22). -/
  segs      : SegFile
  /-- Memory by physical address: addresses strictly rising, no zero byte listed (log 4). -/
  mem       : List Host.Cell
deriving DecidableEq, Repr

/-- The exceptions of 60_exceptions.md R109. Each carries the saved instruction pointer, the address of the faulting
instruction; the state is unchanged (R103). A model that stops here says nothing of the handler: SAFE (log 9). -/
inductive Fault where
  /-- #UD, raised by every form under the conditions of R94 and R91. Safe. -/
  | ud (savedPc : Addr)
  /-- #NM, raised by every form when CR0.TS = 1 (R95). Safe. -/
  | nm (savedPc : Addr)
  /-- #SS(0), raised by a memory operand through SS (R99). Safe. -/
  | ss (savedPc : Addr)
  /-- #GP(0), raised by a memory operand or by an instruction fetch (R98, R101). Safe. -/
  | gp (savedPc : Addr)
  /-- #PF, raised by a memory operand or by an instruction fetch; `cr2` is the linear address CR2 receives (R100). Safe. -/
  | pf (savedPc : Addr) (code : BitVec 32) (cr2 : Addr)
  /-- #MF, raised by an MMX form while an x87 exception is pending and CR0.NE = 1 (R96). Safe. -/
  | mf (savedPc : Addr)
  /-- #AC(0), raised by the memory operand of an MMX form under alignment checking (R97). Safe. -/
  | ac (savedPc : Addr)
deriving DecidableEq, Repr

/-- The refusals the spec names: it gives the step no meaning. Each is SAFE (errs toward unprovable, 30 R65). -/
inductive Refusal where
  /-- An instruction without a meaning, raised by `exec`'s arm for it; no arm is left so. Safe. -/
  | notModelled (mnemonic : String)
  /-- Raised by fetching bytes that are none of the twelve forms (30 R65). Safe. -/
  | notThisFamily
  /-- Raised by fetching a legacy shape with an F2 or F3 prefix (30 R65). Safe. -/
  | prefixNotInScope
  /-- Raised by fetching a prefix repeated, or two segment overrides (30 R65). Safe. -/
  | redundantPrefix
  /-- Raised by fetching a three-byte VEX outside 64-bit mode that names a register above 7 (30 R61, R65). Safe. -/
  | vexHighRegOutside64
  /-- Raised by fetching an instruction of more than 15 bytes (30 R65). Safe. -/
  | tooLong
  /-- Raised by an MMX form while an x87 exception is pending and CR0.NE = 0 (60 R96). Safe. -/
  | externalFpuError
  /-- Raised by every form, and by fetch, when the address after the instruction does not fit pc (10_state.md R21). Safe. -/
  | pcWrap
  /-- Raised by a memory operand, and by fetch, when a byte read is outside MemMap (20_memory.md R37). Safe. -/
  | notOrdinaryMemory
  /-- Raised by a run, never by a step, when no instruction that lies whole in the program text begins at pc: pc outside the
  text, in the middle of an instruction, or at one that the end of the text cuts off (70 R117; the name is log 28's). Safe. -/
  | outsideText
deriving DecidableEq, Repr

/-- Why an operation did not answer: a fault or a refusal. -/
inductive Stop where
  | fault (f : Fault)
  | refused (r : Refusal)
deriving DecidableEq, Repr

/-- The answer of an operation that may stop. -/
abbrev Res (α : Type) := Except Stop α

/-- The processor signature that RDX holds after reset (10_state.md R26 gives no number; log 2, PRESUMED). -/
def processorSignature : BitVec 64 := 0x306C3

/-- A segment register after reset other than CS (log 2, PRESUMED). -/
def Segment.reset : Segment :=
  { selector := 0, base := 0, limit := 0xFFFF, readable := true }

/-- The parameters State.reset is given (log 3, DESIGN CHOICE). -/
def resetConfig : Config :=
  { features := { hasMmx := true, hasSse2 := true, hasAvx := true, hasAvx2 := true }
    codeMode := .mode64
    translation := []
    memMap := [{ lo := 0, hi := 0xFFFFFFFFFFFFFFFF }] }

/-- The machine right after power-up or RESET# (10_state.md R26; log 1, 2, 3, 4). -/
def State.reset : State :=
  { cfg := resetConfig
    ymm := Vector.replicate 16 0
    x87data := Vector.replicate 8 0
    x87tag := 0x5555
    x87status := 0
    gpr := (Vector.replicate 16 0).set 2 processorSignature
    pc := 0xFFF0
    eflags := 2
    mxcsr := 0x1F80
    cr0 := 0x60000010
    cr2 := 0
    cr4 := 0
    xcr0 := 1
    cpl := 0
    segs :=
      { es := Segment.reset
        cs := { selector := 0xF000, base := 0xFFFF0000, limit := 0xFFFF, readable := true }
        ss := Segment.reset
        ds := Segment.reset
        fs := Segment.reset
        gs := Segment.reset }
    mem := [] }

end Sys2Proof.Machine
end

