-- ==== Sys2Proof/Machine/Flags.lean ====
section
/-! DEFINITION. The bits of the control and status registers that the exception conditions read (10_state.md R23), the
operating mode they give, and alignment checking (60_exceptions.md R97). No form computes a flag: "Flags Affected: None"
(10_state.md R19, 40 R74). -/

namespace Sys2Proof.Machine

/-- CR0.PE, bit 0. -/
def State.cr0Pe (s : State) : Bool := s.cr0.getLsbD 0

/-- CR0.EM, bit 2. -/
def State.cr0Em (s : State) : Bool := s.cr0.getLsbD 2

/-- CR0.TS, bit 3. -/
def State.cr0Ts (s : State) : Bool := s.cr0.getLsbD 3

/-- CR0.NE, bit 5. -/
def State.cr0Ne (s : State) : Bool := s.cr0.getLsbD 5

/-- CR0.AM, bit 18. -/
def State.cr0Am (s : State) : Bool := s.cr0.getLsbD 18

/-- CR4.OSFXSR, bit 9. -/
def State.cr4Osfxsr (s : State) : Bool := s.cr4.getLsbD 9

/-- CR4.OSXSAVE, bit 18. -/
def State.cr4Osxsave (s : State) : Bool := s.cr4.getLsbD 18

/-- XCR0[2:1] = 11: XMM and YMM state enabled. -/
def State.xcr0SseAvx (s : State) : Bool := decide (s.xcr0.extractLsb' 1 2 = 3)

/-- EFLAGS.AC, bit 18. -/
def State.eflagsAc (s : State) : Bool := s.eflags.getLsbD 18

/-- EFLAGS.VM, bit 17. -/
def State.eflagsVm (s : State) : Bool := s.eflags.getLsbD 17

/-- x87 status word ES, bit 7: an unmasked x87 exception is pending. -/
def State.x87Es (s : State) : Bool := s.x87status.getLsbD 7

/-- x87 status word TOP, bits 13:11. -/
def State.x87Top (s : State) : BitVec 3 := s.x87status.extractLsb' 11 3

/-- MODE (00_scope.md R6): real-address mode while CR0.PE = 0, virtual-8086 mode while EFLAGS.VM = 1, else what the code
segment selects (log 5). -/
def State.mode (s : State) : Mode :=
  if s.cr0Pe = false then .real16
  else if s.eflagsVm = true then .v86
  else
    match s.cfg.codeMode with
    | .mode64 => .mode64
    | .compat32 => .compat32
    | .prot32 => .prot32
    | .prot16 => .prot16

/-- Alignment checking is on: CR0.AM = 1, EFLAGS.AC = 1 and CPL = 3 (60_exceptions.md R97). -/
def State.alignmentCheck (s : State) : Bool :=
  s.cr0Am && s.eflagsAc && decide (s.cpl = 3)

end Sys2Proof.Machine
end

