-- ==== Sys2Proof/Machine/Memory.lean ====
section
/-! DEFINITION. Memory as one list of (address, byte) pairs in canonical form, and the byte order of a wide value
(20_memory.md R31). -/

namespace Sys2Proof.Machine

/-- What an address that is not listed reads as (log 4, DESIGN CHOICE). -/
def unlistedByte : Byte := 0

/-- The byte at an address. -/
def Memory.read : List Host.Cell → Nat → Byte
  | [], _ => unlistedByte
  | (k, v) :: t, a => if k = a then v else Memory.read t a

/-- The cells of one address and byte in canonical form: none for the byte an unlisted address reads as. -/
def cellOf (a : Nat) (b : Byte) : List Host.Cell :=
  if b = unlistedByte then [] else [(a, b)]

/-- Memory with the byte at an address replaced. -/
def Memory.write : List Host.Cell → Nat → Byte → List Host.Cell
  | [], a, b => cellOf a b
  | (k, v) :: t, a, b =>
    if a < k then cellOf a b ++ (k, v) :: t
    else if a = k then cellOf a b ++ t
    else (k, v) :: Memory.write t a b

/-- The canonical form from address `lo` up: addresses strictly rising and below 2^64, no byte listed that an unlisted
address reads as. -/
def Memory.wfFrom : Nat → List Host.Cell → Bool
  | _, [] => true
  | lo, (k, v) :: t => decide (lo ≤ k) && decide (k < 2 ^ 64) && decide (v ≠ unlistedByte) && Memory.wfFrom (k + 1) t

/-- The canonical form of memory. -/
def Memory.wf (m : List Host.Cell) : Bool := Memory.wfFrom 0 m

/-- The number whose little-endian bytes these are: the byte at the lowest address is bits 7:0 (20_memory.md R31). -/
def littleEndian : List Byte → Nat
  | [] => 0
  | b :: t => b.toNat + 256 * littleEndian t

end Sys2Proof.Machine
end

