-- ==== Sys2Proof/Machine/Ops.lean ====
section
/-! DEFINITION. The named operations over registers, memory and the instruction pointer, and raising an exception
(60_exceptions.md R103, R109). -/

namespace Sys2Proof.Machine

/-! ## Registers -/

/-- YMM[i] (00_scope.md R10). -/
def State.readYmm (s : State) (i : BitVec 4) : BitVec 256 := s.ymm[i.toNat]'i.isLt

/-- YMM[i] <- v, all 256 bits. -/
def State.writeYmm (s : State) (i : BitVec 4) (v : BitVec 256) : State :=
  { s with ymm := s.ymm.set i.toNat v i.isLt }

/-- XMM[i]: bits 127:0 of YMM[i] (10_state.md R14). -/
def State.readXmm (s : State) (i : BitVec 4) : BitVec 128 := (s.readYmm i).extractLsb' 0 128

/-- XMM[i] <- v of a Legacy SSE form: bits 255:128 of YMM[i] keep their value (10_state.md R16). -/
def State.writeXmmKeep (s : State) (i : BitVec 4) (v : BitVec 128) : State :=
  s.writeYmm i ((s.readYmm i).extractLsb' 128 128 ++ v)

/-- The write of a VEX.128 form: bits 255:128 of YMM[i] become 0 (10_state.md R16). -/
def State.writeXmmZero (s : State) (i : BitVec 4) (v : BitVec 128) : State :=
  s.writeYmm i (v.setWidth 256)

/-- The x87 physical data register R[i]. -/
def State.readX87 (s : State) (i : BitVec 3) : BitVec 80 := s.x87data[i.toNat]'i.isLt

def State.writeX87 (s : State) (i : BitVec 3) (v : BitVec 80) : State :=
  { s with x87data := s.x87data.set i.toNat v i.isLt }

/-- MM[i]: bits 63:0 of R[i] (10_state.md R13, R17). -/
def State.readMm (s : State) (i : BitVec 3) : BitVec 64 := (s.readX87 i).extractLsb' 0 64

/-- MM[i] <- v: bits 63:0 of R[i]. -/
def State.writeMm (s : State) (i : BitVec 3) (v : BitVec 64) : State :=
  s.writeX87 i ((s.readX87 i).extractLsb' 64 16 ++ v)

def State.setX87Tag (s : State) (v : BitVec 16) : State := { s with x87tag := v }

def State.setX87Status (s : State) (v : BitVec 16) : State := { s with x87status := v }

/-- The x87 status word with TOP, bits 13:11, set to 000. -/
def clearTop (v : BitVec 16) : BitVec 16 :=
  v.extractLsb' 14 2 ++ 0#3 ++ v.extractLsb' 0 11

/-- The x87 side effects of an MMX form that writes MM[i] (40_packed_subtract_common.md R77): all tags valid, TOP 000,
bits 79:64 of R[i] all ones. -/
def State.markMmx (s : State) (i : BitVec 3) : State :=
  ((s.setX87Tag 0).setX87Status (clearTop s.x87status)).writeX87 i (0xFFFF#16 ++ (s.readX87 i).extractLsb' 0 64)

/-- x[i]: a general register, all 64 bits (10_state.md R20). -/
def State.readGpr (s : State) (i : BitVec 4) : BitVec 64 := s.gpr[i.toNat]'i.isLt

/-- A segment register. -/
def State.segment (s : State) : Seg → Segment
  | .es => s.segs.es
  | .cs => s.segs.cs
  | .ss => s.segs.ss
  | .ds => s.segs.ds
  | .fs => s.segs.fs
  | .gs => s.segs.gs

def State.setPc (s : State) (a : Addr) : State := { s with pc := a }

def State.setMem (s : State) (m : List Host.Cell) : State := { s with mem := m }

/-! ## Memory -/

/-- The byte of memory at a physical address. -/
def State.readByte (s : State) (pa : Addr) : Byte := Memory.read s.mem pa.toNat

/-- The byte of memory at a physical address replaced (00_scope.md R10, MemWrite); no form uses it (20_memory.md R29). -/
def State.writeByte (s : State) (pa : Addr) (b : Byte) : State :=
  s.setMem (Memory.write s.mem pa.toNat b)

/-- MemMap: the address is ordinary memory (20_memory.md R37, R38). -/
def State.isOrdinary (s : State) (pa : Addr) : Bool :=
  s.cfg.memMap.any fun r => decide (r.lo ≤ pa) && decide (pa ≤ r.hi)

/-! ## Exceptions -/

/-- The vector of an exception (60_exceptions.md R109). -/
def Fault.vector : Fault → Nat
  | .ud _ => 6
  | .nm _ => 7
  | .ss _ => 12
  | .gp _ => 13
  | .pf _ _ _ => 14
  | .mf _ => 16
  | .ac _ => 17

/-- The error code of an exception, `none` where it has none (60_exceptions.md R109). -/
def Fault.errorCode : Fault → Option (BitVec 32)
  | .ud _ => none
  | .nm _ => none
  | .ss _ => some 0
  | .gp _ => some 0
  | .pf _ c _ => some c
  | .mf _ => none
  | .ac _ => some 0

/-- The saved instruction pointer. -/
def Fault.savedPc : Fault → Addr
  | .ud p => p
  | .nm p => p
  | .ss p => p
  | .gp p => p
  | .pf p _ _ => p
  | .mf p => p
  | .ac p => p

/-- Taking an exception: the step ends in the fault, which carries the address of the instruction; no state changes
(60_exceptions.md R103). -/
def raise {α : Type} (s : State) (e : Addr → Fault) : Res α := .error (.fault (e s.pc))

/-- The spec gives the step no meaning (00_scope.md R11). -/
def refuse {α : Type} (r : Refusal) : Res α := .error (.refused r)

/-- The outcome of a step whose operations are done. -/
def Res.toOutcome : Res State → Host.Outcome State Fault Refusal
  | .ok s => .next s
  | .error (.fault f) => .fault f
  | .error (.refused r) => .refused r

/-! ## Translation (20_memory.md R39) -/

/-- Whether a rule of Translate answers for an address, an access kind and a privilege level. -/
def ruleApplies (lin : Addr) (k : AccessKind) (cpl : BitVec 2) (r : TransRule) : Bool :=
  decide (r.lo ≤ lin) && decide (lin ≤ r.hi) && (r.kind.all fun q => decide (q = k)) && (r.cpl.all fun c => decide (c = cpl))

/-- The page-fault error code: bit 0 P, bit 1 W/R (0, the family only reads), bit 2 U/S (CPL 3), bit 3 RSVD, bit 4 I/D
(only for a fetch) (20_memory.md R39; 93 G11). The spec names no other bit; that bits 31:5 are 0 is the model's choice
(DESIGN CHOICE, log 7). -/
def pageFaultCode (present rsvd instr : Bool) (k : AccessKind) (cpl : BitVec 2) : BitVec 32 :=
  0#27 ++ BitVec.ofBool (instr && decide (k = .fetch)) ++ BitVec.ofBool rsvd ++ BitVec.ofBool (decide (cpl = 3)) ++ 0#1
    ++ BitVec.ofBool present

/-- Translate: the first rule that applies, else the identity; real-address mode has no paging (20_memory.md R39;
60_exceptions.md R100; log 7). -/
def translateAddr (s : State) (k : AccessKind) (lin : Addr) : Res Addr :=
  if s.mode = .real16 then .ok lin
  else
    match s.cfg.translation.find? (ruleApplies lin k s.cpl) with
    | none => .ok lin
    | some r =>
      match r.result with
      | .mapTo b => .ok (b + (lin - r.lo))
      | .pageFault present rsvd instr => raise s fun p => .pf p (pageFaultCode present rsvd instr k s.cpl) lin

/-- A byte read: refused outside MemMap (20_memory.md R37). -/
def readOrdinary (s : State) (pa : Addr) : Res Byte :=
  if s.isOrdinary pa = true then .ok (s.readByte pa) else refuse .notOrdinaryMemory

/-- The operation on each element in order, stopping at the first that stops. -/
def eachInOrder {α β : Type} (f : α → Res β) : List α → Res (List β)
  | [] => .ok []
  | x :: t => do
    let y ← f x
    let ys ← eachInOrder f t
    .ok (y :: ys)

/-! ## The instruction pointer (10_state.md R21) -/

/-- A canonical address: bits 63:47 all equal (20_memory.md R30; 93 G22). -/
def canonical (a : Addr) : Bool :=
  decide (a.extractLsb' 47 17 = 0) || decide (a.extractLsb' 47 17 = 0x1FFFF)

/-- An offset, taken without reduction, is a legal value of pc: it fits RIP and is canonical, or fits EIP or IP. -/
def pcFits (m : Mode) (off : Nat) : Bool :=
  match m with
  | .mode64 => decide (off < 2 ^ 64) && canonical (BitVec.ofNat 64 off)
  | .compat32 => decide (off < 2 ^ 32)
  | .prot32 => decide (off < 2 ^ 32)
  | .prot16 => decide (off < 2 ^ 16)
  | .real16 => decide (off < 2 ^ 16)
  | .v86 => decide (off < 2 ^ 16)

/-- The state a completed step goes on in: pc <- pc + len in `t`, or the refusal of a wrap-around (10_state.md R21). -/
def advance (len : Nat) (t : State) : Res State :=
  if pcFits t.mode (t.pc.toNat + len) = true then .ok (t.setPc (t.pc + BitVec.ofNat 64 len)) else refuse .pcWrap

end Sys2Proof.Machine
end

