-- ==== Sys2Proof/Machine/Exceptions.lean ====
section
/-! DEFINITION. The exception conditions that no operand enters: #UD, #NM, #MF, in the order of 60_exceptions.md R101
steps 2 to 4. -/

namespace Sys2Proof.Machine

/-- The form's CPUID feature flag (00_scope.md R3). -/
def hasFeature (s : State) : FormClass → Bool
  | .mmx => s.cfg.features.hasMmx
  | .sse2 => s.cfg.features.hasSse2
  | .vex128 => s.cfg.features.hasAvx
  | .vex256 => s.cfg.features.hasAvx2

/-- The #UD conditions of every VEX form but the feature flag and LOCK (60_exceptions.md R94). -/
def vexUndefined (p : List LegacyPrefix) (s : State) : Bool :=
  decide (s.mode = .real16) || decide (s.mode = .v86) || !s.cr4Osxsave || !s.xcr0SseAvx || vexForbidden p

/-- #UD (60_exceptions.md R91, R94). A VEX.256 form is the VEX shape with L = 1, whose feature flag is HAS_AVX2. -/
def isUndefined (c : FormClass) (p : List LegacyPrefix) (s : State) : Bool :=
  !hasFeature s c || hasKind .lock p ||
    match c with
    | .mmx => s.cr0Em
    | .sse2 => s.cr0Em || !s.cr4Osfxsr
    | .vex128 => vexUndefined p s
    | .vex256 => vexUndefined p s

/-- A pending x87 exception stops an MMX form: #MF, or with CR0.NE = 0 no meaning (60_exceptions.md R96). -/
def checkFpuError (c : FormClass) (s : State) : Res Unit :=
  if c = .mmx ∧ s.x87Es = true then
    if s.cr0Ne = true then raise s .mf else refuse .externalFpuError
  else .ok ()

/-- #UD, then #NM, then #MF (60_exceptions.md R94, R95, R96, R101). -/
def checkForm (c : FormClass) (p : List LegacyPrefix) (s : State) : Res Unit :=
  if isUndefined c p s = true then raise s .ud
  else if s.cr0Ts = true then raise s .nm
  else checkFpuError c s

end Sys2Proof.Machine
end

