-- ==== Sys2Proof/Machine/Lanes.lean ====
section
/-! DEFINITION. The lane function SubLanes (40_packed_subtract_common.md R67). -/

namespace Sys2Proof.Machine

/-- Lane `k` of width `w`: bits w*k + w - 1 down to w*k (00_scope.md R12). -/
def lane (w : Nat) {W : Nat} (v : BitVec W) (k : Nat) : BitVec w :=
  v.extractLsb' (w * k) w

/-- SubLanes(w, n, a, b) on operands of W bits, W = w * n: in each of the n lanes the difference modulo 2^w
(40_packed_subtract_common.md R67, R69); bits above the n lanes are 0. -/
def subLanes (w : Nat) {W : Nat} : (n : Nat) → BitVec W → BitVec W → BitVec W
  | 0, _, _ => 0
  | n + 1, a, b => subLanes w n a b ||| ((lane w a n - lane w b n).setWidth W <<< (w * n))

end Sys2Proof.Machine
end

