-- ==== Sys2Proof/Machine/Operands.lean ====
section
/-! DEFINITION. The operands: effective address (30_encoding.md R51 to R54), segment (R51, R56; 10_state.md R22), MemRead
(20_memory.md R30) and the r/m operand of each register file (30_encoding.md R46, R47, R50). -/

namespace Sys2Proof.Machine

/-! ## Effective address -/

/-- Reduction modulo 2^asz, then zero extension (30_encoding.md R51, R54). -/
def truncAddr : AddressSize → Addr → Addr
  | .a16, a => (a.setWidth 16).setWidth 64
  | .a32, a => (a.setWidth 32).setWidth 64
  | .a64, a => a

/-- x[i] at the address size (00_scope.md R10). -/
def State.readGprAt (s : State) (z : AddressSize) (i : BitVec 4) : Addr :=
  truncAddr z (s.readGpr i)

/-- The displacement sign-extended to 64 bits; 0 where there is none (30_encoding.md R53). The reduction modulo 2^asz
follows, so a disp32 under 32-bit and a disp16 under 16-bit addressing count as they are. -/
def Disp.value : Disp → Addr
  | .absent => 0
  | .disp8 v => v.signExtend 64
  | .disp16 v => v.signExtend 64
  | .disp32 v => v.signExtend 64

/-- The default segment of a base register: SS for rSP (4) and rBP (5), else DS (30_encoding.md R51). -/
def baseSegment (i : BitVec 4) : Seg :=
  if i = 4 ∨ i = 5 then .ss else .ds

/-- SibIndex: no index when X ++ idx = 0100, else the register shifted left by ss (30_encoding.md R52). -/
def sibIndex (s : State) (z : AddressSize) (x : Bool) (sib : Sib) : Addr :=
  if regNumber x sib.idx = 4 then 0 else s.readGprAt z (regNumber x sib.idx) <<< sib.ss.toNat

/-- The base of a SIB operand with its default segment: none when base = 101 and mod = 00 (30_encoding.md R52). -/
def sibBase (s : State) (z : AddressSize) (b : Bool) (mod : MemMod) (sib : Sib) : Seg × Addr :=
  if sib.base = 5 ∧ mod = .m00 then (.ds, 0)
  else (baseSegment (regNumber b sib.base), s.readGprAt z (regNumber b sib.base))

/-- Default segment and unreduced EA under 32- or 64-bit addressing (30_encoding.md R51); `x`, `b` are REX.X, REX.B or
VEX.X, VEX.B. -/
def wideAddress (s : State) (z : AddressSize) (x b : Bool) (pcNext : Addr) (m : MemOperand) : Seg × Addr :=
  match m.sib with
  | some sib =>
    ((sibBase s z b m.mod sib).1, (sibBase s z b m.mod sib).2 + sibIndex s z x sib + Disp.value m.disp)
  | none =>
    if m.rm = 5 ∧ m.mod = .m00 then
      (.ds, if s.mode = .mode64 then pcNext + Disp.value m.disp else Disp.value m.disp)
    else (baseSegment (regNumber b m.rm), s.readGprAt z (regNumber b m.rm) + Disp.value m.disp)

/-- Default segment and unreduced EA under 16-bit addressing (30_encoding.md R54); BX = 3, BP = 5, SI = 6, DI = 7. -/
def shortAddress (s : State) (m : MemOperand) : Seg × Addr :=
  if m.rm = 0 then (.ds, s.readGpr 3 + s.readGpr 6 + Disp.value m.disp)
  else if m.rm = 1 then (.ds, s.readGpr 3 + s.readGpr 7 + Disp.value m.disp)
  else if m.rm = 2 then (.ss, s.readGpr 5 + s.readGpr 6 + Disp.value m.disp)
  else if m.rm = 3 then (.ss, s.readGpr 5 + s.readGpr 7 + Disp.value m.disp)
  else if m.rm = 4 then (.ds, s.readGpr 6 + Disp.value m.disp)
  else if m.rm = 5 then (.ds, s.readGpr 7 + Disp.value m.disp)
  else if m.rm = 6 then
    if m.mod = .m00 then (.ds, Disp.value m.disp) else (.ss, s.readGpr 5 + Disp.value m.disp)
  else (.ds, s.readGpr 3 + Disp.value m.disp)

/-- Default segment and effective address of a memory operand (30_encoding.md R51, R54). -/
def effectiveAddress (s : State) (z : AddressSize) (x b : Bool) (pcNext : Addr) (m : MemOperand) : Seg × Addr :=
  match z with
  | .a16 => ((shortAddress s m).1, truncAddr .a16 (shortAddress s m).2)
  | .a32 => ((wideAddress s .a32 x b pcNext m).1, truncAddr .a32 (wideAddress s .a32 x b pcNext m).2)
  | .a64 => wideAddress s .a64 x b pcNext m

/-- The segment of a memory operand: the override if there is one, but in 64-bit mode ES, CS, SS and DS overrides are
ignored (30_encoding.md R56). -/
def operandSegment (m : Mode) (p : List LegacyPrefix) (default : Seg) : Seg :=
  match segOverride p with
  | none => default
  | some .fs => .fs
  | some .gs => .gs
  | some .es => if m = .mode64 then default else .es
  | some .cs => if m = .mode64 then default else .cs
  | some .ss => if m = .mode64 then default else .ss
  | some .ds => if m = .mode64 then default else .ds

/-- Segment and effective address of the memory operand of an instruction with these prefixes, X and B bits and length
(30_encoding.md R51, R56). -/
def operandAddress (s : State) (p : List LegacyPrefix) (x b : Bool) (len : Nat) (m : MemOperand) : Seg × Addr :=
  let a := effectiveAddress s (addressSize s.mode p) x b (s.pc + BitVec.ofNat 64 len) m
  (operandSegment s.mode p a.1, a.2)

/-! ## Segmentation (20_memory.md R30 step 1) -/

/-- The base of a segment: in 64-bit mode only FS and GS have one (10_state.md R22). -/
def segBase (s : State) (g : Seg) : Addr :=
  if s.mode = .mode64 ∧ g ≠ .fs ∧ g ≠ .gs then 0 else (s.segment g).base

/-- A linear address: modulo 2^64 in 64-bit mode, modulo 2^32 outside it (20_memory.md R30). -/
def wrapLinear (m : Mode) (a : Addr) : Addr :=
  if m = .mode64 then a else truncAddr .a32 a

/-- The linear address of an offset in a segment. -/
def linearAddress (s : State) (g : Seg) (off : Addr) : Addr :=
  wrapLinear s.mode (segBase s g + off)

/-- The linear address of byte `k` of an access at `lin` (log 16). -/
def linearByte (s : State) (lin : Addr) (k : Nat) : Addr :=
  wrapLinear s.mode (lin + BitVec.ofNat 64 k)

/-- A null selector: index and table bits 15:2 are 0 (60_exceptions.md R98; log 18). -/
def nullSelector (g : Segment) : Bool :=
  decide (g.selector.extractLsb' 2 14 = 0)

/-- Whether the `n` bytes at an offset are legal in a segment (20_memory.md R30 step 1; 60_exceptions.md R98, R99). -/
def segmentOk (s : State) (g : Seg) (off : Addr) (n : Nat) : Bool :=
  match s.mode with
  | .mode64 => canonical (linearAddress s g off)
  | .real16 => decide (off.toNat + n ≤ 0x10000)
  | .v86 => decide (off.toNat + n ≤ 0x10000)
  | .compat32 => !nullSelector (s.segment g) && (s.segment g).readable && decide (off.toNat + n ≤ (s.segment g).limit.toNat + 1)
  | .prot32 => !nullSelector (s.segment g) && (s.segment g).readable && decide (off.toNat + n ≤ (s.segment g).limit.toNat + 1)
  | .prot16 => !nullSelector (s.segment g) && (s.segment g).readable && decide (off.toNat + n ≤ (s.segment g).limit.toNat + 1)

/-- #SS(0) through SS, #GP(0) through any other segment (60_exceptions.md R98, R99). -/
def segmentFault (g : Seg) : Addr → Fault :=
  if g = .ss then .ss else .gp

/-! ## Alignment (20_memory.md R30 step 2, R32 to R34) -/

/-- The linear address violates the alignment of a form class, and the exception it then raises: 16 bytes for the 128-bit
Legacy SSE forms, 8 bytes for the MMX forms while alignment checking is on, none for the VEX forms. -/
def alignmentFault (s : State) (c : FormClass) (lin : Addr) : Option (Addr → Fault) :=
  match c with
  | .mmx => if s.alignmentCheck = true ∧ lin.extractLsb' 0 3 ≠ 0 then some .ac else none
  | .sse2 => if lin.extractLsb' 0 4 ≠ 0 then some .gp else none
  | .vex128 => none
  | .vex256 => none

/-! ## MemRead (20_memory.md R30) -/

/-- Steps 1 and 2: the linear address of a memory operand, or the exception. -/
def checkedLinear (s : State) (c : FormClass) (g : Seg) (off : Addr) : Res Addr :=
  if segmentOk s g off c.operandBytes = true then
    match alignmentFault s c (linearAddress s g off) with
    | none => .ok (linearAddress s g off)
    | some e => raise s e
  else raise s (segmentFault g)

/-- Steps 3 and 4: the bytes at a linear address, every byte translated before any is read. -/
def readLinear (s : State) (lin : Addr) (n : Nat) : Res (List Byte) := do
  let pas ← eachInOrder (fun k => translateAddr s .dataRead (linearByte s lin k)) (List.range n)
  eachInOrder (readOrdinary s) pas

/-- MemRead(seg, off, n): the value of a memory operand of a form class, W = 8 n bits (20_memory.md R28, R30, R31). -/
def memRead (s : State) (c : FormClass) (W : Nat) (g : Seg) (off : Addr) : Res (BitVec W) := do
  let lin ← checkedLinear s c g off
  let bs ← readLinear s lin c.operandBytes
  .ok (BitVec.ofNat W (littleEndian bs))

/-! ## The r/m operand -/

/-- The r/m operand of an MMX form: MM[rm] without any extension bit, or m64 (30_encoding.md R46, R50, R55). -/
def readMmSource (o : LegacyOps) (s : State) : Res (BitVec 64) :=
  match o.rm with
  | .reg r => .ok (s.readMm r)
  | .mem m =>
    let a := operandAddress s o.prefixes (effectiveRex o.prefixes).x (effectiveRex o.prefixes).b o.len m
    memRead s .mmx 64 a.1 a.2

/-- The r/m operand of a 128-bit Legacy SSE form: XMM[REX.B ++ rm] or m128 (30_encoding.md R46, R50). -/
def readXmmSource (o : LegacyOps) (s : State) : Res (BitVec 128) :=
  match o.rm with
  | .reg r => .ok (s.readXmm (regNumber (effectiveRex o.prefixes).b r))
  | .mem m =>
    let a := operandAddress s o.prefixes (effectiveRex o.prefixes).x (effectiveRex o.prefixes).b o.len m
    memRead s .sse2 128 a.1 a.2

/-- The r/m operand of a VEX.128 form: XMM[VEX.B ++ rm] or m128 (30_encoding.md R47, R50). -/
def readVexXmmSource (o : VexOps) (s : State) : Res (BitVec 128) :=
  match o.rm with
  | .reg r => .ok (s.readXmm (regNumber o.vex.b r))
  | .mem m =>
    let a := operandAddress s o.prefixes o.vex.x o.vex.b o.len m
    memRead s .vex128 128 a.1 a.2

/-- The r/m operand of a VEX.256 form: YMM[VEX.B ++ rm] or m256 (30_encoding.md R47, R50). -/
def readVexYmmSource (o : VexOps) (s : State) : Res (BitVec 256) :=
  match o.rm with
  | .reg r => .ok (s.readYmm (regNumber o.vex.b r))
  | .mem m =>
    let a := operandAddress s o.prefixes o.vex.x o.vex.b o.len m
    memRead s .vex256 256 a.1 a.2

end Sys2Proof.Machine
end

