-- ==== Sys2Proof/Machine/Templates.lean ====
section
/-! DEFINITION. The step templates of the two operand encodings (40_packed_subtract_common.md R72, R73), one for each
register file; `f` is the lane function of the instruction. Every read and every check stands before the write (92 D27). -/

namespace Sys2Proof.Machine

/-- Step of an RM form on MMX registers (40 R72 with W = 64): MM[reg] <- f MM[reg] b, then the x87 side effects (R77). -/
def stepMmx (f : BitVec 64 → BitVec 64 → BitVec 64) (o : LegacyOps) (s : State) : Host.Outcome State Fault Refusal :=
  Res.toOutcome do
    checkForm .mmx o.prefixes s
    let b ← readMmSource o s
    advance o.len ((s.writeMm o.reg (f (s.readMm o.reg) b)).markMmx o.reg)

/-- Step of an RM form on XMM registers (40 R72 with W = 128): bits 255:128 are kept (10_state.md R16). -/
def stepXmm (f : BitVec 128 → BitVec 128 → BitVec 128) (o : LegacyOps) (s : State) : Host.Outcome State Fault Refusal :=
  Res.toOutcome do
    checkForm .sse2 o.prefixes s
    let b ← readXmmSource o s
    advance o.len (s.writeXmmKeep o.xmmReg (f (s.readXmm o.xmmReg) b))

/-- Step of an RVM form of vector length 128 (40 R73): bits 255:128 become 0 (10_state.md R16). -/
def stepVexXmm (f : BitVec 128 → BitVec 128 → BitVec 128) (o : VexOps) (s : State) : Host.Outcome State Fault Refusal :=
  Res.toOutcome do
    checkForm .vex128 o.prefixes s
    let b ← readVexXmmSource o s
    advance o.len (s.writeXmmZero o.dst (f (s.readXmm o.vex.vvvv) b))

/-- Step of an RVM form of vector length 256 (40 R73). -/
def stepVexYmm (f : BitVec 256 → BitVec 256 → BitVec 256) (o : VexOps) (s : State) : Host.Outcome State Fault Refusal :=
  Res.toOutcome do
    checkForm .vex256 o.prefixes s
    let b ← readVexYmmSource o s
    advance o.len (s.writeYmm o.dst (f (s.readYmm o.vex.vvvv) b))

end Sys2Proof.Machine
end

