-- ==== Sys2Proof/Machine/Psubb.lean ====
section
/-! DEFINITION. PSUBB and VPSUBB: subtract packed byte integers (41_psubb.md R79 to R82). -/

namespace Sys2Proof.Machine

/-- PSUBB mm, mm/m64: 8 byte lanes (R79). -/
def execPsubbMm (o : LegacyOps) (s : State) : Host.Outcome State Fault Refusal :=
  stepMmx (subLanes 8 8) o s

/-- PSUBB xmm1, xmm2/m128: 16 byte lanes (R80). -/
def execPsubbXmm (o : LegacyOps) (s : State) : Host.Outcome State Fault Refusal :=
  stepXmm (subLanes 8 16) o s

/-- VPSUBB xmm1, xmm2, xmm3/m128: 16 byte lanes (R81). -/
def execVpsubbXmm (o : VexOps) (s : State) : Host.Outcome State Fault Refusal :=
  stepVexXmm (subLanes 8 16) o s

/-- VPSUBB ymm1, ymm2, ymm3/m256: 32 byte lanes (R82). -/
def execVpsubbYmm (o : VexOps) (s : State) : Host.Outcome State Fault Refusal :=
  stepVexYmm (subLanes 8 32) o s

end Sys2Proof.Machine
end

