-- ==== Sys2Proof/Machine/Psubd.lean ====
section
/-! DEFINITION. PSUBD and VPSUBD: subtract packed doubleword integers (43_psubd.md R87 to R90). -/

namespace Sys2Proof.Machine

/-- PSUBD mm, mm/m64: 2 doubleword lanes (R87). -/
def execPsubdMm (o : LegacyOps) (s : State) : Host.Outcome State Fault Refusal :=
  stepMmx (subLanes 32 2) o s

/-- PSUBD xmm1, xmm2/m128: 4 doubleword lanes (R88). -/
def execPsubdXmm (o : LegacyOps) (s : State) : Host.Outcome State Fault Refusal :=
  stepXmm (subLanes 32 4) o s

/-- VPSUBD xmm1, xmm2, xmm3/m128: 4 doubleword lanes (R89). -/
def execVpsubdXmm (o : VexOps) (s : State) : Host.Outcome State Fault Refusal :=
  stepVexXmm (subLanes 32 4) o s

/-- VPSUBD ymm1, ymm2, ymm3/m256: 8 doubleword lanes (R90). -/
def execVpsubdYmm (o : VexOps) (s : State) : Host.Outcome State Fault Refusal :=
  stepVexYmm (subLanes 32 8) o s

end Sys2Proof.Machine
end

