-- ==== Sys2Proof/Machine/Psubw.lean ====
section
/-! DEFINITION. PSUBW and VPSUBW: subtract packed word integers (42_psubw.md R83 to R86). -/

namespace Sys2Proof.Machine

/-- PSUBW mm, mm/m64: 4 word lanes (R83). -/
def execPsubwMm (o : LegacyOps) (s : State) : Host.Outcome State Fault Refusal :=
  stepMmx (subLanes 16 4) o s

/-- PSUBW xmm1, xmm2/m128: 8 word lanes (R84). -/
def execPsubwXmm (o : LegacyOps) (s : State) : Host.Outcome State Fault Refusal :=
  stepXmm (subLanes 16 8) o s

/-- VPSUBW xmm1, xmm2, xmm3/m128: 8 word lanes (R85). -/
def execVpsubwXmm (o : VexOps) (s : State) : Host.Outcome State Fault Refusal :=
  stepVexXmm (subLanes 16 8) o s

/-- VPSUBW ymm1, ymm2, ymm3/m256: 16 word lanes (R86). -/
def execVpsubwYmm (o : VexOps) (s : State) : Host.Outcome State Fault Refusal :=
  stepVexYmm (subLanes 16 16) o s

end Sys2Proof.Machine
end

