-- ==== Sys2Proof/Machine/Dispatch.lean ====
section
/-! DEFINITION. One arm per instruction form (00_scope.md R2). -/

namespace Sys2Proof.Machine

def exec (i : Instr) (s : State) : Host.Outcome State Fault Refusal :=
  match i with
  | .psubbMm o => Sys2Proof.Machine.execPsubbMm o s
  | .psubbXmm o => Sys2Proof.Machine.execPsubbXmm o s
  | .psubwMm o => Sys2Proof.Machine.execPsubwMm o s
  | .psubwXmm o => Sys2Proof.Machine.execPsubwXmm o s
  | .psubdMm o => Sys2Proof.Machine.execPsubdMm o s
  | .psubdXmm o => Sys2Proof.Machine.execPsubdXmm o s
  | .vpsubbXmm o => Sys2Proof.Machine.execVpsubbXmm o s
  | .vpsubwXmm o => Sys2Proof.Machine.execVpsubwXmm o s
  | .vpsubdXmm o => Sys2Proof.Machine.execVpsubdXmm o s
  | .vpsubbYmm o => Sys2Proof.Machine.execVpsubbYmm o s
  | .vpsubwYmm o => Sys2Proof.Machine.execVpsubwYmm o s
  | .vpsubdYmm o => Sys2Proof.Machine.execVpsubdYmm o s

end Sys2Proof.Machine
end

