-- ==== Sys2Proof/WellFormed.lean ====
section
/-! DEFINITION. Which instruction terms stand for bytes that a mode decodes: the conditions of 30_encoding.md R44, R49 to
R54, R55, R56, R61 and the 15-byte limit of R63, each a check of its own. -/

namespace Sys2Proof

/-- A REX prefix exists in 64-bit mode only (30_encoding.md R55). -/
def rexOnlyInMode64 (m : Mode) (p : List LegacyPrefix) : Bool :=
  decide (m = .mode64) || !hasKind .rex p

/-- SIB and displacement are those that mod, r/m and the address size call for (30_encoding.md R51 to R54). -/
def RM.wellFormed (z : AddressSize) : RM → Bool
  | .reg _ => true
  | .mem m => decide (m.sib.isSome = needsSib z m.rm) && decide (m.disp.size = dispSize z m.mod m.rm m.sib)

/-- The checks of a legacy-shape instruction; `xmm` says whether the form is one that the 66 prefix selects
(30_encoding.md R44). -/
def LegacyOps.wellFormed (m : Mode) (xmm : Bool) (o : LegacyOps) : Bool :=
  prefixesOnce o.prefixes && rexOnlyInMode64 m o.prefixes && noRepeatPrefix o.prefixes
    && decide (hasKind .opSize o.prefixes = xmm)
    && o.rm.wellFormed (addressSize m o.prefixes)
    && decide (o.len ≤ 15)

/-- The checks of a VEX-shape instruction. -/
def VexOps.wellFormed (m : Mode) (o : VexOps) : Bool :=
  prefixesOnce o.prefixes && rexOnlyInMode64 m o.prefixes && o.vex.wellFormed m
    && o.rm.wellFormed (addressSize m o.prefixes)
    && decide (o.len ≤ 15)

/-- The instruction stands for bytes that mode `m` decodes. -/
def Instr.wellFormed (m : Mode) : Instr → Bool
  | .psubbMm o => o.wellFormed m false
  | .psubbXmm o => o.wellFormed m true
  | .psubwMm o => o.wellFormed m false
  | .psubwXmm o => o.wellFormed m true
  | .psubdMm o => o.wellFormed m false
  | .psubdXmm o => o.wellFormed m true
  | .vpsubbXmm o => o.wellFormed m
  | .vpsubwXmm o => o.wellFormed m
  | .vpsubdXmm o => o.wellFormed m
  | .vpsubbYmm o => o.wellFormed m
  | .vpsubwYmm o => o.wellFormed m
  | .vpsubdYmm o => o.wellFormed m

end Sys2Proof
end

