-- ==== Sys2Proof/Decode.lean ====
section
/-! DEFINITION. The decoder, total on any bytes and refusing by name (30_encoding.md R42 to R66), and after it the encoder,
written from the same tables. -/

namespace Sys2Proof

/-- Why bytes are not an instruction: `truncated` needs more bytes; the others are the refusals of 30_encoding.md R65. -/
inductive DecodeError where
  | truncated
  | notThisFamily
  | prefixNotInScope
  | redundantPrefix
  | vexHighRegOutside64
deriving DecidableEq, Repr

/-! ## Prefix bytes (30_encoding.md R55, R56) -/

/-- The prefix a byte is in mode `m`; 40H to 4FH is a REX prefix in 64-bit mode only. -/
def prefixOfByte (m : Mode) (b : Byte) : Option LegacyPrefix :=
  if b = 0x66 then some .opSize
  else if b = 0x67 then some .addrSize
  else if b = 0xF0 then some .lock
  else if b = 0xF2 then some .repne
  else if b = 0xF3 then some .rep
  else if b = 0x26 then some (.segment .es)
  else if b = 0x2E then some (.segment .cs)
  else if b = 0x36 then some (.segment .ss)
  else if b = 0x3E then some (.segment .ds)
  else if b = 0x64 then some (.segment .fs)
  else if b = 0x65 then some (.segment .gs)
  else if m = .mode64 ∧ b.extractLsb' 4 4 = 4 then
    some (.rex ⟨b.getLsbD 3, b.getLsbD 2, b.getLsbD 1, b.getLsbD 0⟩)
  else none

/-- The run of prefix bytes at the front, and the rest. -/
def takePrefixes (m : Mode) : List Byte → List LegacyPrefix × List Byte
  | [] => ([], [])
  | b :: t =>
    match prefixOfByte m b with
    | some p => (p :: (takePrefixes m t).1, (takePrefixes m t).2)
    | none => ([], b :: t)

/-! ## ModRM, SIB, displacement (30_encoding.md R49 to R54) -/

/-- The memory forms of ModRM.mod; `none` is 11, a register. -/
def memMod (v : BitVec 2) : Option MemMod :=
  if v = 0 then some .m00 else if v = 1 then some .m01 else if v = 2 then some .m10 else none

/-- The displacement at the front, least significant byte first (30_encoding.md R53). -/
def takeDisp : DispSize → List Byte → Except DecodeError (Disp × List Byte)
  | .d0, t => .ok (.absent, t)
  | .d1, b :: t => .ok (.disp8 b, t)
  | .d2, b0 :: b1 :: t => .ok (.disp16 (b1 ++ b0), t)
  | .d4, b0 :: b1 :: b2 :: b3 :: t => .ok (.disp32 (b3 ++ b2 ++ b1 ++ b0), t)
  | .d1, [] => .error .truncated
  | .d2, [] => .error .truncated
  | .d2, [_] => .error .truncated
  | .d4, [] => .error .truncated
  | .d4, [_] => .error .truncated
  | .d4, [_, _] => .error .truncated
  | .d4, [_, _, _] => .error .truncated

/-- The SIB byte at the front, where one follows (30_encoding.md R52). -/
def takeSib : Bool → List Byte → Except DecodeError (Option Sib × List Byte)
  | false, t => .ok (none, t)
  | true, [] => .error .truncated
  | true, b :: t => .ok (some ⟨b.extractLsb' 6 2, b.extractLsb' 3 3, b.extractLsb' 0 3⟩, t)

/-- ModRM and what follows it: the reg field, the r/m operand, the rest. -/
def decodeRM (z : AddressSize) : List Byte → Except DecodeError (BitVec 3 × RM × List Byte)
  | [] => .error .truncated
  | b :: t =>
    match memMod (b.extractLsb' 6 2) with
    | none => .ok (b.extractLsb' 3 3, .reg (b.extractLsb' 0 3), t)
    | some md => do
      let (sib, t1) ← takeSib (needsSib z (b.extractLsb' 0 3)) t
      let (disp, t2) ← takeDisp (dispSize z md (b.extractLsb' 0 3) sib) t1
      .ok (b.extractLsb' 3 3, .mem ⟨md, b.extractLsb' 0 3, sib, disp⟩, t2)

/-! ## The opcode map (30_encoding.md R43, R44, R58) -/

/-- Element type: byte, word, doubleword. -/
inductive Elem where
  | b
  | w
  | d
deriving DecidableEq, Repr

def elemOfOpcode (op : Byte) : Option Elem :=
  if op = 0xF8 then some .b else if op = 0xF9 then some .w else if op = 0xFA then some .d else none

/-- The legacy form of an element type; `xmm` when the mandatory prefix 66 is present. -/
def legacyInstr : Elem → (xmm : Bool) → LegacyOps → Instr
  | .b, false, o => .psubbMm o
  | .b, true, o => .psubbXmm o
  | .w, false, o => .psubwMm o
  | .w, true, o => .psubwXmm o
  | .d, false, o => .psubdMm o
  | .d, true, o => .psubdXmm o

/-- The VEX form of an element type; `l` is VEX.L (30_encoding.md R59). -/
def vexInstr : Elem → (l : Bool) → VexOps → Instr
  | .b, false, o => .vpsubbXmm o
  | .b, true, o => .vpsubbYmm o
  | .w, false, o => .vpsubwXmm o
  | .w, true, o => .vpsubwYmm o
  | .d, false, o => .vpsubdXmm o
  | .d, true, o => .vpsubdYmm o

/-- What follows the escape byte 0F. -/
def decodeLegacy (m : Mode) (p : List LegacyPrefix) : List Byte → Except DecodeError Instr
  | [] => .error .truncated
  | op :: t =>
    match elemOfOpcode op with
    | none => .error .notThisFamily
    | some e =>
      if !noRepeatPrefix p then .error .prefixNotInScope
      else if !prefixesOnce p then .error .redundantPrefix
      else do
        let (reg, rm, _) ← decodeRM (addressSize m p) t
        .ok (legacyInstr e (hasKind .opSize p) ⟨p, reg, rm⟩)

/-! ## The VEX prefix (30_encoding.md R57, R58, R61) -/

/-- A VEX prefix as read: the fields a form keeps, and mmmmm, L and pp. -/
structure VexHead where
  vex   : Vex
  mmmmm : BitVec 5
  l     : Bool
  pp    : BitVec 2
deriving DecidableEq, Repr

/-- The payload of C5 P0. -/
def vexTwoHead (p0 : Byte) : VexHead :=
  ⟨.two (!p0.getLsbD 7) (~~~ (p0.extractLsb' 3 4)), 1, p0.getLsbD 2, p0.extractLsb' 0 2⟩

/-- The payload of C4 P1 P2. -/
def vexThreeHead (p1 p2 : Byte) : VexHead :=
  ⟨.three (!p1.getLsbD 7) (!p1.getLsbD 6) (!p1.getLsbD 5) (p2.getLsbD 7) (~~~ (p2.extractLsb' 3 4)),
    p1.extractLsb' 0 5, p2.getLsbD 2, p2.extractLsb' 0 2⟩

/-- Outside 64-bit mode C4 and C5 begin LES and LDS unless bits 7:6 of the next byte are 11 (30_encoding.md R61). -/
def isVexPayload (m : Mode) (b : Byte) : Bool :=
  decide (m = .mode64) || decide (b.extractLsb' 6 2 = 3)

/-- What follows the VEX payload. -/
def decodeVexBody (m : Mode) (p : List LegacyPrefix) (h : VexHead) : List Byte → Except DecodeError Instr
  | [] => .error .truncated
  | op :: t =>
    match elemOfOpcode op with
    | none => .error .notThisFamily
    | some e =>
      if h.pp ≠ 1 ∨ h.mmmmm ≠ 1 then .error .notThisFamily
      else if !prefixesOnce p then .error .redundantPrefix
      else if !h.vex.wellFormed m then .error .vexHighRegOutside64
      else do
        let (reg, rm, _) ← decodeRM (addressSize m p) t
        .ok (vexInstr e h.l ⟨p, h.vex, reg, rm⟩)

/-- What follows C5. -/
def decodeVexTwo (m : Mode) (p : List LegacyPrefix) : List Byte → Except DecodeError Instr
  | [] => .error .truncated
  | p0 :: t => if isVexPayload m p0 then decodeVexBody m p (vexTwoHead p0) t else .error .notThisFamily

/-- What follows C4. -/
def decodeVexThree (m : Mode) (p : List LegacyPrefix) : List Byte → Except DecodeError Instr
  | [] => .error .truncated
  | [p1] => if isVexPayload m p1 then .error .truncated else .error .notThisFamily
  | p1 :: p2 :: t =>
    if isVexPayload m p1 then decodeVexBody m p (vexThreeHead p1 p2) t else .error .notThisFamily

/-- The instruction at the front of a byte sequence in mode `m` (30_encoding.md R66); at most 15 bytes are looked at
(R63), so an instruction that would be longer is `truncated` on however many bytes. -/
def decode (m : Mode) (bs : List Byte) : Except DecodeError Instr :=
  match takePrefixes m (bs.take 15) with
  | (_, []) => .error .truncated
  | (p, b :: t) =>
    if b = 0x0F then decodeLegacy m p t
    else if b = 0xC5 then decodeVexTwo m p t
    else if b = 0xC4 then decodeVexThree m p t
    else .error .notThisFamily

/-! ## The encoder -/

def Seg.overrideByte : Seg → Byte
  | .es => 0x26
  | .cs => 0x2E
  | .ss => 0x36
  | .ds => 0x3E
  | .fs => 0x64
  | .gs => 0x65

/-- The byte of a prefix (30_encoding.md R55, R56). -/
def LegacyPrefix.byte : LegacyPrefix → Byte
  | .opSize => 0x66
  | .addrSize => 0x67
  | .lock => 0xF0
  | .repne => 0xF2
  | .rep => 0xF3
  | .segment g => g.overrideByte
  | .rex r => 4#4 ++ BitVec.ofBool r.w ++ BitVec.ofBool r.r ++ BitVec.ofBool r.x ++ BitVec.ofBool r.b

def MemMod.bits : MemMod → BitVec 2
  | .m00 => 0
  | .m01 => 1
  | .m10 => 2

/-- Displacement bytes, least significant first (30_encoding.md R53). -/
def Disp.bytes : Disp → List Byte
  | .absent => []
  | .disp8 v => [v]
  | .disp16 v => [v.extractLsb' 0 8, v.extractLsb' 8 8]
  | .disp32 v => [v.extractLsb' 0 8, v.extractLsb' 8 8, v.extractLsb' 16 8, v.extractLsb' 24 8]

/-- The SIB byte (30_encoding.md R52). -/
def sibBytes : Option Sib → List Byte
  | none => []
  | some s => [s.ss ++ s.idx ++ s.base]

/-- ModRM, SIB and displacement (30_encoding.md R49). -/
def encodeRM (reg : BitVec 3) : RM → List Byte
  | .reg rm => [3#2 ++ reg ++ rm]
  | .mem m => (m.mod.bits ++ reg ++ m.rm) :: (sibBytes m.sib ++ m.disp.bytes)

/-- The VEX prefix with pp = 01, mmmmm = 00001 and the given L (30_encoding.md R57, R58). -/
def encodeVexPrefix (l : Bool) : Vex → List Byte
  | .two r v => [0xC5, BitVec.ofBool (!r) ++ (~~~ v) ++ BitVec.ofBool l ++ 1#2]
  | .three r x b w v =>
    [0xC4, BitVec.ofBool (!r) ++ BitVec.ofBool (!x) ++ BitVec.ofBool (!b) ++ 1#5,
      BitVec.ofBool w ++ (~~~ v) ++ BitVec.ofBool l ++ 1#2]

/-- Legacy shape (30_encoding.md R42). -/
def encodeLegacy (op : Byte) (o : LegacyOps) : List Byte :=
  o.prefixes.map LegacyPrefix.byte ++ 0x0F :: op :: encodeRM o.reg o.rm

/-- VEX shape (30_encoding.md R42). -/
def encodeVex (op : Byte) (l : Bool) (o : VexOps) : List Byte :=
  o.prefixes.map LegacyPrefix.byte ++ (encodeVexPrefix l o.vex ++ op :: encodeRM o.reg o.rm)

/-- The bytes of an instruction, in ascending address order. -/
def encode : Instr → List Byte
  | .psubbMm o => encodeLegacy 0xF8 o
  | .psubbXmm o => encodeLegacy 0xF8 o
  | .psubwMm o => encodeLegacy 0xF9 o
  | .psubwXmm o => encodeLegacy 0xF9 o
  | .psubdMm o => encodeLegacy 0xFA o
  | .psubdXmm o => encodeLegacy 0xFA o
  | .vpsubbXmm o => encodeVex 0xF8 false o
  | .vpsubwXmm o => encodeVex 0xF9 false o
  | .vpsubdXmm o => encodeVex 0xFA false o
  | .vpsubbYmm o => encodeVex 0xF8 true o
  | .vpsubwYmm o => encodeVex 0xF9 true o
  | .vpsubdYmm o => encodeVex 0xFA true o

/-! ## The opcode table's numbering -/

/-- The `nbits / 8` bytes of a word, most significant byte first. -/
def bytesMsbFirst (nbits w : Nat) : List Byte :=
  (List.range (nbits / 8)).map fun k => BitVec.ofNat 8 (w >>> (nbits - 8 * (k + 1)))

/-- The `nbits / 8` bytes of a word, least significant byte first. -/
def bytesLsbFirst (nbits w : Nat) : List Byte :=
  (List.range (nbits / 8)).map fun k => BitVec.ofNat 8 (w >>> (8 * k))

/-- A word's bytes with zero bytes after them, up to the longest instruction of 15 bytes. -/
def padFetch (bs : List Byte) : List Byte :=
  (bs ++ List.replicate 15 0).take 15

/-- The bytes of a table word in fetch order. spec/opcode_table.json numbers an instruction as ONE number whose most
significant byte is fetched first (row 1's `fixed` gives 0FF8H to bits 23:8), and so are they laid out; a word that is no
instruction so and is one with its least significant byte first is laid out that way (log 20). -/
def tableBytes (nbits w : Nat) : List Byte :=
  match decode .mode64 (padFetch (bytesMsbFirst nbits w)), decode .mode64 (padFetch (bytesLsbFirst nbits w)) with
  | .error _, .ok _ => padFetch (bytesLsbFirst nbits w)
  | _, _ => padFetch (bytesMsbFirst nbits w)

/-- The instruction the decoder reads from a table word, in 64-bit mode (log 20). -/
def decodeTableWord (nbits w : Nat) : Option Instr :=
  match decode .mode64 (tableBytes nbits w) with
  | .ok i => some i
  | .error _ => none

end Sys2Proof
end

