-- ==== Sys2Proof/Machine/Fetch.lean ====
section
/-! DEFINITION. Fetching an instruction: its bytes lie at the code segment's base plus pc, in ascending order, each
translated by itself (20_memory.md R31, R35, R39; 60_exceptions.md R101 step 1), and decoding them. -/

namespace Sys2Proof.Machine

/-- Whether the byte at an offset lies in the code segment: within the limit in the protected and compatibility modes; in
the other modes pc itself is the only bound (log 12). -/
def codeLimitOk (s : State) (off : Nat) : Bool :=
  match s.mode with
  | .compat32 => decide (off ≤ s.segs.cs.limit.toNat)
  | .prot32 => decide (off ≤ s.segs.cs.limit.toNat)
  | .prot16 => decide (off ≤ s.segs.cs.limit.toNat)
  | .mode64 => true
  | .real16 => true
  | .v86 => true

/-- The physical address of byte `k` of the instruction at pc. A pc that is no legal offset raises #GP(0); a later byte
that does not fit pc means that the address after the instruction does not either, which 10_state.md R21 refuses. -/
def fetchAddress (s : State) (k : Nat) : Res Addr :=
  if pcFits s.mode (s.pc.toNat + k) = true then
    if codeLimitOk s (s.pc.toNat + k) = true then
      translateAddr s .fetch (linearByte s (linearAddress s .cs s.pc) k)
    else raise s .gp
  else if k = 0 then raise s .gp
  else refuse .pcWrap

/-- Byte `k` of the instruction at pc. -/
def fetchByte (s : State) (k : Nat) : Res Byte := do
  let pa ← fetchAddress s k
  readOrdinary s pa

/-- Up to `n` instruction bytes from byte `k` on, and what stops the fetch of the next one. -/
def fetchBytes (s : State) : (n k : Nat) → List Byte × Stop
  | 0, _ => ([], .refused .tooLong)
  | n + 1, k =>
    match fetchByte s k with
    | .ok b => (b :: (fetchBytes s n (k + 1)).1, (fetchBytes s n (k + 1)).2)
    | .error e => ([], e)

/-- The outcome of bytes that are no instruction; where more bytes are needed it is what stopped the fetch (log 13). -/
def decodeStop (fetchStop : Stop) : DecodeError → Stop
  | .truncated => fetchStop
  | .notThisFamily => .refused .notThisFamily
  | .prefixNotInScope => .refused .prefixNotInScope
  | .redundantPrefix => .refused .redundantPrefix
  | .vexHighRegOutside64 => .refused .vexHighRegOutside64

/-- The instruction at pc. -/
def fetchInstr (s : State) : Res Instr :=
  match decode s.mode (fetchBytes s 15 0).1 with
  | .ok i => .ok i
  | .error e => .error (decodeStop (fetchBytes s 15 0).2 e)

/-- The bytes stored where `fetchInstr` reads them, byte `k` at the address of byte `k` of the instruction at pc; a byte
that has no such address is not stored (log 21). -/
def storeCode (s : State) : (k : Nat) → List Byte → State → State
  | _, [], t => t
  | k, b :: bs, t =>
    match fetchAddress s k with
    | .ok pa => storeCode s (k + 1) bs (t.writeByte pa b)
    | .error _ => storeCode s (k + 1) bs t

end Sys2Proof.Machine
end

