-- ==== Sys2Proof/Machine/Step.lean ====
section
/-! DEFINITION. One step: the instruction at pc is fetched, decoded and executed (40_packed_subtract_common.md R72, R73
step 1; 00_scope.md R11). -/

namespace Sys2Proof.Machine

/-- One step of the machine. -/
def step (s : State) : Host.Outcome State Fault Refusal :=
  match fetchInstr s with
  | .ok i => exec i s
  | .error (.fault f) => .fault f
  | .error (.refused r) => .refused r

/-- The state with a table word stored where `step` fetches its next instruction (log 20, 21). -/
def State.withFetchWord (s : State) (nbits w : Nat) : State :=
  storeCode s 0 (tableBytes nbits w) s

end Sys2Proof.Machine
end

