-- ==== Sys2Proof/Machine/Run.lean ====
section
/-! DEFINITION. A run over a program text, the bytes at offsets `base` to `base + size - 1` of the code segment
(70_reset_and_hazards.md R117; log 28). -/

namespace Sys2Proof.Machine

/-- How a run over a program text stands. -/
inductive RunResult where
  | final (s : State)
  | fault (f : Fault)
  | refused (r : Refusal)
  | unfinished
deriving DecidableEq, Repr

/-- The instruction at pc made of the next `n` bytes alone, the bytes of a text from pc to its end: an instruction that
begins in the text and would end beyond it is refused. -/
def textInstr (n : Nat) (s : State) : Res Instr :=
  match decode s.mode (fetchBytes s (min 15 n) 0).1 with
  | .ok i => .ok i
  | .error e =>
    if e = .truncated ∧ n < 15 ∧ (fetchBytes s (min 15 n) 0).1.length = n then refuse .outsideText
    else .error (decodeStop (fetchBytes s (min 15 n) 0).2 e)

/-- Whether an instruction of the text begins at offset `target`, walking the text from offset `p`, where one begins, to
its end `stop`, over at most `fuel` instructions. -/
def beginsInstruction (s : State) (stop target : Nat) : (fuel p : Nat) → Bool
  | 0, _ => false
  | fuel + 1, p =>
    if p = target then decide (p < stop)
    else
      match textInstr (stop - p) (s.setPc (BitVec.ofNat 64 p)) with
      | .ok i => beginsInstruction s stop target fuel (p + i.len)
      | .error _ => false

/-- The instruction of the text that a run goes on with: refused when pc is outside the text or in the middle of an
instruction of it. -/
def runInstr (base size : Nat) (s : State) : Res Instr :=
  if beginsInstruction s (base + size) s.pc.toNat size base = true then textInstr (base + size - s.pc.toNat) s
  else refuse .outsideText

/-- A run over a program text, of at most `fuel` steps: final when pc is the end of the text after a completed step. -/
def runText (base size : Nat) : (fuel : Nat) → State → RunResult
  | fuel, s =>
    match runInstr base size s with
    | .error (.fault f) => .fault f
    | .error (.refused r) => .refused r
    | .ok _ =>
      match fuel with
      | 0 => .unfinished
      | fuel + 1 =>
        match step s with
        | .next t => if t.pc.toNat = base + size then .final t else runText base size fuel t
        | .fault f => .fault f
        | .refused r => .refused r

end Sys2Proof.Machine
end

