-- ==== Sys2Proof/Safety.lean ====
section
/-! DEFINITION. The terms in which claims are stated: when a form is enabled (60_exceptions.md R102), its memory operand in
integers (30_encoding.md R51 to R54), when that operand can be read and what it holds (60_exceptions.md R97 to R100,
20_memory.md R30, R31, R37), fetching, the invariant of a state, and instructions executed in order
(70_reset_and_hazards.md R117). -/

namespace Sys2Proof.Machine

/-! ## When an instruction completes -/

/-- The #UD conditions of 60_exceptions.md R94 as its table lists them for the four groups of forms. -/
def Undefined (c : FormClass) (p : List LegacyPrefix) (s : State) : Prop :=
  match c with
  | .mmx => s.cfg.features.hasMmx = false ∨ hasKind .lock p = true ∨ s.cr0Em = true
  | .sse2 => s.cfg.features.hasSse2 = false ∨ hasKind .lock p = true ∨ s.cr0Em = true ∨ s.cr4Osfxsr = false
  | .vex128 =>
    s.cfg.features.hasAvx = false ∨ hasKind .lock p = true ∨ s.mode = .real16 ∨ s.mode = .v86 ∨ s.cr4Osxsave = false ∨
      s.xcr0SseAvx = false ∨ hasKind .rex p = true ∨ hasKind .repne p = true ∨ hasKind .rep p = true ∨ hasKind .opSize p = true
  | .vex256 =>
    s.cfg.features.hasAvx2 = false ∨ hasKind .lock p = true ∨ s.mode = .real16 ∨ s.mode = .v86 ∨ s.cr4Osxsave = false ∨
      s.xcr0SseAvx = false ∨ hasKind .rex p = true ∨ hasKind .repne p = true ∨ hasKind .rep p = true ∨ hasKind .opSize p = true

/-- Enabled(form), as 60_exceptions.md R102 lists it. -/
def Enabled (c : FormClass) (p : List LegacyPrefix) (s : State) : Prop :=
  match c with
  | .mmx =>
    s.cfg.features.hasMmx = true ∧ hasKind .lock p = false ∧ s.cr0Em = false ∧ s.cr0Ts = false ∧ s.x87Es = false
  | .sse2 =>
    s.cfg.features.hasSse2 = true ∧ hasKind .lock p = false ∧ s.cr0Em = false ∧ s.cr4Osfxsr = true ∧ s.cr0Ts = false
  | .vex128 =>
    s.cfg.features.hasAvx = true ∧ hasKind .lock p = false ∧ vexForbidden p = false ∧ s.mode ≠ .real16 ∧ s.mode ≠ .v86 ∧
      s.cr4Osxsave = true ∧ s.xcr0SseAvx = true ∧ s.cr0Ts = false
  | .vex256 =>
    s.cfg.features.hasAvx2 = true ∧ hasKind .lock p = false ∧ vexForbidden p = false ∧ s.mode ≠ .real16 ∧ s.mode ≠ .v86 ∧
      s.cr4Osxsave = true ∧ s.xcr0SseAvx = true ∧ s.cr0Ts = false

/-- The X and B bits that extend the index and base registers of an instruction's memory operand. -/
def indexBaseBits : Instr → Bool × Bool
  | .psubbMm o => ((effectiveRex o.prefixes).x, (effectiveRex o.prefixes).b)
  | .psubbXmm o => ((effectiveRex o.prefixes).x, (effectiveRex o.prefixes).b)
  | .psubwMm o => ((effectiveRex o.prefixes).x, (effectiveRex o.prefixes).b)
  | .psubwXmm o => ((effectiveRex o.prefixes).x, (effectiveRex o.prefixes).b)
  | .psubdMm o => ((effectiveRex o.prefixes).x, (effectiveRex o.prefixes).b)
  | .psubdXmm o => ((effectiveRex o.prefixes).x, (effectiveRex o.prefixes).b)
  | .vpsubbXmm o => (o.vex.x, o.vex.b)
  | .vpsubwXmm o => (o.vex.x, o.vex.b)
  | .vpsubdXmm o => (o.vex.x, o.vex.b)
  | .vpsubbYmm o => (o.vex.x, o.vex.b)
  | .vpsubwYmm o => (o.vex.x, o.vex.b)
  | .vpsubdYmm o => (o.vex.x, o.vex.b)

/-- Segment and offset of the memory operand of an instruction, `none` in the register-direct form. -/
def memoryOperand (i : Instr) (s : State) : Option (Seg × Addr) :=
  match i.rm with
  | .reg _ => none
  | .mem m => some (operandAddress s i.prefixes (indexBaseBits i).1 (indexBaseBits i).2 i.len m)

/-! ## Memory operands -/

/-- The address size in bits: 64 in 64-bit mode and 32 there under a 67 prefix; 32 in 32-bit code and 16 there under 67; 16 in
16-bit code and 32 there under 67 (30_encoding.md R51, R54, R56). -/
def addressBits (m : Mode) (p : List LegacyPrefix) : Nat :=
  match m with
  | .mode64 => if hasKind .addrSize p = true then 32 else 64
  | .compat32 => if hasKind .addrSize p = true then 16 else 32
  | .prot32 => if hasKind .addrSize p = true then 16 else 32
  | .prot16 => if hasKind .addrSize p = true then 32 else 16
  | .real16 => if hasKind .addrSize p = true then 32 else 16
  | .v86 => if hasKind .addrSize p = true then 32 else 16

/-- The signed value of a displacement (30_encoding.md R53). -/
def dispInt : Disp → Int
  | .absent => 0
  | .disp8 v => v.toInt
  | .disp16 v => v.toInt
  | .disp32 v => v.toInt

/-- A general register as a number. -/
def gprInt (s : State) (i : BitVec 4) : Int := (s.readGpr i).toNat

/-- Default segment and sum of the registers under 16-bit addressing, in integers (the table of 30_encoding.md R54); BX, BP,
SI, DI are registers 3, 5, 6, 7. -/
def shortAddressInt (s : State) (m : MemOperand) : Seg × Int :=
  if m.rm = 0 then (.ds, gprInt s 3 + gprInt s 6)
  else if m.rm = 1 then (.ds, gprInt s 3 + gprInt s 7)
  else if m.rm = 2 then (.ss, gprInt s 5 + gprInt s 6)
  else if m.rm = 3 then (.ss, gprInt s 5 + gprInt s 7)
  else if m.rm = 4 then (.ds, gprInt s 6)
  else if m.rm = 5 then (.ds, gprInt s 7)
  else if m.rm = 6 then if m.mod = .m00 then (.ds, 0) else (.ss, gprInt s 5)
  else (.ds, gprInt s 3)

/-- The default segment of a base register (30_encoding.md R51), base and scaled index of a SIB operand, in integers
(R52). -/
def sibAddressInt (s : State) (x b : Bool) (mod : MemMod) (sib : Sib) : Seg × Int :=
  let index := if regNumber x sib.idx = 4 then 0 else gprInt s (regNumber x sib.idx) * 2 ^ sib.ss.toNat
  if sib.base = 5 ∧ mod = .m00 then (.ds, index)
  else
    (if regNumber b sib.base = 4 ∨ regNumber b sib.base = 5 then .ss else .ds, gprInt s (regNumber b sib.base) + index)

/-- Default segment and sum of the registers under 32- and 64-bit addressing, in integers (the case table of
30_encoding.md R51); `pcNext` is the address after the instruction, which counts in 64-bit mode only. -/
def wideAddressInt (s : State) (x b : Bool) (pcNext : Int) (m : MemOperand) : Seg × Int :=
  match m.sib with
  | some sib => sibAddressInt s x b m.mod sib
  | none =>
    if m.rm = 5 ∧ m.mod = .m00 then (.ds, if s.mode = .mode64 then pcNext else 0)
    else (if regNumber b m.rm = 4 ∨ regNumber b m.rm = 5 then .ss else .ds, gprInt s (regNumber b m.rm))

/-- The `n` bytes at an offset are legal in a segment (20_memory.md R30 step 1; 60_exceptions.md R98, R99): in 64-bit mode
bits 63:47 of the linear address are all equal; in real-address and virtual-8086 mode every byte lies in 0 to FFFFH; in the
protected and compatibility modes the selector is not null, the segment is readable and every byte lies within the limit. -/
def SegmentLegal (s : State) (g : Seg) (off : Addr) (n : Nat) : Prop :=
  match s.mode with
  | .mode64 => ∀ j, 47 ≤ j → j < 64 → (linearAddress s g off).getLsbD j = (linearAddress s g off).getLsbD 63
  | .real16 => ∀ k < n, off.toNat + k ≤ 0xFFFF
  | .v86 => ∀ k < n, off.toNat + k ≤ 0xFFFF
  | .compat32 => nullSelector (s.segment g) = false ∧ (s.segment g).readable = true ∧ ∀ k < n, off.toNat + k ≤ (s.segment g).limit.toNat
  | .prot32 => nullSelector (s.segment g) = false ∧ (s.segment g).readable = true ∧ ∀ k < n, off.toNat + k ≤ (s.segment g).limit.toNat
  | .prot16 => nullSelector (s.segment g) = false ∧ (s.segment g).readable = true ∧ ∀ k < n, off.toNat + k ≤ (s.segment g).limit.toNat

/-- The linear address satisfies the alignment rule of the form class (20_memory.md R32 to R34). -/
def Aligned (c : FormClass) (s : State) (lin : Addr) : Prop :=
  match c with
  | .mmx => s.alignmentCheck = true → lin.toNat % 8 = 0
  | .sse2 => lin.toNat % 16 = 0
  | .vex128 => True
  | .vex256 => True

/-- Translate answers a physical address for byte `k` of an access at a linear address (20_memory.md R39). -/
def ByteMapped (s : State) (lin : Addr) (k : Nat) : Prop :=
  ∃ pa, translateAddr s .dataRead (linearByte s lin k) = .ok pa

/-- Each of the `n` bytes at a linear address is mapped for reading. -/
def Mapped (s : State) (lin : Addr) (n : Nat) : Prop :=
  ∀ k < n, ByteMapped s lin k

/-- Each of the `n` bytes at a linear address lies in ordinary memory where it is mapped (20_memory.md R37). -/
def Ordinary (s : State) (lin : Addr) (n : Nat) : Prop :=
  ∀ k < n, ∀ pa, translateAddr s .dataRead (linearByte s lin k) = .ok pa → s.isOrdinary pa = true

/-- `b` is the value of the memory operand at an offset in a segment (20_memory.md R30, R31): the access is legal and aligned,
and bits 8k + 7 to 8k of `b` are the byte of ordinary memory at the address that byte `k` translates to. -/
def MemoryValue (s : State) (c : FormClass) (a : Seg × Addr) {W : Nat} (b : BitVec W) : Prop :=
  SegmentLegal s a.1 a.2 c.operandBytes ∧ Aligned c s (linearAddress s a.1 a.2) ∧
    ∀ k < c.operandBytes, ∃ pa, translateAddr s .dataRead (linearByte s (linearAddress s a.1 a.2) k) = .ok pa ∧
      s.isOrdinary pa = true ∧ b.extractLsb' (8 * k) 8 = s.readByte pa

/-- `b` is the r/m operand of an MMX form: MM[rm], or m64 (30_encoding.md R46, R50, R55). -/
def MmSource (o : LegacyOps) (s : State) (b : BitVec 64) : Prop :=
  match o.rm with
  | .reg r => b = s.readMm r
  | .mem m => MemoryValue s .mmx (operandAddress s o.prefixes (effectiveRex o.prefixes).x (effectiveRex o.prefixes).b o.len m) b

/-- `b` is the r/m operand of a 128-bit Legacy SSE form: XMM[REX.B ++ rm], or m128 (30_encoding.md R46, R50). -/
def XmmSource (o : LegacyOps) (s : State) (b : BitVec 128) : Prop :=
  match o.rm with
  | .reg r => b = s.readXmm (regNumber (effectiveRex o.prefixes).b r)
  | .mem m => MemoryValue s .sse2 (operandAddress s o.prefixes (effectiveRex o.prefixes).x (effectiveRex o.prefixes).b o.len m) b

/-- `b` is the r/m operand of a VEX.128 form: XMM[VEX.B ++ rm], or m128 (30_encoding.md R47, R50). -/
def VexXmmSource (o : VexOps) (s : State) (b : BitVec 128) : Prop :=
  match o.rm with
  | .reg r => b = s.readXmm (regNumber o.vex.b r)
  | .mem m => MemoryValue s .vex128 (operandAddress s o.prefixes o.vex.x o.vex.b o.len m) b

/-- `b` is the r/m operand of a VEX.256 form: YMM[VEX.B ++ rm], or m256 (30_encoding.md R47, R50). -/
def VexYmmSource (o : VexOps) (s : State) (b : BitVec 256) : Prop :=
  match o.rm with
  | .reg r => b = s.readYmm (regNumber o.vex.b r)
  | .mem m => MemoryValue s .vex256 (operandAddress s o.prefixes o.vex.x o.vex.b o.len m) b

/-! ## Fetching -/

/-- An offset, taken without reduction, is a legal value of pc (10_state.md R21; 20_memory.md R30): it fits RIP and its bits
63:47 are all equal, or it fits EIP or IP. -/
def PcInRange (m : Mode) (off : Nat) : Prop :=
  match m with
  | .mode64 => off < 2 ^ 64 ∧ ∀ j, 47 ≤ j → j < 64 → off.testBit j = off.testBit 63
  | .compat32 => off < 2 ^ 32
  | .prot32 => off < 2 ^ 32
  | .prot16 => off < 2 ^ 16
  | .real16 => off < 2 ^ 16
  | .v86 => off < 2 ^ 16

/-- In the protected and compatibility modes an offset of an instruction byte lies within the limit of CS (log 12). -/
def InCodeLimit (s : State) (off : Nat) : Prop :=
  s.mode = .compat32 ∨ s.mode = .prot32 ∨ s.mode = .prot16 → off ≤ s.segs.cs.limit.toNat

/-- The linear address of an offset in the code segment, in integers: no base and modulo 2^64 in 64-bit mode, the base of CS
and modulo 2^32 outside it (20_memory.md R30; 10_state.md R22). -/
def codeLinear (s : State) (off : Nat) : Nat :=
  if s.mode = .mode64 then off % 2 ^ 64 else (s.segs.cs.base.toNat + off) % 2 ^ 32

/-! ## Readiness -/

/-- No condition of 60_exceptions.md R97 to R100 and no refusal of 20_memory.md R37 holds for the memory operand, if the
instruction has one. -/
def OperandReady (i : Instr) (s : State) : Prop :=
  ∀ g off, memoryOperand i s = some (g, off) →
    SegmentLegal s g off i.formClass.operandBytes ∧ Aligned i.formClass s (linearAddress s g off) ∧
      Mapped s (linearAddress s g off) i.formClass.operandBytes ∧ Ordinary s (linearAddress s g off) i.formClass.operandBytes

/-- The address after the instruction fits pc (10_state.md R21). -/
def PcReady (i : Instr) (s : State) : Prop :=
  pcFits s.mode (s.pc.toNat + i.len) = true

/-- A VEX prefix with the ignored bit W inverted (30_encoding.md R57, R60). -/
def flipW : Vex → Vex
  | .two r v => .two r v
  | .three r x b w v => .three r x b (!w) v

/-- The same form with the same operands and only the ignored bit VEX.W inverted. -/
def flipVexW : Instr → Instr
  | .psubbMm o => .psubbMm o
  | .psubbXmm o => .psubbXmm o
  | .psubwMm o => .psubwMm o
  | .psubwXmm o => .psubwXmm o
  | .psubdMm o => .psubdMm o
  | .psubdXmm o => .psubdXmm o
  | .vpsubbXmm o => .vpsubbXmm { o with vex := flipW o.vex }
  | .vpsubwXmm o => .vpsubwXmm { o with vex := flipW o.vex }
  | .vpsubdXmm o => .vpsubdXmm { o with vex := flipW o.vex }
  | .vpsubbYmm o => .vpsubbYmm { o with vex := flipW o.vex }
  | .vpsubwYmm o => .vpsubwYmm { o with vex := flipW o.vex }
  | .vpsubdYmm o => .vpsubdYmm { o with vex := flipW o.vex }

/-- The same outcome with the next state, if there is one, changed by `f`. -/
def mapNext (f : State → State) : Host.Outcome State Fault Refusal → Host.Outcome State Fault Refusal
  | .next t => .next (f t)
  | .fault e => .fault e
  | .refused r => .refused r

/-- Everything that no form writes is as before: general registers, EFLAGS, MXCSR, control registers, privilege level,
segments, the configuration, and every byte of memory (10_state.md R27). -/
def KeepsSystemState (s t : State) : Prop :=
  t.gpr = s.gpr ∧ t.eflags = s.eflags ∧ t.mxcsr = s.mxcsr ∧ t.cr0 = s.cr0 ∧ t.cr2 = s.cr2 ∧ t.cr4 = s.cr4 ∧ t.xcr0 = s.xcr0 ∧
    t.cpl = s.cpl ∧ t.segs = s.segs ∧ t.cfg = s.cfg ∧ ∀ pa, t.readByte pa = s.readByte pa

/-! ## The invariant -/

/-- Memory is in canonical form and pc is a legal value of the mode's instruction pointer. -/
def State.Inv (s : State) : Prop :=
  Memory.wf s.mem = true ∧ pcFits s.mode s.pc.toNat = true

/-! ## A run over a program text (70_reset_and_hazards.md R117) -/

/-- Executing instructions one after another, each once, and `last` where all of them complete. -/
def runInOrder (last : State → RunResult) : List Instr → State → RunResult
  | [], s => last s
  | i :: is, s =>
    match exec i s with
    | .next t => runInOrder last is t
    | .fault f => .fault f
    | .refused r => .refused r

/-- The bytes of a text stand at offset `base` of the code segment: each can be fetched there. -/
def TextAt (s : State) (base : Addr) (text : List Byte) : Prop :=
  ∀ (k : Nat) (b : Byte), text[k]? = some b → fetchByte (s.setPc base) k = .ok b

end Sys2Proof.Machine
end

