-- ==== Sys2Proof/Certificates/Slice0/Obligations.lean ====
section
/-! DEFINITION. What the model claims, one definition each; OBLIGATIONS.json lists them. -/

open Sys2Proof Sys2Proof.Machine

/-! ## Encoding -/

/-- Decoding the encoding of a well-formed instruction, whatever bytes follow, gives it back: every form, every operand,
every prefix order, in every mode (30_encoding.md R42 to R63, R66). -/
def Obligations.DecodeOfEncodeIsIdentity : Prop :=
  ∀ (m : Mode) (i : Instr) (rest : List Byte), i.wellFormed m = true → decode m (encode i ++ rest) = .ok i

/-- Whatever decodes is well formed and its encoding is the bytes it was decoded from, so each byte sequence has one
reading and no bit of it is dropped (30_encoding.md R42 to R66). -/
def Obligations.DecodedInstructionIsWellFormedAndReencodes : Prop :=
  ∀ (m : Mode) (bs : List Byte) (i : Instr), decode m bs = .ok i → i.wellFormed m = true ∧ encode i <+: bs

/-- An instruction has 3 to 15 bytes, and at most 12 unless it carries a prefix that makes it #UD (30_encoding.md R63). -/
def Obligations.InstructionLengthBounds : Prop :=
  ∀ (m : Mode) (i : Instr), i.wellFormed m = true →
    3 ≤ i.len ∧ i.len ≤ 15 ∧ (encode i).length = i.len ∧
      (hasKind .lock i.prefixes = false →
        (i.formClass = .vex128 ∨ i.formClass = .vex256 → vexForbidden i.prefixes = false) → i.len ≤ 12)

/-- The legacy shape with an F2 or F3 prefix is refused as PrefixNotInScope, whatever the other prefixes (30_encoding.md
R65). Where a prefix is repeated as well R65 also gives RedundantPrefix; that PrefixNotInScope is the one named there is the
model's choice (DESIGN CHOICE, log 13). -/
def Obligations.LegacyShapeWithRepeatPrefixIsRefused : Prop :=
  ∀ (m : Mode) (p : List LegacyPrefix) (op : Byte) (rest : List Byte),
    rexOnlyInMode64 m p = true → p.length ≤ 13 → (op = 0xF8 ∨ op = 0xF9 ∨ op = 0xFA) →
      (LegacyPrefix.repne ∈ p ∨ LegacyPrefix.rep ∈ p) →
        decode m (p.map LegacyPrefix.byte ++ 0x0F :: op :: rest) = .error .prefixNotInScope

/-- Outside 64-bit mode C4 and C5 are LES and LDS unless bits 7:6 of the next byte are 11, and a three-byte VEX of the
family whose stored P1[5] or P2[6] is 0 is refused by its own name (30_encoding.md R61, R65). In real-address and virtual-8086
mode R61 and R65 also make such a shape #UD; that the refusal of decoding comes before every exception is the model's choice
(DESIGN CHOICE, log 13). -/
def Obligations.VexOutside64BitMode : Prop :=
  ∀ (m : Mode), m ≠ .mode64 →
    (∀ (b : Byte) (rest : List Byte), b.extractLsb' 6 2 ≠ 3 →
      decode m (0xC4 :: b :: rest) = .error .notThisFamily ∧ decode m (0xC5 :: b :: rest) = .error .notThisFamily) ∧
    (∀ (p1 p2 op : Byte) (rest : List Byte), p1.extractLsb' 6 2 = 3 → p1.extractLsb' 0 5 = 1 → p2.extractLsb' 0 2 = 1 →
      (op = 0xF8 ∨ op = 0xF9 ∨ op = 0xFA) → (p1.getLsbD 5 = false ∨ p2.getLsbD 6 = false) →
        decode m (0xC4 :: p1 :: p2 :: op :: rest) = .error .vexHighRegOutside64)

/-- VEX.W is ignored, behind any prefixes: where a three-byte VEX instruction decodes, the bytes with P2 bit 7 inverted decode
to the same form with the same fields but W, and its outcome is the same in every state (30_encoding.md R60). -/
def Obligations.VexWidthBitIsIgnored : Prop :=
  ∀ (m : Mode) (p : List LegacyPrefix) (p1 p2 : Byte) (rest : List Byte) (i : Instr), rexOnlyInMode64 m p = true →
    decode m (p.map LegacyPrefix.byte ++ 0xC4 :: p1 :: p2 :: rest) = .ok i →
      decode m (p.map LegacyPrefix.byte ++ 0xC4 :: p1 :: (p2 ^^^ 0x80) :: rest) = .ok (flipVexW i) ∧
        ∀ s, exec (flipVexW i) s = exec i s

/-- Words written out from the encoding rules decode to the instructions they stand for (95_test_vectors.md E1, E3, E6,
E12, E13, E15, E17). -/
def Obligations.SampleWordsDecode : Prop :=
  decode .mode64 [0x0F, 0xF8, 0xC1] = .ok (.psubbMm ⟨[], 0, .reg 1⟩) ∧
  decode .mode64 [0x66, 0x0F, 0xFA, 0x44, 0x88, 0x10] =
    .ok (.psubdXmm ⟨[.opSize], 0, .mem ⟨.m01, 4, some ⟨2, 1, 0⟩, .disp8 0x10⟩⟩) ∧
  decode .mode64 [0x66, 0x45, 0x0F, 0xFA, 0xFF] =
    .ok (.psubdXmm ⟨[.opSize, .rex ⟨false, true, false, true⟩], 7, .reg 7⟩) ∧
  decode .mode64 [0xC4, 0xC1, 0x71, 0xF8, 0xC0] =
    .ok (.vpsubbXmm ⟨[], .three false false true false 1, 0, .reg 0⟩) ∧
  decode .mode64 [0xC4, 0xC1, 0x39, 0xF9, 0x00] =
    .ok (.vpsubwXmm ⟨[], .three false false true false 8, 0, .mem ⟨.m00, 0, none, .absent⟩⟩) ∧
  decode .mode64 [0xC5, 0xFD, 0xFA, 0x05, 0x00, 0x01, 0x00, 0x00] =
    .ok (.vpsubdYmm ⟨[], .two false 0, 0, .mem ⟨.m00, 5, none, .disp32 0x100⟩⟩) ∧
  decode .mode64 [0x65, 0xC5, 0xF1, 0xF8, 0x00] =
    .ok (.vpsubbXmm ⟨[.segment .gs], .two false 1, 0, .mem ⟨.m00, 0, none, .absent⟩⟩)

/-- The bits of a REX prefix change nothing in a register-direct MMX form (30_encoding.md R55, 92 D24). -/
def Obligations.MmxRegistersIgnoreRexBits : Prop :=
  ∀ (p : List LegacyPrefix) (r r' : Rex) (reg rm : BitVec 3) (s : State),
    exec (.psubbMm ⟨p ++ [.rex r], reg, .reg rm⟩) s = exec (.psubbMm ⟨p ++ [.rex r'], reg, .reg rm⟩) s ∧
    exec (.psubwMm ⟨p ++ [.rex r], reg, .reg rm⟩) s = exec (.psubwMm ⟨p ++ [.rex r'], reg, .reg rm⟩) s ∧
    exec (.psubdMm ⟨p ++ [.rex r], reg, .reg rm⟩) s = exec (.psubdMm ⟨p ++ [.rex r'], reg, .reg rm⟩) s

/-- A well-formed instruction names only XMM and YMM registers below NREG (10_state.md R15). -/
def Obligations.NamedVectorRegistersAreBelowNreg : Prop :=
  (∀ (m : Mode) (o : LegacyOps), o.wellFormed m true = true →
    o.xmmReg.toNat < m.nreg ∧ ∀ r, o.rm = .reg r → (regNumber (effectiveRex o.prefixes).b r).toNat < m.nreg) ∧
  (∀ (m : Mode) (o : VexOps), o.wellFormed m = true →
    o.dst.toNat < m.nreg ∧ o.vex.vvvv.toNat < m.nreg ∧ ∀ r, o.rm = .reg r → (regNumber o.vex.b r).toNat < m.nreg)

/-! ## The lane function -/

/-- SubLanes(w, n, a, b): each lane of the result is the difference of that lane of the operands modulo 2^w
(40_packed_subtract_common.md R67). -/
def Obligations.SubLanesSubtractsEachLane : Prop :=
  ∀ (w n : Nat) (a b : BitVec (w * n)) (k : Nat), k < n →
    lane w (subLanes w n a b) k = lane w a k - lane w b k ∧
    (lane w (subLanes w n a b) k).toNat = ((lane w a k).toNat + 2 ^ w - (lane w b k).toNat) % 2 ^ w

/-- Wrap-around on unsigned lanes: x - y when x >= y, and x - y + 2^w when x < y; that is (x + (2^w - y)) mod 2^w, and
x + NOT y + 1 (40_packed_subtract_common.md R69). -/
def Obligations.SubLanesWrapsUnsigned : Prop :=
  ∀ (w n : Nat) (a b : BitVec (w * n)) (k : Nat), k < n →
    ((lane w (subLanes w n a b) k).toNat : Int) =
      (if (lane w b k).toNat ≤ (lane w a k).toNat then ((lane w a k).toNat : Int) - (lane w b k).toNat
      else ((lane w a k).toNat : Int) - (lane w b k).toNat + 2 ^ w) ∧
    (lane w (subLanes w n a b) k).toNat = ((lane w a k).toNat + (2 ^ w - (lane w b k).toNat)) % 2 ^ w ∧
    lane w (subLanes w n a b) k = lane w a k + ~~~ lane w b k + 1

/-- The signed reading of the same bits: the exact difference when in range, less or plus 2^w when out of it
(40_packed_subtract_common.md R70). -/
def Obligations.SubLanesWrapsSigned : Prop :=
  ∀ (w n : Nat) (a b : BitVec (w * n)) (k : Nat), 0 < w → k < n →
    (lane w (subLanes w n a b) k).toInt =
      if (2 : Int) ^ (w - 1) ≤ (lane w a k).toInt - (lane w b k).toInt then
        (lane w a k).toInt - (lane w b k).toInt - 2 ^ w
      else if (lane w a k).toInt - (lane w b k).toInt < -(2 : Int) ^ (w - 1) then
        (lane w a k).toInt - (lane w b k).toInt + 2 ^ w
      else (lane w a k).toInt - (lane w b k).toInt

/-- The laws of 40_packed_subtract_common.md R71, among them that a double-width operand is two independent halves. -/
def Obligations.SubLanesAlgebra : Prop :=
  ∀ (w n : Nat) (a b c : BitVec (w * n)),
    subLanes w n a 0 = a ∧
    subLanes w n a a = 0 ∧
    (∀ k < n, lane w (subLanes w n 0 b) k = -lane w b k) ∧
    subLanes w n (subLanes w n a b) c = subLanes w n (subLanes w n a c) b ∧
    subLanes w n a (subLanes w n a b) = b ∧
    ∀ (ahi alo bhi blo : BitVec (w * n)),
      subLanes w (2 * n) (ahi ++ alo) (bhi ++ blo) = subLanes w n ahi bhi ++ subLanes w n alo blo

/-! ## Results -/

/-- PSUBB, PSUBW, PSUBD on MMX registers: an enabled instruction whose source is b and whose next address fits
completes; each of the 8, 4 or 2 lanes of MM[reg] is that lane of MM[reg] less that lane of b, and pc moves past the
instruction; b is MM[rm] or the value of the memory operand (41_psubb.md, 42_psubw.md, 43_psubd.md, the pseudocode of the 64-bit operands). -/
def Obligations.MmxFormsSubtractLanes : Prop :=
  ∀ (o : LegacyOps) (s : State) (b : BitVec 64), Enabled .mmx o.prefixes s → MmSource o s b →
    pcFits s.mode (s.pc.toNat + o.len) = true →
      (∃ t, exec (.psubbMm o) s = .next t ∧ t.pc = s.pc + BitVec.ofNat 64 o.len ∧
        ∀ k < 8, lane 8 (t.readMm o.reg) k = lane 8 (s.readMm o.reg) k - lane 8 b k) ∧
      (∃ t, exec (.psubwMm o) s = .next t ∧ t.pc = s.pc + BitVec.ofNat 64 o.len ∧
        ∀ k < 4, lane 16 (t.readMm o.reg) k = lane 16 (s.readMm o.reg) k - lane 16 b k) ∧
      (∃ t, exec (.psubdMm o) s = .next t ∧ t.pc = s.pc + BitVec.ofNat 64 o.len ∧
        ∀ k < 2, lane 32 (t.readMm o.reg) k = lane 32 (s.readMm o.reg) k - lane 32 b k)

/-- PSUBB, PSUBW, PSUBD on XMM registers: the 16, 8 or 4 lanes of XMM[reg] likewise, and bits 255:128 of the YMM register
keep their value; b is XMM[REX.B ++ rm] or the value of the memory operand (the pseudocode of the 128-bit operands;
30_encoding.md R46, R50). -/
def Obligations.XmmFormsSubtractLanes : Prop :=
  ∀ (o : LegacyOps) (s : State) (b : BitVec 128), Enabled .sse2 o.prefixes s → XmmSource o s b →
    pcFits s.mode (s.pc.toNat + o.len) = true →
      (∃ t, exec (.psubbXmm o) s = .next t ∧ t.pc = s.pc + BitVec.ofNat 64 o.len ∧
        (t.readYmm o.xmmReg).extractLsb' 128 128 = (s.readYmm o.xmmReg).extractLsb' 128 128 ∧
        ∀ k < 16, lane 8 (t.readXmm o.xmmReg) k = lane 8 (s.readXmm o.xmmReg) k - lane 8 b k) ∧
      (∃ t, exec (.psubwXmm o) s = .next t ∧ t.pc = s.pc + BitVec.ofNat 64 o.len ∧
        (t.readYmm o.xmmReg).extractLsb' 128 128 = (s.readYmm o.xmmReg).extractLsb' 128 128 ∧
        ∀ k < 8, lane 16 (t.readXmm o.xmmReg) k = lane 16 (s.readXmm o.xmmReg) k - lane 16 b k) ∧
      (∃ t, exec (.psubdXmm o) s = .next t ∧ t.pc = s.pc + BitVec.ofNat 64 o.len ∧
        (t.readYmm o.xmmReg).extractLsb' 128 128 = (s.readYmm o.xmmReg).extractLsb' 128 128 ∧
        ∀ k < 4, lane 32 (t.readXmm o.xmmReg) k = lane 32 (s.readXmm o.xmmReg) k - lane 32 b k)

/-- VPSUBB, VPSUBW, VPSUBD of vector length 128: lanes of XMM[vvvv] less those of b, written to the destination, whose bits
255:128 become 0; b is XMM[VEX.B ++ rm] or the value of the memory operand (the VEX.128 pseudocode; 30_encoding.md R47,
R50). -/
def Obligations.VexXmmFormsSubtractLanes : Prop :=
  ∀ (o : VexOps) (s : State) (b : BitVec 128), Enabled .vex128 o.prefixes s → VexXmmSource o s b →
    pcFits s.mode (s.pc.toNat + o.len) = true →
      (∃ t, exec (.vpsubbXmm o) s = .next t ∧ t.pc = s.pc + BitVec.ofNat 64 o.len ∧
        (t.readYmm o.dst).extractLsb' 128 128 = 0 ∧
        ∀ k < 16, lane 8 (t.readXmm o.dst) k = lane 8 (s.readXmm o.vex.vvvv) k - lane 8 b k) ∧
      (∃ t, exec (.vpsubwXmm o) s = .next t ∧ t.pc = s.pc + BitVec.ofNat 64 o.len ∧
        (t.readYmm o.dst).extractLsb' 128 128 = 0 ∧
        ∀ k < 8, lane 16 (t.readXmm o.dst) k = lane 16 (s.readXmm o.vex.vvvv) k - lane 16 b k) ∧
      (∃ t, exec (.vpsubdXmm o) s = .next t ∧ t.pc = s.pc + BitVec.ofNat 64 o.len ∧
        (t.readYmm o.dst).extractLsb' 128 128 = 0 ∧
        ∀ k < 4, lane 32 (t.readXmm o.dst) k = lane 32 (s.readXmm o.vex.vvvv) k - lane 32 b k)

/-- VPSUBB, VPSUBW, VPSUBD of vector length 256: the 32, 16 or 8 lanes of YMM[vvvv] less those of b, written to the whole
destination; b is YMM[VEX.B ++ rm] or the value of the memory operand (the VEX.256 pseudocode; 30_encoding.md R47, R50). -/
def Obligations.VexYmmFormsSubtractLanes : Prop :=
  ∀ (o : VexOps) (s : State) (b : BitVec 256), Enabled .vex256 o.prefixes s → VexYmmSource o s b →
    pcFits s.mode (s.pc.toNat + o.len) = true →
      (∃ t, exec (.vpsubbYmm o) s = .next t ∧ t.pc = s.pc + BitVec.ofNat 64 o.len ∧
        ∀ k < 32, lane 8 (t.readYmm o.dst) k = lane 8 (s.readYmm o.vex.vvvv) k - lane 8 b k) ∧
      (∃ t, exec (.vpsubwYmm o) s = .next t ∧ t.pc = s.pc + BitVec.ofNat 64 o.len ∧
        ∀ k < 16, lane 16 (t.readYmm o.dst) k = lane 16 (s.readYmm o.vex.vvvv) k - lane 16 b k) ∧
      (∃ t, exec (.vpsubdYmm o) s = .next t ∧ t.pc = s.pc + BitVec.ofNat 64 o.len ∧
        ∀ k < 8, lane 32 (t.readYmm o.dst) k = lane 32 (s.readYmm o.vex.vvvv) k - lane 32 b k)

/-- What a completing form does to the YMM register of its destination depends on the encoding only: Legacy SSE keeps bits
255:128, VEX.128 zeroes them, VEX.256 writes them; the MMX forms touch no YMM register (10_state.md R16). -/
def Obligations.UpperHalfOfDestinationByEncoding : Prop :=
  (∀ (o : LegacyOps) (s t : State) (b : BitVec 128), XmmSource o s b →
    (exec (.psubbXmm o) s = .next t →
      t.readYmm o.xmmReg = (s.readYmm o.xmmReg).extractLsb' 128 128 ++ subLanes 8 16 (s.readXmm o.xmmReg) b) ∧
    (exec (.psubwXmm o) s = .next t →
      t.readYmm o.xmmReg = (s.readYmm o.xmmReg).extractLsb' 128 128 ++ subLanes 16 8 (s.readXmm o.xmmReg) b) ∧
    (exec (.psubdXmm o) s = .next t →
      t.readYmm o.xmmReg = (s.readYmm o.xmmReg).extractLsb' 128 128 ++ subLanes 32 4 (s.readXmm o.xmmReg) b)) ∧
  (∀ (o : VexOps) (s t : State) (b : BitVec 128), VexXmmSource o s b →
    (exec (.vpsubbXmm o) s = .next t → t.readYmm o.dst = 0#128 ++ subLanes 8 16 (s.readXmm o.vex.vvvv) b) ∧
    (exec (.vpsubwXmm o) s = .next t → t.readYmm o.dst = 0#128 ++ subLanes 16 8 (s.readXmm o.vex.vvvv) b) ∧
    (exec (.vpsubdXmm o) s = .next t → t.readYmm o.dst = 0#128 ++ subLanes 32 4 (s.readXmm o.vex.vvvv) b)) ∧
  (∀ (o : VexOps) (s t : State) (b : BitVec 256), VexYmmSource o s b →
    (exec (.vpsubbYmm o) s = .next t → t.readYmm o.dst = subLanes 8 32 (s.readYmm o.vex.vvvv) b) ∧
    (exec (.vpsubwYmm o) s = .next t → t.readYmm o.dst = subLanes 16 16 (s.readYmm o.vex.vvvv) b) ∧
    (exec (.vpsubdYmm o) s = .next t → t.readYmm o.dst = subLanes 32 8 (s.readYmm o.vex.vvvv) b)) ∧
  (∀ (i : Instr) (s t : State), i.formClass = .mmx → exec i s = .next t → ∀ r, t.readYmm r = s.readYmm r)

/-- The x87 side effects of an MMX form that completes: tag word 0000H, TOP 000 and no other bit of the status word, bits
79:64 of the aliased x87 register all ones (40_packed_subtract_common.md R77). -/
def Obligations.MmxFormsMarkX87State : Prop :=
  ∀ (o : LegacyOps) (s t : State),
    exec (.psubbMm o) s = .next t ∨ exec (.psubwMm o) s = .next t ∨ exec (.psubdMm o) s = .next t →
      t.x87tag = 0 ∧ t.x87Top = 0 ∧ (∀ j, j < 11 ∨ 13 < j → t.x87status.getLsbD j = s.x87status.getLsbD j) ∧
        (t.readX87 o.reg).extractLsb' 64 16 = 0xFFFF

/-- Coinciding registers, the rows of 40_packed_subtract_common.md R75: every source is read before the destination is
written. All three registers of a VEX form equal is the row where vvvv and rm coincide. -/
def Obligations.CoincidingRegisters : Prop :=
  (∀ (o : LegacyOps) (s : State), o.rm = .reg o.reg → Enabled .mmx o.prefixes s →
    pcFits s.mode (s.pc.toNat + o.len) = true →
      (∃ t, exec (.psubbMm o) s = .next t ∧ t.readMm o.reg = 0) ∧ (∃ t, exec (.psubwMm o) s = .next t ∧ t.readMm o.reg = 0) ∧
        (∃ t, exec (.psubdMm o) s = .next t ∧ t.readMm o.reg = 0)) ∧
  (∀ (o : LegacyOps) (r : BitVec 3) (s : State), o.rm = .reg r → regNumber (effectiveRex o.prefixes).b r = o.xmmReg →
    Enabled .sse2 o.prefixes s → pcFits s.mode (s.pc.toNat + o.len) = true →
      (∃ t, exec (.psubbXmm o) s = .next t ∧ t.readYmm o.xmmReg = (s.readYmm o.xmmReg).extractLsb' 128 128 ++ 0#128) ∧
      (∃ t, exec (.psubwXmm o) s = .next t ∧ t.readYmm o.xmmReg = (s.readYmm o.xmmReg).extractLsb' 128 128 ++ 0#128) ∧
      (∃ t, exec (.psubdXmm o) s = .next t ∧ t.readYmm o.xmmReg = (s.readYmm o.xmmReg).extractLsb' 128 128 ++ 0#128)) ∧
  (∀ (o : VexOps) (r : BitVec 3) (s : State), o.rm = .reg r → regNumber o.vex.b r = o.vex.vvvv →
    pcFits s.mode (s.pc.toNat + o.len) = true →
      (Enabled .vex128 o.prefixes s →
        (∃ t, exec (.vpsubbXmm o) s = .next t ∧ t.readYmm o.dst = 0) ∧ (∃ t, exec (.vpsubwXmm o) s = .next t ∧ t.readYmm o.dst = 0) ∧
          (∃ t, exec (.vpsubdXmm o) s = .next t ∧ t.readYmm o.dst = 0)) ∧
      (Enabled .vex256 o.prefixes s →
        (∃ t, exec (.vpsubbYmm o) s = .next t ∧ t.readYmm o.dst = 0) ∧ (∃ t, exec (.vpsubwYmm o) s = .next t ∧ t.readYmm o.dst = 0) ∧
          (∃ t, exec (.vpsubdYmm o) s = .next t ∧ t.readYmm o.dst = 0))) ∧
  (∀ (o : VexOps) (s t : State) (b : BitVec 128), o.dst = o.vex.vvvv → VexXmmSource o s b →
    (exec (.vpsubbXmm o) s = .next t → t.readYmm o.dst = 0#128 ++ subLanes 8 16 (s.readXmm o.dst) b) ∧
    (exec (.vpsubwXmm o) s = .next t → t.readYmm o.dst = 0#128 ++ subLanes 16 8 (s.readXmm o.dst) b) ∧
    (exec (.vpsubdXmm o) s = .next t → t.readYmm o.dst = 0#128 ++ subLanes 32 4 (s.readXmm o.dst) b)) ∧
  (∀ (o : VexOps) (s t : State) (b : BitVec 256), o.dst = o.vex.vvvv → VexYmmSource o s b →
    (exec (.vpsubbYmm o) s = .next t → t.readYmm o.dst = subLanes 8 32 (s.readYmm o.dst) b) ∧
    (exec (.vpsubwYmm o) s = .next t → t.readYmm o.dst = subLanes 16 16 (s.readYmm o.dst) b) ∧
    (exec (.vpsubdYmm o) s = .next t → t.readYmm o.dst = subLanes 32 8 (s.readYmm o.dst) b)) ∧
  (∀ (o : VexOps) (r : BitVec 3) (s t : State), o.rm = .reg r → regNumber o.vex.b r = o.dst →
    (exec (.vpsubbXmm o) s = .next t → t.readYmm o.dst = 0#128 ++ subLanes 8 16 (s.readXmm o.vex.vvvv) (s.readXmm o.dst)) ∧
    (exec (.vpsubwXmm o) s = .next t → t.readYmm o.dst = 0#128 ++ subLanes 16 8 (s.readXmm o.vex.vvvv) (s.readXmm o.dst)) ∧
    (exec (.vpsubdXmm o) s = .next t → t.readYmm o.dst = 0#128 ++ subLanes 32 4 (s.readXmm o.vex.vvvv) (s.readXmm o.dst)) ∧
    (exec (.vpsubbYmm o) s = .next t → t.readYmm o.dst = subLanes 8 32 (s.readYmm o.vex.vvvv) (s.readYmm o.dst)) ∧
    (exec (.vpsubwYmm o) s = .next t → t.readYmm o.dst = subLanes 16 16 (s.readYmm o.vex.vvvv) (s.readYmm o.dst)) ∧
    (exec (.vpsubdYmm o) s = .next t → t.readYmm o.dst = subLanes 32 8 (s.readYmm o.vex.vvvv) (s.readYmm o.dst)))

/-- The old value of the destination of a VEX form does not enter the outcome unless the destination is a source
(40_packed_subtract_common.md R73). -/
def Obligations.VexDestinationIsNotRead : Prop :=
  ∀ (o : VexOps) (s : State) (v : BitVec 256), o.dst ≠ o.vex.vvvv → (∀ r, o.rm = .reg r → regNumber o.vex.b r ≠ o.dst) →
    exec (.vpsubbXmm o) (s.writeYmm o.dst v) = exec (.vpsubbXmm o) s ∧
    exec (.vpsubwXmm o) (s.writeYmm o.dst v) = exec (.vpsubwXmm o) s ∧
    exec (.vpsubdXmm o) (s.writeYmm o.dst v) = exec (.vpsubdXmm o) s ∧
    exec (.vpsubbYmm o) (s.writeYmm o.dst v) = exec (.vpsubbYmm o) s ∧
    exec (.vpsubwYmm o) (s.writeYmm o.dst v) = exec (.vpsubwYmm o) s ∧
    exec (.vpsubdYmm o) (s.writeYmm o.dst v) = exec (.vpsubdYmm o) s

/-! ## Frames -/

/-- Frame of the MMX forms: only the x87 register of the destination, the tag word, TOP and pc may change
(10_state.md R27). -/
def Obligations.MmxFormsFrame : Prop :=
  ∀ (o : LegacyOps) (s t : State),
    exec (.psubbMm o) s = .next t ∨ exec (.psubwMm o) s = .next t ∨ exec (.psubdMm o) s = .next t →
      KeepsSystemState s t ∧ t.ymm = s.ymm ∧ (∀ r, r ≠ o.reg → t.readX87 r = s.readX87 r) ∧
        ∀ j, j < 11 ∨ 13 < j → t.x87status.getLsbD j = s.x87status.getLsbD j

/-- The XMM and YMM forms have no effect on x87 or MMX state (40_packed_subtract_common.md R78). -/
def Obligations.VectorFormsLeaveX87StateAlone : Prop :=
  ∀ (i : Instr) (s t : State), i.formClass ≠ .mmx → exec i s = .next t →
    t.x87data = s.x87data ∧ t.x87tag = s.x87tag ∧ t.x87status = s.x87status ∧ ∀ r, t.readMm r = s.readMm r

/-- Frame of the XMM and YMM forms: beyond pc, only the YMM register of the destination may change (10_state.md R27). -/
def Obligations.VectorFormsFrame : Prop :=
  (∀ (o : LegacyOps) (s t : State),
    exec (.psubbXmm o) s = .next t ∨ exec (.psubwXmm o) s = .next t ∨ exec (.psubdXmm o) s = .next t →
      KeepsSystemState s t ∧ t.x87data = s.x87data ∧ t.x87tag = s.x87tag ∧ t.x87status = s.x87status ∧
        ∀ r, r ≠ o.xmmReg → t.readYmm r = s.readYmm r) ∧
  (∀ (o : VexOps) (s t : State),
    exec (.vpsubbXmm o) s = .next t ∨ exec (.vpsubwXmm o) s = .next t ∨ exec (.vpsubdXmm o) s = .next t ∨
    exec (.vpsubbYmm o) s = .next t ∨ exec (.vpsubwYmm o) s = .next t ∨ exec (.vpsubdYmm o) s = .next t →
      KeepsSystemState s t ∧ t.x87data = s.x87data ∧ t.x87tag = s.x87tag ∧ t.x87status = s.x87status ∧
        ∀ r, r ≠ o.dst → t.readYmm r = s.readYmm r)

/-- Flags and numeric exceptions, all twelve forms (40_packed_subtract_common.md R74): no EFLAGS bit is written and none
enters the computed result (only EFLAGS.VM, which is part of the mode, is held fixed); MXCSR is neither read nor written;
no SIMD exception (vector 19) is raised, and #MF only when an x87 exception was pending before. -/
def Obligations.FlagsAndNumericExceptions : Prop :=
  ∀ (i : Instr) (s : State),
    (∀ t, exec i s = .next t → t.eflags = s.eflags) ∧
    (∀ (e : BitVec 64) (t t' : State), e.getLsbD 17 = s.eflags.getLsbD 17 → exec i s = .next t →
      exec i { s with eflags := e } = .next t' → t' = { t with eflags := e }) ∧
    (∀ v : BitVec 32, exec i { s with mxcsr := v } = mapNext (fun t => { t with mxcsr := v }) (exec i s)) ∧
    (∀ f, exec i s = .fault f → f.vector ≠ 19 ∧ (f.vector = 16 → s.x87Es = true))

/-- No form writes memory, and of memory a form reads only the bytes of its operand (20_memory.md R29): memory that agrees
on them gives the same outcome. -/
def Obligations.MemoryIsOnlyReadAtTheOperand : Prop :=
  ∀ (i : Instr) (s : State),
    (∀ t, exec i s = .next t → t.mem = s.mem) ∧
    ∀ m : List Host.Cell,
      (∀ g off, memoryOperand i s = some (g, off) → ∀ k < i.formClass.operandBytes, ∀ pa,
        translateAddr s .dataRead (linearByte s (linearAddress s g off) k) = .ok pa → Memory.read m pa.toNat = s.readByte pa) →
      exec i (s.setMem m) = mapNext (fun t => t.setMem m) (exec i s)

/-! ## Exceptions -/

/-- #UD is raised exactly under the conditions of 60_exceptions.md R94, whatever the operand; a VEX form with L = 1 when
HAS_AVX2 is false is among them (R91). -/
def Obligations.InvalidOpcodeExactlyWhenUndefined : Prop :=
  ∀ (i : Instr) (s : State) (a : Addr),
    exec i s = .fault (.ud a) ↔ a = s.pc ∧ Undefined i.formClass i.prefixes s

/-- #NM is raised exactly when CR0.TS = 1 and no #UD condition holds: all twelve forms, all modes (60_exceptions.md R95). -/
def Obligations.DeviceNotAvailableExactlyWhenTaskSwitched : Prop :=
  ∀ (i : Instr) (s : State) (a : Addr),
    exec i s = .fault (.nm a) ↔ a = s.pc ∧ ¬ Undefined i.formClass i.prefixes s ∧ s.cr0Ts = true

/-- A pending x87 exception, checked after #UD and #NM: #MF for an MMX form when CR0.NE = 1, the refusal ExternalFpuError
when CR0.NE = 0, neither for another form (60_exceptions.md R96). -/
def Obligations.PendingFpuErrorStopsMmxForms : Prop :=
  ∀ (i : Instr) (s : State),
    (∀ a, exec i s = .fault (.mf a) ↔
      a = s.pc ∧ i.formClass = .mmx ∧ ¬ Undefined i.formClass i.prefixes s ∧ s.cr0Ts = false ∧ s.x87Es = true ∧ s.cr0Ne = true) ∧
    (exec i s = .refused .externalFpuError ↔
      i.formClass = .mmx ∧ ¬ Undefined i.formClass i.prefixes s ∧ s.cr0Ts = false ∧ s.x87Es = true ∧ s.cr0Ne = false)

/-- #SS(0) is raised exactly when an enabled instruction has a memory operand through SS that is illegal there
(60_exceptions.md R99). That it is the condition named whatever else holds of the operand is a choice of order, the spec's D8
in R101 (DESIGN CHOICE, log 10); SegmentLegal takes a selector as null by its bits 15:2 (PRESUMED, log 18). -/
def Obligations.StackFaultExactlyWhenIllegalInSs : Prop :=
  ∀ (i : Instr) (s : State) (a : Addr),
    exec i s = .fault (.ss a) ↔
      a = s.pc ∧ Enabled i.formClass i.prefixes s ∧
        ∃ off, memoryOperand i s = some (.ss, off) ∧ ¬ SegmentLegal s .ss off i.formClass.operandBytes

/-- #GP(0) is raised exactly when an enabled instruction has a memory operand that is illegal in a segment other than SS,
or one of a 128-bit Legacy SSE form that is legal and whose linear address is no multiple of 16, in every mode and whatever
alignment checking says (20_memory.md R32; 60_exceptions.md R98). That these come before #AC and #PF is a choice of order, the
spec's D8 in R101 (DESIGN CHOICE, log 10), so "exactly" rests on it; SegmentLegal takes a selector as null by its bits 15:2
(PRESUMED, log 18). -/
def Obligations.GeneralProtectionExactly : Prop :=
  ∀ (i : Instr) (s : State) (a : Addr),
    exec i s = .fault (.gp a) ↔
      a = s.pc ∧ Enabled i.formClass i.prefixes s ∧
        ∃ g off, memoryOperand i s = some (g, off) ∧
          ((g ≠ .ss ∧ ¬ SegmentLegal s g off i.formClass.operandBytes) ∨
            (SegmentLegal s g off i.formClass.operandBytes ∧ i.formClass = .sse2 ∧ (linearAddress s g off).toNat % 16 ≠ 0))

/-- #AC(0) is raised exactly when an enabled MMX form has a legal memory operand whose linear address is no multiple of 8
while CR0.AM = 1, EFLAGS.AC = 1 and CPL = 3 (60_exceptions.md R97). That an illegal operand is named first and #PF only after
#AC is a choice of order, the spec's D8 in R101 (DESIGN CHOICE, log 10); SegmentLegal takes a selector as null by its bits 15:2
(PRESUMED, log 18). -/
def Obligations.AlignmentCheckExactly : Prop :=
  ∀ (i : Instr) (s : State) (a : Addr),
    exec i s = .fault (.ac a) ↔
      a = s.pc ∧ Enabled i.formClass i.prefixes s ∧ i.formClass = .mmx ∧
        s.cr0.getLsbD 18 = true ∧ s.eflags.getLsbD 18 = true ∧ s.cpl = 3 ∧
        ∃ g off, memoryOperand i s = some (g, off) ∧ SegmentLegal s g off i.formClass.operandBytes ∧
          (linearAddress s g off).toNat % 8 ≠ 0

/-- #PF is raised exactly when an enabled instruction has a legal and aligned memory operand some byte of which Translate
faults on; the lowest such byte is the one reported (60_exceptions.md R100, R101). That the operand is found legal and aligned
first, and that the lowest byte is the one reported, is a choice of order, the spec's D8 in R101 (DESIGN CHOICE, log 10); the
addresses of later bytes wrap as log 16 says (DEDUCED), and SegmentLegal rests on log 18 (PRESUMED). -/
def Obligations.PageFaultReportsLowestFaultingByte : Prop :=
  ∀ (i : Instr) (s : State) (a : Addr) (code : BitVec 32) (lin : Addr),
    exec i s = .fault (.pf a code lin) ↔
      Enabled i.formClass i.prefixes s ∧
        ∃ g off k, memoryOperand i s = some (g, off) ∧ SegmentLegal s g off i.formClass.operandBytes ∧
          Aligned i.formClass s (linearAddress s g off) ∧ k < i.formClass.operandBytes ∧
          (∀ j < k, ByteMapped s (linearAddress s g off) j) ∧
          translateAddr s .dataRead (linearByte s (linearAddress s g off) k) = .error (.fault (.pf a code lin))

/-- Translate stops only with a page fault, never in real-address mode; the fault carries the linear address asked for, and
its code has W/R = 0, U/S exactly at CPL 3 and I/D only for a fetch (20_memory.md R39; 60_exceptions.md R100). That it has no
bit above 4 is the model's choice (DESIGN CHOICE, log 7): the spec names no such bit and leaves Translate open. -/
def Obligations.PageFaultCodeBits : Prop :=
  ∀ (s : State) (k : AccessKind) (lin : Addr) (e : Stop), translateAddr s k lin = .error e →
    s.mode ≠ .real16 ∧ ∃ code, e = .fault (.pf s.pc code lin) ∧ code.getLsbD 1 = false ∧
      (code.getLsbD 2 = true ↔ s.cpl = 3) ∧ (code.getLsbD 4 = true → k = .fetch) ∧ ∀ j, 4 < j → code.getLsbD j = false

/-- A memory operand every byte of which is mapped and some byte of which lies outside MemMap is refused by that name, and
nothing else is (20_memory.md R30, R37; 60_exceptions.md R101, R102). That the refusal comes after every check of segment and
alignment and after the translation of every byte is a choice of order (DESIGN CHOICE, log 10, the spec's D8); SegmentLegal rests
on log 18 (PRESUMED). -/
def Obligations.NotOrdinaryMemoryIsRefused : Prop :=
  ∀ (i : Instr) (s : State),
    exec i s = .refused .notOrdinaryMemory ↔
      Enabled i.formClass i.prefixes s ∧
        ∃ g off, memoryOperand i s = some (g, off) ∧ SegmentLegal s g off i.formClass.operandBytes ∧
          Aligned i.formClass s (linearAddress s g off) ∧ Mapped s (linearAddress s g off) i.formClass.operandBytes ∧
          ¬ Ordinary s (linearAddress s g off) i.formClass.operandBytes

/-- An instruction that would complete but whose next address does not fit pc is refused by that name, and nothing else is
(10_state.md R21; 92 D6; the order after the operand faults is the model's, log 11). -/
def Obligations.PcWrapIsRefused : Prop :=
  ∀ (i : Instr) (s : State),
    exec i s = .refused .pcWrap ↔ Enabled i.formClass i.prefixes s ∧ OperandReady i s ∧ ¬ PcReady i s

/-- Every one of the twelve forms completes exactly when it is enabled, its memory operand, if it has one, can be read, and
the next address fits pc (60_exceptions.md R102; 70_reset_and_hazards.md R112). -/
def Obligations.CompletesExactlyWhenEnabledAndReady : Prop :=
  ∀ (i : Instr) (s : State),
    (∃ t, exec i s = .next t) ↔ Enabled i.formClass i.prefixes s ∧ OperandReady i s ∧ PcReady i s

/-- The exceptions' vectors and error codes (60_exceptions.md R109). -/
def Obligations.ExceptionVectorsAndCodes : Prop :=
  ∀ (p lin : Addr) (c : BitVec 32),
    ((Fault.ud p).vector = 6 ∧ (Fault.ud p).errorCode = none) ∧ ((Fault.nm p).vector = 7 ∧ (Fault.nm p).errorCode = none) ∧
    ((Fault.ss p).vector = 12 ∧ (Fault.ss p).errorCode = some 0) ∧ ((Fault.gp p).vector = 13 ∧ (Fault.gp p).errorCode = some 0) ∧
    ((Fault.pf p c lin).vector = 14 ∧ (Fault.pf p c lin).errorCode = some c) ∧
    ((Fault.mf p).vector = 16 ∧ (Fault.mf p).errorCode = none) ∧ ((Fault.ac p).vector = 17 ∧ (Fault.ac p).errorCode = some 0)

/-- Every exception a step ends in saves the address of the instruction at which it was raised (60_exceptions.md R103). -/
def Obligations.ExceptionSavesInstructionAddress : Prop :=
  ∀ (s : State) (f : Fault), step s = .fault f → f.savedPc = s.pc

/-! ## Operands -/

/-- Byte order: bits 8k + 7 to 8k of a memory operand that could be read are the byte of memory at the address that byte k
translates to (20_memory.md R31). -/
def Obligations.MemoryOperandIsLittleEndian : Prop :=
  ∀ (s : State) (c : FormClass) (g : Seg) (off : Addr) (v : BitVec (8 * c.operandBytes)),
    memRead s c (8 * c.operandBytes) g off = .ok v → ∀ k < c.operandBytes,
      ∃ pa, translateAddr s .dataRead (linearByte s (linearAddress s g off) k) = .ok pa ∧ s.isOrdinary pa = true ∧
        v.extractLsb' (8 * k) 8 = s.readByte pa

/-- Effective address under 32- and 64-bit addressing, in integers modulo 2^asz, with its default segment: the case table
of 30_encoding.md R51 and the SIB rules of R52. -/
def Obligations.EffectiveAddressWithSibAndDisplacement : Prop :=
  ∀ (s : State) (z : AddressSize) (x b : Bool) (pcNext : Addr) (m : MemOperand) (bits : Nat),
    (z = .a32 ∧ bits = 32) ∨ (z = .a64 ∧ bits = 64) →
    (m.sib = none → m.rm = 5 → m.mod = .m00 →
      effectiveAddress s z x b pcNext m =
        (.ds, BitVec.ofInt 64 (((if s.mode = .mode64 then (pcNext.toNat : Int) else 0) + dispInt m.disp) % 2 ^ bits))) ∧
    (m.sib = none → ¬ (m.rm = 5 ∧ m.mod = .m00) →
      effectiveAddress s z x b pcNext m =
        (if regNumber b m.rm = 4 ∨ regNumber b m.rm = 5 then .ss else .ds,
          BitVec.ofInt 64 (((s.readGpr (regNumber b m.rm)).toNat + dispInt m.disp) % 2 ^ bits))) ∧
    (∀ sib : Sib, m.sib = some sib →
      effectiveAddress s z x b pcNext m =
        (if ¬ (sib.base = 5 ∧ m.mod = .m00) ∧ (regNumber b sib.base = 4 ∨ regNumber b sib.base = 5) then .ss else .ds,
          BitVec.ofInt 64 (((if sib.base = 5 ∧ m.mod = .m00 then 0 else ((s.readGpr (regNumber b sib.base)).toNat : Int)) +
            (if regNumber x sib.idx = 4 then 0 else ((s.readGpr (regNumber x sib.idx)).toNat : Int) * 2 ^ sib.ss.toNat) +
            dispInt m.disp) % 2 ^ bits)))

/-- Effective address under 16-bit addressing, in integers modulo 2^16, with its default segment (30_encoding.md R54); BX,
BP, SI, DI are registers 3, 5, 6, 7. -/
def Obligations.EffectiveAddressUnder16BitAddressing : Prop :=
  ∀ (s : State) (x b : Bool) (pcNext : Addr) (m : MemOperand),
    let bx : Int := (s.readGpr 3).toNat
    let bp : Int := (s.readGpr 5).toNat
    let si : Int := (s.readGpr 6).toNat
    let di : Int := (s.readGpr 7).toNat
    let ea : Seg → Int → Prop := fun g v =>
      effectiveAddress s .a16 x b pcNext m = (g, BitVec.ofInt 64 ((v + dispInt m.disp) % 2 ^ 16))
    (m.rm = 0 → ea .ds (bx + si)) ∧ (m.rm = 1 → ea .ds (bx + di)) ∧ (m.rm = 2 → ea .ss (bp + si)) ∧
    (m.rm = 3 → ea .ss (bp + di)) ∧ (m.rm = 4 → ea .ds si) ∧ (m.rm = 5 → ea .ds di) ∧
    (m.rm = 6 → m.mod = .m00 → ea .ds 0) ∧ (m.rm = 6 → m.mod ≠ .m00 → ea .ss bp) ∧ (m.rm = 7 → ea .ds bx)

/-- The memory operand of an instruction: the sum of registers and displacement modulo 2^asz, zero-extended, where asz is what
the mode and a 67 prefix say, RIP-relative addressing counts from pc + len, and an override prefix replaces the default segment
(30_encoding.md R51 to R54, R56). -/
def Obligations.MemoryOperandOfAnInstruction : Prop :=
  ∀ (i : Instr) (s : State) (m : MemOperand), i.rm = .mem m →
    let bits := addressBits s.mode i.prefixes
    let a := if bits = 16 then shortAddressInt s m
      else wideAddressInt s (indexBaseBits i).1 (indexBaseBits i).2 (s.pc.toNat + i.len) m
    memoryOperand i s = some (operandSegment s.mode i.prefixes a.1, BitVec.ofInt 64 ((a.2 + dispInt m.disp) % 2 ^ bits))

/-- The segment of a memory operand: the one that an override prefix names, wherever it stands among the prefixes, but in
64-bit mode an ES, CS, SS or DS override is ignored; without an override the default (30_encoding.md R51, R56). -/
def Obligations.SegmentOverridePrefixes : Prop :=
  ∀ (m : Mode) (p : List LegacyPrefix) (d : Seg), prefixesOnce p = true →
    (hasKind .segment p = false → operandSegment m p d = d) ∧
    ∀ g, LegacyPrefix.segment g ∈ p →
      operandSegment m p d = if m = .mode64 ∧ g ≠ .fs ∧ g ≠ .gs then d else g

/-- Linear addresses: segment base plus offset, modulo 2^64 in 64-bit mode, where only FS and GS have a base, and modulo
2^32 outside it (20_memory.md R30; 10_state.md R22). -/
def Obligations.LinearAddressOfAnOffset : Prop :=
  ∀ (s : State) (g : Seg) (off : Addr),
    (s.mode = .mode64 → g ≠ .fs → g ≠ .gs → linearAddress s g off = off) ∧
    (s.mode = .mode64 → g = .fs ∨ g = .gs →
      (linearAddress s g off).toNat = ((s.segment g).base.toNat + off.toNat) % 2 ^ 64) ∧
    (s.mode ≠ .mode64 → (linearAddress s g off).toNat = ((s.segment g).base.toNat + off.toNat) % 2 ^ 32)

/-! ## Steps and runs -/

/-- A completed instruction moves pc past itself, with no wrap-around, to a legal value (10_state.md R21). -/
def Obligations.NextPcIsTheAddressAfterTheInstruction : Prop :=
  ∀ (i : Instr) (s t : State), exec i s = .next t →
    t.pc.toNat = s.pc.toNat + i.len ∧ pcFits t.mode t.pc.toNat = true

/-- When the bytes at pc can be fetched and are the encoding of a well-formed instruction, a step is exec of it: exec itself
moves pc, and step adds nothing (40_packed_subtract_common.md R72, R73). -/
def Obligations.StepRunsTheDecodedInstruction : Prop :=
  ∀ (s : State) (i : Instr), i.wellFormed s.mode = true →
    (∀ (k : Nat) (b : Byte), (encode i)[k]? = some b → fetchByte s k = .ok b) → step s = exec i s

/-- Bytes at pc that are refused, and 15 bytes that are still no whole instruction, stop the step by the refusal's name
(30_encoding.md R65). Fifteen such bytes may hold a repeated prefix, for which R65 also gives RedundantPrefix; that TooLong is
the one named, and the order among the other names, is the model's choice (DESIGN CHOICE, log 13). -/
def Obligations.StepRefusesWhatDecodingRefuses : Prop :=
  ∀ (s : State) (bs : List Byte), bs.length ≤ 15 → (∀ (k : Nat) (b : Byte), bs[k]? = some b → fetchByte s k = .ok b) →
    (decode s.mode bs = .error .notThisFamily → step s = .refused .notThisFamily) ∧
    (decode s.mode bs = .error .prefixNotInScope → step s = .refused .prefixNotInScope) ∧
    (decode s.mode bs = .error .redundantPrefix → step s = .refused .redundantPrefix) ∧
    (decode s.mode bs = .error .vexHighRegOutside64 → step s = .refused .vexHighRegOutside64) ∧
    (bs.length = 15 → decode s.mode bs = .error .truncated → step s = .refused .tooLong)

/-- Byte k of the instruction at pc is the byte of ordinary memory at the address that Translate gives, for kind Fetch, for the
linear address CS base + pc + k (20_memory.md R31, R35, R39; 60_exceptions.md R101 step 1). A pc that is no legal offset, and a
byte beyond the limit of CS, is #GP(0); a later byte that does not fit pc is PcWrap; else Translate's fault is raised, and a
byte outside MemMap refused. The conditions of #GP(0), the refusals and MemMap's part are the model's (logs 8 and 12, DEDUCED and
PRESUMED; log 11, DESIGN CHOICE). -/
def Obligations.FetchReadsTheCodeSegment : Prop :=
  ∀ (s : State) (k : Nat),
    let off := s.pc.toNat + k
    let lin := BitVec.ofNat 64 (codeLinear s off)
    (∀ b, fetchByte s k = .ok b ↔ PcInRange s.mode off ∧ InCodeLimit s off ∧
      ∃ pa, translateAddr s .fetch lin = .ok pa ∧ s.isOrdinary pa = true ∧ s.readByte pa = b) ∧
    (∀ a, fetchByte s k = .error (.fault (.gp a)) ↔
      a = s.pc ∧ ((k = 0 ∧ ¬ PcInRange s.mode off) ∨ (PcInRange s.mode off ∧ ¬ InCodeLimit s off))) ∧
    (∀ a code lin', fetchByte s k = .error (.fault (.pf a code lin')) ↔ PcInRange s.mode off ∧ InCodeLimit s off ∧
      translateAddr s .fetch lin = .error (.fault (.pf a code lin'))) ∧
    (fetchByte s k = .error (.refused .pcWrap) ↔ k ≠ 0 ∧ ¬ PcInRange s.mode off) ∧
    (fetchByte s k = .error (.refused .notOrdinaryMemory) ↔ PcInRange s.mode off ∧ InCodeLimit s off ∧
      ∃ pa, translateAddr s .fetch lin = .ok pa ∧ s.isOrdinary pa = false)

/-- When the bytes fetched so far are no whole instruction and the next byte cannot be fetched, the step stops as that fetch
does, by its #GP(0), its #PF or its refusal, before any condition of the instruction itself (60_exceptions.md R101 step 1). -/
def Obligations.FetchStopIsTheStopOfTheStep : Prop :=
  ∀ (s : State) (bs : List Byte), bs.length < 15 → (∀ (k : Nat) (b : Byte), bs[k]? = some b → fetchByte s k = .ok b) →
    decode s.mode bs = .error .truncated →
    (∀ f, fetchByte s bs.length = .error (.fault f) → step s = .fault f) ∧
    (∀ r, fetchByte s bs.length = .error (.refused r) → step s = .refused r)

/-- All forms are unprivileged: an instruction has the same outcome at every privilege level at which Translate answers the
same for the bytes of its memory operand and, for an MMX form, alignment checking is the same; so a register-direct form has it
at every level. No form changes the level or the mode (60_exceptions.md R107). -/
def Obligations.PrivilegeDoesNotMatter : Prop :=
  ∀ (i : Instr) (s : State),
    (∀ c : BitVec 2,
      (∀ g off, memoryOperand i s = some (g, off) →
        (i.formClass = .mmx → ({ s with cpl := c } : State).alignmentCheck = s.alignmentCheck) ∧
        ∀ k < i.formClass.operandBytes, translateAddr { s with cpl := c } .dataRead (linearByte s (linearAddress s g off) k) =
          translateAddr s .dataRead (linearByte s (linearAddress s g off) k)) →
      exec i { s with cpl := c } = mapNext (fun t => { t with cpl := c }) (exec i s)) ∧
    (∀ (r : BitVec 3) (c : BitVec 2), i.rm = .reg r →
      exec i { s with cpl := c } = mapNext (fun t => { t with cpl := c }) (exec i s)) ∧
    ∀ t, exec i s = .next t → t.cpl = s.cpl ∧ t.mode = s.mode

/-- Outside 64-bit mode a step leaves YMM8 to YMM15 as they are (10_state.md R15). -/
def Obligations.HighRegistersKeepTheirValuesOutside64BitMode : Prop :=
  ∀ (s t : State), s.mode ≠ .mode64 → step s = .next t → ∀ r : BitVec 4, 8 ≤ r.toNat → t.readYmm r = s.readYmm r

/-- From every state in which memory is canonical and pc is a legal offset, a step leads to such a state, in the same mode. -/
def Obligations.StepKeepsTheInvariant : Prop :=
  ∀ (s t : State), s.Inv → step s = .next t → t.Inv ∧ t.mode = s.mode ∧ s.pc.toNat + 3 ≤ t.pc.toNat ∧ t.pc.toNat ≤ s.pc.toNat + 15

/-- The state after reset satisfies the invariant. -/
def Obligations.ResetSatisfiesTheInvariant : Prop :=
  State.reset.Inv

/-- The values after power-up or RESET# (10_state.md R26, which marks the table as not of the source); the processor
signature, which R26 names without a number, is the model's choice (log 2). -/
def Obligations.ResetValues : Prop :=
  (∀ r, State.reset.readYmm r = 0) ∧ (∀ r, State.reset.readX87 r = 0) ∧ State.reset.x87tag = 0x5555 ∧
  State.reset.x87status = 0 ∧ State.reset.cr0 = 0x60000010 ∧ State.reset.cr4 = 0 ∧ State.reset.xcr0 = 1 ∧
  State.reset.eflags = 2 ∧ State.reset.pc = 0xFFF0 ∧ State.reset.segs.cs.selector = 0xF000 ∧
  State.reset.segs.cs.base = 0xFFFF0000 ∧ (∀ r, r ≠ 2 → State.reset.readGpr r = 0) ∧ State.reset.mxcsr = 0x1F80 ∧
  State.reset.mode = .real16 ∧ State.reset.cpl = 0 ∧ fetchAddress State.reset 0 = .ok 0xFFFFFFF0

/-- In the state after reset no 128-bit Legacy SSE form and no VEX form executes, each is #UD, and an MMX form without LOCK
completes, with a register source or with a memory operand that lies in 0 to FFFFH (70_reset_and_hazards.md R111). The reset
state is the spec's general-knowledge table (PRESUMED, log 1); that HAS_MMX is set there and that memory is all mapped and
ordinary is the model's choice (DESIGN CHOICE, log 3). -/
def Obligations.AfterResetOnlyMmxFormsExecute : Prop :=
  ∀ (i : Instr),
    (i.formClass ≠ .mmx → exec i State.reset = .fault (.ud 0xFFF0)) ∧
    (i.formClass = .mmx → i.wellFormed .real16 = true → hasKind .lock i.prefixes = false →
      (∀ g off, memoryOperand i State.reset = some (g, off) → off.toNat + 7 ≤ 0xFFFF) → ∃ t, exec i State.reset = .next t)

/-- A run over a program text, of any bytes and from any pc, ends within a third of its bytes steps
(70_reset_and_hazards.md R117). How a run ends is a convention, the spec's D21 (DESIGN CHOICE, log 28). -/
def Obligations.RunOverATextEnds : Prop :=
  ∀ (base size : Nat) (s : State), runText base size (size / 3) s ≠ .unfinished

/-- A run from the start of a text executes its instructions once each in address order and is final after the last
(70_reset_and_hazards.md R117). The division of the text into instructions is read from the rule (DEDUCED, log 28). That a text
whose end cuts an instruction off is refused there, with none of that instruction's effect, and the refusal's name, are the
model's choice (DESIGN CHOICE, log 28). -/
def Obligations.RunExecutesTheTextInOrder : Prop :=
  ∀ (s : State) (is : List Instr) (tail : List Byte) (fuel : Nat),
    (∀ i ∈ is, i.wellFormed s.mode = true) → (is ≠ [] ∨ tail ≠ []) → is.length ≤ fuel →
    decode s.mode tail = .error .truncated → tail.length < 15 → TextAt s s.pc (is.flatMap encode ++ tail) →
      runText s.pc.toNat (is.flatMap encode ++ tail).length fuel s =
        runInOrder (fun t => if tail = [] then .final t else .refused .outsideText) is s

/-- A run whose pc is outside the text, at its end, or in the middle of an instruction of it, is refused
(70_reset_and_hazards.md R117). The division of the text into instructions is read from the rule (DEDUCED, log 28); the refusal's
name is the model's choice (DESIGN CHOICE, log 28). -/
def Obligations.RunOutsideItsInstructionsIsRefused : Prop :=
  ∀ (s : State) (base : Addr) (is : List Instr) (fuel : Nat),
    (∀ i ∈ is, i.wellFormed s.mode = true) → TextAt s base (is.flatMap encode) →
    (∀ n < is.length, s.pc.toNat ≠ base.toNat + ((is.take n).flatMap encode).length) →
      runText base.toNat (is.flatMap encode).length fuel s = .refused .outsideText
end

