-- ==== Sys2Proof/Laws/State.lean ====
section
/-! SUPPORT. One lemma per field of State and update of State, each true by unfolding. -/

namespace Sys2Proof.Machine

@[simp] theorem State.writeYmm_cfg (s : State) (i : BitVec 4) (v : BitVec 256) : (s.writeYmm i v).cfg = s.cfg := rfl
@[simp] theorem State.writeYmm_x87data (s : State) (i : BitVec 4) (v : BitVec 256) : (s.writeYmm i v).x87data = s.x87data := rfl
@[simp] theorem State.writeYmm_x87tag (s : State) (i : BitVec 4) (v : BitVec 256) : (s.writeYmm i v).x87tag = s.x87tag := rfl
@[simp] theorem State.writeYmm_x87status (s : State) (i : BitVec 4) (v : BitVec 256) : (s.writeYmm i v).x87status = s.x87status := rfl
@[simp] theorem State.writeYmm_gpr (s : State) (i : BitVec 4) (v : BitVec 256) : (s.writeYmm i v).gpr = s.gpr := rfl
@[simp] theorem State.writeYmm_pc (s : State) (i : BitVec 4) (v : BitVec 256) : (s.writeYmm i v).pc = s.pc := rfl
@[simp] theorem State.writeYmm_eflags (s : State) (i : BitVec 4) (v : BitVec 256) : (s.writeYmm i v).eflags = s.eflags := rfl
@[simp] theorem State.writeYmm_mxcsr (s : State) (i : BitVec 4) (v : BitVec 256) : (s.writeYmm i v).mxcsr = s.mxcsr := rfl
@[simp] theorem State.writeYmm_cr0 (s : State) (i : BitVec 4) (v : BitVec 256) : (s.writeYmm i v).cr0 = s.cr0 := rfl
@[simp] theorem State.writeYmm_cr2 (s : State) (i : BitVec 4) (v : BitVec 256) : (s.writeYmm i v).cr2 = s.cr2 := rfl
@[simp] theorem State.writeYmm_cr4 (s : State) (i : BitVec 4) (v : BitVec 256) : (s.writeYmm i v).cr4 = s.cr4 := rfl
@[simp] theorem State.writeYmm_xcr0 (s : State) (i : BitVec 4) (v : BitVec 256) : (s.writeYmm i v).xcr0 = s.xcr0 := rfl
@[simp] theorem State.writeYmm_cpl (s : State) (i : BitVec 4) (v : BitVec 256) : (s.writeYmm i v).cpl = s.cpl := rfl
@[simp] theorem State.writeYmm_segs (s : State) (i : BitVec 4) (v : BitVec 256) : (s.writeYmm i v).segs = s.segs := rfl
@[simp] theorem State.writeYmm_mem (s : State) (i : BitVec 4) (v : BitVec 256) : (s.writeYmm i v).mem = s.mem := rfl

@[simp] theorem State.writeX87_cfg (s : State) (i : BitVec 3) (v : BitVec 80) : (s.writeX87 i v).cfg = s.cfg := rfl
@[simp] theorem State.writeX87_ymm (s : State) (i : BitVec 3) (v : BitVec 80) : (s.writeX87 i v).ymm = s.ymm := rfl
@[simp] theorem State.writeX87_x87tag (s : State) (i : BitVec 3) (v : BitVec 80) : (s.writeX87 i v).x87tag = s.x87tag := rfl
@[simp] theorem State.writeX87_x87status (s : State) (i : BitVec 3) (v : BitVec 80) : (s.writeX87 i v).x87status = s.x87status := rfl
@[simp] theorem State.writeX87_gpr (s : State) (i : BitVec 3) (v : BitVec 80) : (s.writeX87 i v).gpr = s.gpr := rfl
@[simp] theorem State.writeX87_pc (s : State) (i : BitVec 3) (v : BitVec 80) : (s.writeX87 i v).pc = s.pc := rfl
@[simp] theorem State.writeX87_eflags (s : State) (i : BitVec 3) (v : BitVec 80) : (s.writeX87 i v).eflags = s.eflags := rfl
@[simp] theorem State.writeX87_mxcsr (s : State) (i : BitVec 3) (v : BitVec 80) : (s.writeX87 i v).mxcsr = s.mxcsr := rfl
@[simp] theorem State.writeX87_cr0 (s : State) (i : BitVec 3) (v : BitVec 80) : (s.writeX87 i v).cr0 = s.cr0 := rfl
@[simp] theorem State.writeX87_cr2 (s : State) (i : BitVec 3) (v : BitVec 80) : (s.writeX87 i v).cr2 = s.cr2 := rfl
@[simp] theorem State.writeX87_cr4 (s : State) (i : BitVec 3) (v : BitVec 80) : (s.writeX87 i v).cr4 = s.cr4 := rfl
@[simp] theorem State.writeX87_xcr0 (s : State) (i : BitVec 3) (v : BitVec 80) : (s.writeX87 i v).xcr0 = s.xcr0 := rfl
@[simp] theorem State.writeX87_cpl (s : State) (i : BitVec 3) (v : BitVec 80) : (s.writeX87 i v).cpl = s.cpl := rfl
@[simp] theorem State.writeX87_segs (s : State) (i : BitVec 3) (v : BitVec 80) : (s.writeX87 i v).segs = s.segs := rfl
@[simp] theorem State.writeX87_mem (s : State) (i : BitVec 3) (v : BitVec 80) : (s.writeX87 i v).mem = s.mem := rfl

@[simp] theorem State.setX87Tag_cfg (s : State) (v : BitVec 16) : (s.setX87Tag v).cfg = s.cfg := rfl
@[simp] theorem State.setX87Tag_ymm (s : State) (v : BitVec 16) : (s.setX87Tag v).ymm = s.ymm := rfl
@[simp] theorem State.setX87Tag_x87data (s : State) (v : BitVec 16) : (s.setX87Tag v).x87data = s.x87data := rfl
@[simp] theorem State.setX87Tag_x87tag (s : State) (v : BitVec 16) : (s.setX87Tag v).x87tag = v := rfl
@[simp] theorem State.setX87Tag_x87status (s : State) (v : BitVec 16) : (s.setX87Tag v).x87status = s.x87status := rfl
@[simp] theorem State.setX87Tag_gpr (s : State) (v : BitVec 16) : (s.setX87Tag v).gpr = s.gpr := rfl
@[simp] theorem State.setX87Tag_pc (s : State) (v : BitVec 16) : (s.setX87Tag v).pc = s.pc := rfl
@[simp] theorem State.setX87Tag_eflags (s : State) (v : BitVec 16) : (s.setX87Tag v).eflags = s.eflags := rfl
@[simp] theorem State.setX87Tag_mxcsr (s : State) (v : BitVec 16) : (s.setX87Tag v).mxcsr = s.mxcsr := rfl
@[simp] theorem State.setX87Tag_cr0 (s : State) (v : BitVec 16) : (s.setX87Tag v).cr0 = s.cr0 := rfl
@[simp] theorem State.setX87Tag_cr2 (s : State) (v : BitVec 16) : (s.setX87Tag v).cr2 = s.cr2 := rfl
@[simp] theorem State.setX87Tag_cr4 (s : State) (v : BitVec 16) : (s.setX87Tag v).cr4 = s.cr4 := rfl
@[simp] theorem State.setX87Tag_xcr0 (s : State) (v : BitVec 16) : (s.setX87Tag v).xcr0 = s.xcr0 := rfl
@[simp] theorem State.setX87Tag_cpl (s : State) (v : BitVec 16) : (s.setX87Tag v).cpl = s.cpl := rfl
@[simp] theorem State.setX87Tag_segs (s : State) (v : BitVec 16) : (s.setX87Tag v).segs = s.segs := rfl
@[simp] theorem State.setX87Tag_mem (s : State) (v : BitVec 16) : (s.setX87Tag v).mem = s.mem := rfl

@[simp] theorem State.setX87Status_cfg (s : State) (v : BitVec 16) : (s.setX87Status v).cfg = s.cfg := rfl
@[simp] theorem State.setX87Status_ymm (s : State) (v : BitVec 16) : (s.setX87Status v).ymm = s.ymm := rfl
@[simp] theorem State.setX87Status_x87data (s : State) (v : BitVec 16) : (s.setX87Status v).x87data = s.x87data := rfl
@[simp] theorem State.setX87Status_x87tag (s : State) (v : BitVec 16) : (s.setX87Status v).x87tag = s.x87tag := rfl
@[simp] theorem State.setX87Status_x87status (s : State) (v : BitVec 16) : (s.setX87Status v).x87status = v := rfl
@[simp] theorem State.setX87Status_gpr (s : State) (v : BitVec 16) : (s.setX87Status v).gpr = s.gpr := rfl
@[simp] theorem State.setX87Status_pc (s : State) (v : BitVec 16) : (s.setX87Status v).pc = s.pc := rfl
@[simp] theorem State.setX87Status_eflags (s : State) (v : BitVec 16) : (s.setX87Status v).eflags = s.eflags := rfl
@[simp] theorem State.setX87Status_mxcsr (s : State) (v : BitVec 16) : (s.setX87Status v).mxcsr = s.mxcsr := rfl
@[simp] theorem State.setX87Status_cr0 (s : State) (v : BitVec 16) : (s.setX87Status v).cr0 = s.cr0 := rfl
@[simp] theorem State.setX87Status_cr2 (s : State) (v : BitVec 16) : (s.setX87Status v).cr2 = s.cr2 := rfl
@[simp] theorem State.setX87Status_cr4 (s : State) (v : BitVec 16) : (s.setX87Status v).cr4 = s.cr4 := rfl
@[simp] theorem State.setX87Status_xcr0 (s : State) (v : BitVec 16) : (s.setX87Status v).xcr0 = s.xcr0 := rfl
@[simp] theorem State.setX87Status_cpl (s : State) (v : BitVec 16) : (s.setX87Status v).cpl = s.cpl := rfl
@[simp] theorem State.setX87Status_segs (s : State) (v : BitVec 16) : (s.setX87Status v).segs = s.segs := rfl
@[simp] theorem State.setX87Status_mem (s : State) (v : BitVec 16) : (s.setX87Status v).mem = s.mem := rfl

@[simp] theorem State.setPc_cfg (s : State) (v : Addr) : (s.setPc v).cfg = s.cfg := rfl
@[simp] theorem State.setPc_ymm (s : State) (v : Addr) : (s.setPc v).ymm = s.ymm := rfl
@[simp] theorem State.setPc_x87data (s : State) (v : Addr) : (s.setPc v).x87data = s.x87data := rfl
@[simp] theorem State.setPc_x87tag (s : State) (v : Addr) : (s.setPc v).x87tag = s.x87tag := rfl
@[simp] theorem State.setPc_x87status (s : State) (v : Addr) : (s.setPc v).x87status = s.x87status := rfl
@[simp] theorem State.setPc_gpr (s : State) (v : Addr) : (s.setPc v).gpr = s.gpr := rfl
@[simp] theorem State.setPc_pc (s : State) (v : Addr) : (s.setPc v).pc = v := rfl
@[simp] theorem State.setPc_eflags (s : State) (v : Addr) : (s.setPc v).eflags = s.eflags := rfl
@[simp] theorem State.setPc_mxcsr (s : State) (v : Addr) : (s.setPc v).mxcsr = s.mxcsr := rfl
@[simp] theorem State.setPc_cr0 (s : State) (v : Addr) : (s.setPc v).cr0 = s.cr0 := rfl
@[simp] theorem State.setPc_cr2 (s : State) (v : Addr) : (s.setPc v).cr2 = s.cr2 := rfl
@[simp] theorem State.setPc_cr4 (s : State) (v : Addr) : (s.setPc v).cr4 = s.cr4 := rfl
@[simp] theorem State.setPc_xcr0 (s : State) (v : Addr) : (s.setPc v).xcr0 = s.xcr0 := rfl
@[simp] theorem State.setPc_cpl (s : State) (v : Addr) : (s.setPc v).cpl = s.cpl := rfl
@[simp] theorem State.setPc_segs (s : State) (v : Addr) : (s.setPc v).segs = s.segs := rfl
@[simp] theorem State.setPc_mem (s : State) (v : Addr) : (s.setPc v).mem = s.mem := rfl

@[simp] theorem State.setMem_cfg (s : State) (m : List Host.Cell) : (s.setMem m).cfg = s.cfg := rfl
@[simp] theorem State.setMem_ymm (s : State) (m : List Host.Cell) : (s.setMem m).ymm = s.ymm := rfl
@[simp] theorem State.setMem_x87data (s : State) (m : List Host.Cell) : (s.setMem m).x87data = s.x87data := rfl
@[simp] theorem State.setMem_x87tag (s : State) (m : List Host.Cell) : (s.setMem m).x87tag = s.x87tag := rfl
@[simp] theorem State.setMem_x87status (s : State) (m : List Host.Cell) : (s.setMem m).x87status = s.x87status := rfl
@[simp] theorem State.setMem_gpr (s : State) (m : List Host.Cell) : (s.setMem m).gpr = s.gpr := rfl
@[simp] theorem State.setMem_pc (s : State) (m : List Host.Cell) : (s.setMem m).pc = s.pc := rfl
@[simp] theorem State.setMem_eflags (s : State) (m : List Host.Cell) : (s.setMem m).eflags = s.eflags := rfl
@[simp] theorem State.setMem_mxcsr (s : State) (m : List Host.Cell) : (s.setMem m).mxcsr = s.mxcsr := rfl
@[simp] theorem State.setMem_cr0 (s : State) (m : List Host.Cell) : (s.setMem m).cr0 = s.cr0 := rfl
@[simp] theorem State.setMem_cr2 (s : State) (m : List Host.Cell) : (s.setMem m).cr2 = s.cr2 := rfl
@[simp] theorem State.setMem_cr4 (s : State) (m : List Host.Cell) : (s.setMem m).cr4 = s.cr4 := rfl
@[simp] theorem State.setMem_xcr0 (s : State) (m : List Host.Cell) : (s.setMem m).xcr0 = s.xcr0 := rfl
@[simp] theorem State.setMem_cpl (s : State) (m : List Host.Cell) : (s.setMem m).cpl = s.cpl := rfl
@[simp] theorem State.setMem_segs (s : State) (m : List Host.Cell) : (s.setMem m).segs = s.segs := rfl
@[simp] theorem State.setMem_mem (s : State) (m : List Host.Cell) : (s.setMem m).mem = m := rfl

@[simp] theorem State.writeYmm_ymm (s : State) (i : BitVec 4) (v : BitVec 256) :
    (s.writeYmm i v).ymm = s.ymm.set i.toNat v i.isLt := rfl

@[simp] theorem State.writeX87_x87data (s : State) (i : BitVec 3) (v : BitVec 80) :
    (s.writeX87 i v).x87data = s.x87data.set i.toNat v i.isLt := rfl

end Sys2Proof.Machine
end

