-- ==== Sys2Proof/Laws/Memory.lean ====
section
/-! SUPPORT. Memory: a read after a write, and that a write keeps the canonical form. -/

namespace Sys2Proof.Machine

theorem Memory.read_cellOf (a : Nat) (b : Byte) (m : List Host.Cell) (x : Nat) :
    Memory.read (cellOf a b ++ m) x = if a = x ∧ b ≠ unlistedByte then b else Memory.read m x := by
  unfold cellOf
  by_cases hb : b = unlistedByte <;> by_cases hx : a = x <;> simp [hb, hx, Memory.read]

/-- Below the first listed address nothing is listed. -/
theorem Memory.read_of_wfFrom {lo : Nat} {m : List Host.Cell} (h : Memory.wfFrom lo m = true) {x : Nat} (hx : x < lo) :
    Memory.read m x = unlistedByte := by
  induction m generalizing lo with
  | nil => rfl
  | cons c t ih =>
    obtain ⟨k, v⟩ := c
    simp only [Memory.wfFrom, Bool.and_eq_true, decide_eq_true_eq] at h
    have hk : k ≠ x := by omega
    simp [Memory.read, hk, ih h.2 (by omega)]

theorem Memory.wfFrom_mono {lo lo' : Nat} {m : List Host.Cell} (h : Memory.wfFrom lo m = true) (hl : lo' ≤ lo) :
    Memory.wfFrom lo' m = true := by
  cases m with
  | nil => rfl
  | cons c t =>
    obtain ⟨k, v⟩ := c
    simp only [Memory.wfFrom, Bool.and_eq_true, decide_eq_true_eq] at h ⊢
    exact ⟨⟨⟨by omega, h.1.1.2⟩, h.1.2⟩, h.2⟩

theorem Memory.wfFrom_cellOf {lo a : Nat} {b : Byte} {m : List Host.Cell} (ha : lo ≤ a) (hb : a < 2 ^ 64)
    (h : Memory.wfFrom (a + 1) m = true) : Memory.wfFrom lo (cellOf a b ++ m) = true := by
  unfold cellOf
  split
  · exact Memory.wfFrom_mono h (by omega)
  · next hne => simp [Memory.wfFrom, ha, h, hne]; omega

theorem Memory.wfFrom_write {lo : Nat} {m : List Host.Cell} (h : Memory.wfFrom lo m = true) {a : Nat} (b : Byte)
    (ha : lo ≤ a) (hb : a < 2 ^ 64) : Memory.wfFrom lo (Memory.write m a b) = true := by
  induction m generalizing lo with
  | nil => simpa [Memory.write] using Memory.wfFrom_cellOf (b := b) ha hb (m := []) rfl
  | cons c t ih =>
    obtain ⟨k, v⟩ := c
    simp only [Memory.wfFrom, Bool.and_eq_true, decide_eq_true_eq] at h
    unfold Memory.write
    split
    · next hlt =>
      refine Memory.wfFrom_cellOf ha hb ?_
      simp only [Memory.wfFrom, Bool.and_eq_true, decide_eq_true_eq]
      exact ⟨⟨⟨by omega, h.1.1.2⟩, h.1.2⟩, h.2⟩
    · split
      · next heq => subst heq; exact Memory.wfFrom_cellOf ha hb h.2
      · simp only [Memory.wfFrom, Bool.and_eq_true, decide_eq_true_eq]
        exact ⟨h.1, ih h.2 (by omega)⟩

/-- Every memory operation keeps the canonical form. -/
theorem Memory.wf_write {m : List Host.Cell} (h : Memory.wf m = true) {a : Nat} (b : Byte) (ha : a < 2 ^ 64) :
    Memory.wf (Memory.write m a b) = true :=
  Memory.wfFrom_write h b (Nat.zero_le _) ha

/-- A read after a write: the byte written there, any other byte as before. -/
theorem Memory.read_write {lo : Nat} {m : List Host.Cell} (h : Memory.wfFrom lo m = true) (a : Nat) (b : Byte) (x : Nat) :
    Memory.read (Memory.write m a b) x = if a = x then b else Memory.read m x := by
  induction m generalizing lo with
  | nil =>
    have := Memory.read_cellOf a b [] x
    simp only [List.append_nil] at this
    simp only [Memory.write, this, Memory.read]
    by_cases hb : b = unlistedByte <;> by_cases hx : a = x <;> simp [hb, hx]
  | cons c t ih =>
    obtain ⟨k, v⟩ := c
    simp only [Memory.wfFrom, Bool.and_eq_true, decide_eq_true_eq] at h
    unfold Memory.write
    split
    · next hlt =>
      rw [Memory.read_cellOf]
      by_cases hx : a = x
      · subst hx
        have hk : k ≠ a := by omega
        by_cases hb : b = unlistedByte
        · simp [hb, Memory.read, hk, Memory.read_of_wfFrom h.2 (show a < k + 1 by omega)]
        · simp [hb]
      · simp [hx]
    · split
      · next heq =>
        subst heq
        rw [Memory.read_cellOf]
        by_cases hx : a = x
        · subst hx
          by_cases hb : b = unlistedByte
          · simp [hb, Memory.read_of_wfFrom h.2 (Nat.lt_succ_self a)]
          · simp [hb]
        · simp [hx, Memory.read]
      · next hne =>
        simp only [Memory.read, ih h.2]
        by_cases hk : k = x
        · have : a ≠ x := by omega
          simp [hk, this]
        · simp [hk]

theorem littleEndian_lt (bs : List Byte) : littleEndian bs < 2 ^ (8 * bs.length) := by
  induction bs with
  | nil => simp [littleEndian]
  | cons b t ih =>
    have := b.isLt
    simp only [littleEndian, List.length_cons, Nat.mul_add, Nat.pow_add, Nat.pow_mul] at *
    omega

/-- Byte `k` of a little-endian number. -/
theorem littleEndian_byte {bs : List Byte} {k : Nat} {b : Byte} (h : bs[k]? = some b) :
    littleEndian bs / 2 ^ (8 * k) % 256 = b.toNat := by
  induction bs generalizing k with
  | nil => simp at h
  | cons c t ih =>
    have := c.isLt
    cases k with
    | zero => simp at h; subst h; simp [littleEndian]; omega
    | succ k =>
      have e : 2 ^ (8 * (k + 1)) = 256 * 2 ^ (8 * k) := by rw [Nat.mul_add, Nat.pow_add]; omega
      have ht : littleEndian (c :: t) / 256 = littleEndian t := by simp only [littleEndian]; omega
      rw [e, ← Nat.div_div_eq_div_mul, ht]
      exact ih (by simpa using h)

/-- A byte store keeps the canonical form and is what the next read of that address gives. -/
theorem State.writeByte_wf {s : State} (h : Memory.wf s.mem = true) (pa : Addr) (b : Byte) :
    Memory.wf (s.writeByte pa b).mem = true :=
  Memory.wf_write h b pa.isLt

theorem State.readByte_writeByte {s : State} (h : Memory.wf s.mem = true) (pa qa : Addr) (b : Byte) :
    (s.writeByte pa b).readByte qa = if pa = qa then b else s.readByte qa := by
  simp only [State.readByte, State.writeByte, State.setMem_mem, Memory.read_write h, BitVec.toNat_inj]

end Sys2Proof.Machine
end

