-- ==== Sys2Proof/Laws/Ops.lean ====
section
/-! SUPPORT. What the named operations can do: registers, answers that may stop, lists of accesses, translation, pc. -/

namespace Sys2Proof.Machine

/-! ## Registers -/

theorem State.readYmm_writeYmm (s : State) (i j : BitVec 4) (v : BitVec 256) :
    (s.writeYmm i v).readYmm j = if i = j then v else s.readYmm j := by
  simp [State.readYmm, Vector.getElem_set, BitVec.toNat_inj]

@[simp] theorem State.readYmm_writeYmm_self (s : State) (i : BitVec 4) (v : BitVec 256) :
    (s.writeYmm i v).readYmm i = v := by
  simp [State.readYmm_writeYmm]

theorem State.readX87_writeX87 (s : State) (i j : BitVec 3) (v : BitVec 80) :
    (s.writeX87 i v).readX87 j = if i = j then v else s.readX87 j := by
  simp [State.readX87, Vector.getElem_set, BitVec.toNat_inj]

@[simp] theorem State.readX87_writeX87_self (s : State) (i : BitVec 3) (v : BitVec 80) :
    (s.writeX87 i v).readX87 i = v := by
  simp [State.readX87_writeX87]

@[simp] theorem State.readYmm_setPc (s : State) (a : Addr) (i : BitVec 4) : (s.setPc a).readYmm i = s.readYmm i := rfl
@[simp] theorem State.readX87_setPc (s : State) (a : Addr) (i : BitVec 3) : (s.setPc a).readX87 i = s.readX87 i := rfl
@[simp] theorem State.readYmm_writeX87 (s : State) (i : BitVec 3) (v : BitVec 80) (j : BitVec 4) :
    (s.writeX87 i v).readYmm j = s.readYmm j := rfl
@[simp] theorem State.readX87_writeYmm (s : State) (i : BitVec 4) (v : BitVec 256) (j : BitVec 3) :
    (s.writeYmm i v).readX87 j = s.readX87 j := rfl
@[simp] theorem State.readX87_setX87Tag (s : State) (v : BitVec 16) (i : BitVec 3) :
    (s.setX87Tag v).readX87 i = s.readX87 i := rfl
@[simp] theorem State.readX87_setX87Status (s : State) (v : BitVec 16) (i : BitVec 3) :
    (s.setX87Status v).readX87 i = s.readX87 i := rfl

@[simp] theorem State.mode_setPc (s : State) (a : Addr) : (s.setPc a).mode = s.mode := rfl
@[simp] theorem State.mode_setMem (s : State) (m : List Host.Cell) : (s.setMem m).mode = s.mode := rfl
@[simp] theorem State.mode_writeYmm (s : State) (i : BitVec 4) (v : BitVec 256) : (s.writeYmm i v).mode = s.mode := rfl
@[simp] theorem State.mode_writeX87 (s : State) (i : BitVec 3) (v : BitVec 80) : (s.writeX87 i v).mode = s.mode := rfl
@[simp] theorem State.mode_setX87Tag (s : State) (v : BitVec 16) : (s.setX87Tag v).mode = s.mode := rfl
@[simp] theorem State.mode_setX87Status (s : State) (v : BitVec 16) : (s.setX87Status v).mode = s.mode := rfl

/-- The low part of a concatenation. -/
theorem extractLsb'_append_low {m n : Nat} (hi : BitVec m) (lo : BitVec n) : (hi ++ lo).extractLsb' 0 n = lo := by
  apply BitVec.eq_of_getLsbD_eq
  intro j hj
  simp [BitVec.getLsbD_append, hj]

/-- The high part of a concatenation. -/
theorem extractLsb'_append_high {m n : Nat} (hi : BitVec m) (lo : BitVec n) : (hi ++ lo).extractLsb' n m = hi := by
  apply BitVec.eq_of_getLsbD_eq
  intro j hj
  simp [BitVec.getLsbD_append, hj]

@[simp] theorem State.readMm_markMmx_writeMm (s : State) (i : BitVec 3) (v : BitVec 64) :
    ((s.writeMm i v).markMmx i).readMm i = v := by
  simp only [State.readMm, State.markMmx, State.readX87_writeX87_self, extractLsb'_append_low, State.writeMm]

@[simp] theorem State.readXmm_writeXmmKeep (s : State) (i : BitVec 4) (v : BitVec 128) :
    (s.writeXmmKeep i v).readXmm i = v := by
  simp only [State.readXmm, State.writeXmmKeep, State.readYmm_writeYmm_self, extractLsb'_append_low]

theorem zeroExtend_eq_append (v : BitVec 128) : v.setWidth 256 = 0#128 ++ v := by
  apply BitVec.eq_of_getLsbD_eq
  intro j hj
  simp only [BitVec.getLsbD_setWidth, BitVec.getLsbD_append, hj, decide_true, Bool.true_and, BitVec.getLsbD_zero]
  split
  · rfl
  · next h => exact BitVec.getLsbD_of_ge v j (by omega)

@[simp] theorem State.readXmm_writeXmmZero (s : State) (i : BitVec 4) (v : BitVec 128) :
    (s.writeXmmZero i v).readXmm i = v := by
  simp only [State.readXmm, State.writeXmmZero, State.readYmm_writeYmm_self, zeroExtend_eq_append, extractLsb'_append_low]

/-- `clearTop` clears bits 13:11 and nothing else. -/
theorem getLsbD_clearTop (v : BitVec 16) (j : Nat) :
    (clearTop v).getLsbD j = (v.getLsbD j && !(decide (11 ≤ j) && decide (j ≤ 13))) := by
  by_cases h : j < 16
  · simp only [clearTop, BitVec.getLsbD_append]
    rcases Nat.lt_or_ge j 11 with h1 | h1
    · simp [h1]
    · rcases Nat.lt_or_ge j 14 with h2 | h2
      · have : j - 11 < 3 := by omega
        simp [show ¬ j < 11 by omega, this, h1]; omega
      · have e : 14 + (j - 11 - 3) = j := by omega
        simp [show ¬ j < 11 by omega, show ¬ j - 11 < 3 by omega, show j - 11 - 3 < 2 by omega, e]; omega
  · simp [BitVec.getLsbD_of_ge _ j (Nat.le_of_not_lt h)]

/-! ## Answers that may stop -/

@[simp] theorem Res.bind_ok {α β : Type} (a : α) (f : α → Res β) : ((Except.ok a : Res α) >>= f) = f a := rfl

@[simp] theorem Res.bind_error {α β : Type} (e : Stop) (f : α → Res β) :
    ((Except.error e : Res α) >>= f) = Except.error e := rfl

theorem Res.bind_eq_ok {α β : Type} {x : Res α} {f : α → Res β} {b : β} :
    (x >>= f) = .ok b ↔ ∃ a, x = .ok a ∧ f a = .ok b := by
  cases x <;> simp

theorem Res.bind_eq_error {α β : Type} {x : Res α} {f : α → Res β} {e : Stop} :
    (x >>= f) = .error e ↔ x = .error e ∨ ∃ a, x = .ok a ∧ f a = .error e := by
  cases x <;> simp

@[simp] theorem Res.toOutcome_ok (t : State) : Res.toOutcome (.ok t) = .next t := rfl

theorem Res.toOutcome_eq_next {r : Res State} {t : State} : r.toOutcome = .next t ↔ r = .ok t := by
  rcases r with (_ | _) | _ <;> simp [Res.toOutcome]

theorem Res.toOutcome_eq_fault {r : Res State} {f : Fault} : r.toOutcome = .fault f ↔ r = .error (.fault f) := by
  rcases r with (_ | _) | _ <;> simp [Res.toOutcome]

theorem Res.toOutcome_eq_refused {r : Res State} {q : Refusal} : r.toOutcome = .refused q ↔ r = .error (.refused q) := by
  rcases r with (_ | _) | _ <;> simp [Res.toOutcome]

/-- All accesses of a list succeed, with these answers. -/
theorem eachInOrder_eq_ok {α β : Type} {f : α → Res β} {l : List α} {ys : List β} :
    eachInOrder f l = .ok ys ↔ l.length = ys.length ∧ ∀ (k : Nat) (x : α) (y : β), l[k]? = some x → ys[k]? = some y → f x = .ok y := by
  induction l generalizing ys with
  | nil =>
    cases ys <;> simp [eachInOrder]
  | cons x t ih =>
    simp only [eachInOrder, Res.bind_eq_ok, Except.ok.injEq]
    constructor
    · rintro ⟨y, hy, zs, hz, rfl⟩
      obtain ⟨h1, h2⟩ := ih.1 hz
      refine ⟨by simp [h1], ?_⟩
      intro k a b ha hb
      cases k with
      | zero => simp at ha hb; subst ha; subst hb; exact hy
      | succ k => simp at ha hb; exact h2 k a b ha hb
    · rintro ⟨h1, h2⟩
      cases ys with
      | nil => simp at h1
      | cons y zs =>
        refine ⟨y, h2 0 x y (by simp) (by simp), zs, ih.2 ⟨by simpa using h1, ?_⟩, rfl⟩
        intro k a b ha hb
        exact h2 (k + 1) a b (by simpa using ha) (by simpa using hb)

/-- The first access that stops gives its stop. -/
theorem eachInOrder_eq_error {α β : Type} {f : α → Res β} {l : List α} {e : Stop} :
    eachInOrder f l = .error e ↔
      ∃ (k : Nat) (x : α), l[k]? = some x ∧ f x = .error e ∧ ∀ (j : Nat) (z : α), j < k → l[j]? = some z → ∃ y, f z = .ok y := by
  induction l with
  | nil => simp [eachInOrder]
  | cons x t ih =>
    simp only [eachInOrder, Res.bind_eq_error, reduceCtorEq, and_false, exists_false, or_false]
    constructor
    · rintro (h | ⟨y, hy, h⟩)
      · exact ⟨0, x, by simp, h, fun j z hj => absurd hj (Nat.not_lt_zero j)⟩
      · obtain ⟨k, a, ha, he, hb⟩ := ih.1 h
        refine ⟨k + 1, a, by simpa using ha, he, ?_⟩
        intro j z hj hz
        cases j with
        | zero => simp at hz; subst hz; exact ⟨y, hy⟩
        | succ j => exact hb j z (by omega) (by simpa using hz)
    · rintro ⟨k, a, ha, he, hb⟩
      cases k with
      | zero => simp at ha; subst ha; exact .inl he
      | succ k =>
        obtain ⟨y, hy⟩ := hb 0 x (by omega) (by simp)
        refine .inr ⟨y, hy, ih.2 ⟨k, a, by simpa using ha, he, ?_⟩⟩
        intro j z hj hz
        exact hb (j + 1) z (by omega) (by simpa using hz)

/-! ## Translation and reads -/

/-- Translate stops only with a page fault, and not in real-address mode. -/
theorem translateAddr_error {s : State} {k : AccessKind} {lin : Addr} {e : Stop} (h : translateAddr s k lin = .error e) :
    s.mode ≠ .real16 ∧ ∃ present rsvd instr,
      e = .fault (.pf s.pc (pageFaultCode present rsvd instr k s.cpl) lin) := by
  unfold translateAddr at h
  split at h
  · cases h
  · next hm =>
    refine ⟨hm, ?_⟩
    split at h
    · cases h
    · split at h
      · cases h
      · next p r i _ =>
        simp only [raise, Except.error.injEq] at h
        exact ⟨p, r, i, h.symm⟩

theorem readOrdinary_ok {s : State} {pa : Addr} {b : Byte} :
    readOrdinary s pa = .ok b ↔ s.isOrdinary pa = true ∧ s.readByte pa = b := by
  unfold readOrdinary
  split <;> simp_all [refuse]

theorem readOrdinary_error {s : State} {pa : Addr} {e : Stop} :
    readOrdinary s pa = .error e ↔ s.isOrdinary pa = false ∧ e = .refused .notOrdinaryMemory := by
  unfold readOrdinary refuse
  split <;> simp_all [@eq_comm _ e]

/-! ## The instruction pointer -/

theorem pcFits_lt {m : Mode} {off : Nat} (h : pcFits m off = true) : off < 2 ^ 64 := by
  cases m <;> simp [pcFits] at h <;> omega

/-- A completed step only moves pc, to an offset that fits. -/
theorem advance_eq_ok {len : Nat} {t t' : State} :
    advance len t = .ok t' ↔ pcFits t.mode (t.pc.toNat + len) = true ∧ t' = t.setPc (t.pc + BitVec.ofNat 64 len) := by
  unfold advance refuse
  split <;> simp_all [@eq_comm _ t']

theorem advance_eq_error {len : Nat} {t : State} {e : Stop} :
    advance len t = .error e ↔ pcFits t.mode (t.pc.toNat + len) = false ∧ e = .refused .pcWrap := by
  unfold advance refuse
  split <;> simp_all [@eq_comm _ e]

/-- Where the next offset fits, adding the length does not wrap. -/
theorem toNat_nextPc {m : Mode} {pc : Addr} {len : Nat} (h : pcFits m (pc.toNat + len) = true) :
    (pc + BitVec.ofNat 64 len).toNat = pc.toNat + len := by
  have := pcFits_lt h
  simp only [BitVec.toNat_add, BitVec.toNat_ofNat]
  omega

end Sys2Proof.Machine
end

