-- ==== Sys2Proof/Laws/PerInstr.lean ====
section
/-! SUPPORT. Statements about every instruction as syntax, one lemma per constructor. -/

namespace Sys2Proof

theorem Disp.length_bytes (d : Disp) : d.bytes.length = d.len := by
  cases d <;> rfl

theorem length_sibBytes (o : Option Sib) : (sibBytes o).length = sibLen o := by
  cases o <;> rfl

theorem length_encodeRM (reg : BitVec 3) (rm : RM) : (encodeRM reg rm).length = 1 + rm.len := by
  cases rm with
  | reg r => rfl
  | mem m => simp [encodeRM, RM.len, Disp.length_bytes, length_sibBytes]; omega

theorem length_encodeLegacy (op : Byte) (o : LegacyOps) : (encodeLegacy op o).length = o.len := by
  simp [encodeLegacy, LegacyOps.len, length_encodeRM]; omega

theorem length_encodeVex (op : Byte) (l : Bool) (o : VexOps) : (encodeVex op l o).length = o.len := by
  cases hv : o.vex <;> simp [encodeVex, encodeVexPrefix, VexOps.len, Vex.len, hv, length_encodeRM] <;> omega

namespace Laws.EncodeLength

/-- The encoding of an instruction has the length of 30_encoding.md R63. -/
def Statement (i : Instr) : Prop := (encode i).length = i.len

theorem psubbMm (o : LegacyOps) : Statement (.psubbMm o) := length_encodeLegacy _ o
theorem psubbXmm (o : LegacyOps) : Statement (.psubbXmm o) := length_encodeLegacy _ o
theorem psubwMm (o : LegacyOps) : Statement (.psubwMm o) := length_encodeLegacy _ o
theorem psubwXmm (o : LegacyOps) : Statement (.psubwXmm o) := length_encodeLegacy _ o
theorem psubdMm (o : LegacyOps) : Statement (.psubdMm o) := length_encodeLegacy _ o
theorem psubdXmm (o : LegacyOps) : Statement (.psubdXmm o) := length_encodeLegacy _ o
theorem vpsubbXmm (o : VexOps) : Statement (.vpsubbXmm o) := length_encodeVex _ _ o
theorem vpsubwXmm (o : VexOps) : Statement (.vpsubwXmm o) := length_encodeVex _ _ o
theorem vpsubdXmm (o : VexOps) : Statement (.vpsubdXmm o) := length_encodeVex _ _ o
theorem vpsubbYmm (o : VexOps) : Statement (.vpsubbYmm o) := length_encodeVex _ _ o
theorem vpsubwYmm (o : VexOps) : Statement (.vpsubwYmm o) := length_encodeVex _ _ o
theorem vpsubdYmm (o : VexOps) : Statement (.vpsubdYmm o) := length_encodeVex _ _ o

end Laws.EncodeLength

end Sys2Proof
end

