-- ==== Sys2Proof/Laws/Decode.lean ====
section
/-! SUPPORT. The parts of the decoder and of the encoder, each against the other. -/

namespace Sys2Proof

/-! ## Prefix bytes -/

theorem prefixOfByte_byte {m : Mode} {p : LegacyPrefix} (h : p.kind = .rex → m = .mode64) :
    prefixOfByte m p.byte = some p := by
  cases p with
  | segment g => cases g <;> rfl
  | rex q =>
    have hm : m = .mode64 := h rfl
    subst hm
    have hq : ∀ w r x b : Bool, prefixOfByte .mode64 (LegacyPrefix.rex ⟨w, r, x, b⟩).byte = some (.rex ⟨w, r, x, b⟩) := by
      decide
    exact hq q.w q.r q.x q.b
  | _ => rfl

theorem prefixOfByte_some {m : Mode} {b : Byte} {p : LegacyPrefix} (h : prefixOfByte m b = some p) :
    p.byte = b ∧ (p.kind = .rex → m = .mode64) := by
  have hb : ∀ b : Byte, (prefixOfByte m b).all (fun p => decide (p.byte = b ∧ (p.kind = .rex → m = .mode64))) = true := by
    cases m <;> decide
  have := hb b
  rw [h] at this
  exact of_decide_eq_true this

/-- A byte that is no prefix ends the run of prefixes. -/
theorem takePrefixes_append {m : Mode} {p : List LegacyPrefix} (h : ∀ q ∈ p, q.kind = .rex → m = .mode64) {b : Byte}
    (hb : prefixOfByte m b = none) (t : List Byte) :
    takePrefixes m (p.map LegacyPrefix.byte ++ b :: t) = (p, b :: t) := by
  induction p with
  | nil => simp [takePrefixes, hb]
  | cons q p ih =>
    have hq := prefixOfByte_byte (h q (by simp))
    have := ih fun r hr => h r (by simp [hr])
    simp [takePrefixes, hq, this]

theorem takePrefixes_spec (m : Mode) (bs : List Byte) :
    bs = (takePrefixes m bs).1.map LegacyPrefix.byte ++ (takePrefixes m bs).2 ∧
      (∀ q ∈ (takePrefixes m bs).1, q.kind = .rex → m = .mode64) ∧
      ∀ b t, (takePrefixes m bs).2 = b :: t → prefixOfByte m b = none := by
  induction bs with
  | nil => simp [takePrefixes]
  | cons b t ih =>
    unfold takePrefixes
    cases hp : prefixOfByte m b with
    | none => simp [hp]
    | some p =>
      obtain ⟨h1, h2⟩ := prefixOfByte_some hp
      refine ⟨?_, ?_, ih.2.2⟩
      · simp [h1, ← ih.1]
      · intro q hq
        rcases List.mem_cons.1 hq with rfl | hq
        · exact h2
        · exact ih.2.1 q hq

/-- Bytes after the run of prefixes stay there. -/
theorem takePrefixes_snoc {m : Mode} {bs : List Byte} {p : List LegacyPrefix} {b : Byte} {t : List Byte}
    (h : takePrefixes m bs = (p, b :: t)) (rest : List Byte) : takePrefixes m (bs ++ rest) = (p, b :: (t ++ rest)) := by
  obtain ⟨h1, h2, h3⟩ := takePrefixes_spec m bs
  rw [h] at h1 h2 h3
  rw [h1]
  simpa using takePrefixes_append h2 (h3 b t rfl) (t ++ rest)

theorem rexOnlyInMode64_iff {m : Mode} {p : List LegacyPrefix} :
    rexOnlyInMode64 m p = true ↔ ∀ q ∈ p, q.kind = .rex → m = .mode64 := by
  unfold rexOnlyInMode64 hasKind
  by_cases hm : m = .mode64 <;> simp [hm]

/-! ## ModRM, SIB, displacement -/

theorem takeDisp_bytes (d : Disp) (t : List Byte) : takeDisp d.size (d.bytes ++ t) = .ok (d, t) := by
  cases d with
  | absent => rfl
  | disp8 v => rfl
  | disp16 v =>
    have : v.extractLsb' 8 8 ++ v.extractLsb' 0 8 = v := by
      apply BitVec.eq_of_getLsbD_eq
      intro j hj
      simp only [BitVec.getLsbD_append, BitVec.getLsbD_extractLsb']
      split
      · next h => simp [h]
      · next h => simp [show j - 8 < 8 by omega, show 8 + (j - 8) = j by omega]
    simp [Disp.size, Disp.bytes, takeDisp, this]
  | disp32 v =>
    have : v.extractLsb' 24 8 ++ v.extractLsb' 16 8 ++ v.extractLsb' 8 8 ++ v.extractLsb' 0 8 = v := by
      apply BitVec.eq_of_getLsbD_eq
      intro j hj
      simp only [BitVec.getLsbD_append, BitVec.getLsbD_extractLsb']
      split
      · next h => simp [h]
      · split
        · next h h2 => simp [h2, show 8 + (j - 8) = j by omega]
        · split
          · next h h2 h3 => simp [h3, show 16 + (j - 8 - 8) = j by omega]
          · next h h2 h3 => simp [show j - 8 - 8 - 8 < 8 by omega, show 24 + (j - 8 - 8 - 8) = j by omega]
    simp [Disp.size, Disp.bytes, takeDisp, this]

theorem takeDisp_ok {z : DispSize} {bs : List Byte} {d : Disp} {t : List Byte} (h : takeDisp z bs = .ok (d, t)) :
    bs = d.bytes ++ t ∧ d.size = z := by
  have e1 : ∀ a b : Byte, BitVec.extractLsb' 0 8 (a ++ b) = b ∧ BitVec.extractLsb' 8 8 (a ++ b) = a :=
    fun a b => ⟨Machine.extractLsb'_append_low a b, Machine.extractLsb'_append_high a b⟩
  have e2 : ∀ a b c e : Byte, BitVec.extractLsb' 0 8 (a ++ b ++ c ++ e) = e ∧
      BitVec.extractLsb' 8 8 (a ++ b ++ c ++ e) = c ∧ BitVec.extractLsb' 16 8 (a ++ b ++ c ++ e) = b ∧
      BitVec.extractLsb' 24 8 (a ++ b ++ c ++ e) = a := by
    intro a b c e
    refine ⟨?_, ?_, ?_, ?_⟩ <;> apply BitVec.eq_of_getLsbD_eq <;> intro j hj <;>
      simp only [BitVec.getLsbD_append, BitVec.getLsbD_extractLsb', hj, decide_true, Bool.true_and]
    · simp [hj]
    · simp [show ¬ 8 + j < 8 by omega, hj]
    · simp [show ¬ 16 + j < 8 by omega, show ¬ 16 + j - 8 < 8 by omega, show 16 + j - 8 - 8 = j by omega, hj]
    · simp [show ¬ 24 + j < 8 by omega, show ¬ 24 + j - 8 < 8 by omega, show ¬ 24 + j - 8 - 8 < 8 by omega,
        show 24 + j - 8 - 8 - 8 = j by omega]
  unfold takeDisp at h
  split at h <;> cases h
  · simp [Disp.bytes, Disp.size]
  · simp [Disp.bytes, Disp.size]
  · next b0 b1 => simp [Disp.bytes, Disp.size, e1]
  · next b0 b1 b2 b3 =>
    obtain ⟨h1, h2, h3, h4⟩ := e2 b3 b2 b1 b0
    simp [Disp.bytes, Disp.size, h1, h2, h3, h4]

theorem sibByte_fields (s : Sib) :
    (⟨(s.ss ++ s.idx ++ s.base : Byte).extractLsb' 6 2, (s.ss ++ s.idx ++ s.base : Byte).extractLsb' 3 3,
      (s.ss ++ s.idx ++ s.base : Byte).extractLsb' 0 3⟩ : Sib) = s := by
  obtain ⟨a, b, c⟩ := s
  simp only [Sib.mk.injEq]
  revert a b c
  decide

theorem sibFields_byte (b : Byte) :
    (b.extractLsb' 6 2 ++ b.extractLsb' 3 3 ++ b.extractLsb' 0 3 : Byte) = b := by
  revert b
  decide

theorem takeSib_bytes (o : Option Sib) (t : List Byte) : takeSib o.isSome (sibBytes o ++ t) = .ok (o, t) := by
  cases o with
  | none => rfl
  | some s => simpa [takeSib, sibBytes] using sibByte_fields s

theorem takeSib_ok {z : Bool} {bs : List Byte} {o : Option Sib} {t : List Byte} (h : takeSib z bs = .ok (o, t)) :
    bs = sibBytes o ++ t ∧ o.isSome = z := by
  unfold takeSib at h
  split at h <;> cases h
  · simp [sibBytes]
  · next b => simp [sibBytes, sibFields_byte]

theorem memMod_bits (d : MemMod) : memMod d.bits = some d := by
  cases d <;> rfl

theorem memMod_some {v : BitVec 2} {d : MemMod} (h : memMod v = some d) : d.bits = v := by
  unfold memMod at h
  repeat' split at h
  all_goals first | (cases h; done) | (cases h; simp_all [MemMod.bits])

theorem memMod_none {v : BitVec 2} (h : memMod v = none) : v = 3 := by
  revert v
  decide

/-- ModRM and what follows it decode to what was encoded. -/
theorem decodeRM_encodeRM {z : AddressSize} (reg : BitVec 3) {rm : RM} (h : rm.wellFormed z = true) (t : List Byte) :
    decodeRM z (encodeRM reg rm ++ t) = .ok (reg, rm, t) := by
  have hf : ∀ (a : BitVec 2) (b c : BitVec 3), (a ++ b ++ c : Byte).extractLsb' 6 2 = a ∧
      (a ++ b ++ c : Byte).extractLsb' 3 3 = b ∧ (a ++ b ++ c : Byte).extractLsb' 0 3 = c := by decide
  cases rm with
  | reg r =>
    obtain ⟨h1, h2, h3⟩ := hf 3#2 reg r
    simp only [encodeRM, List.cons_append, List.nil_append, decodeRM, h1, h2, h3]
    rfl
  | mem m =>
    obtain ⟨mod, rm, sib, disp⟩ := m
    obtain ⟨h1, h2, h3⟩ := hf mod.bits reg rm
    simp only [RM.wellFormed, Bool.and_eq_true, decide_eq_true_eq] at h
    simp only [encodeRM, List.cons_append, decodeRM, h1, h2, h3, memMod_bits, ← h.1, List.append_assoc]
    have e1 := takeSib_bytes sib (disp.bytes ++ t)
    have e2 := takeDisp_bytes disp t
    rw [h.2] at e2
    show (do
      let (sib, t1) ← takeSib sib.isSome (sibBytes sib ++ (disp.bytes ++ t))
      let (disp, t2) ← takeDisp (dispSize z mod rm sib) t1
      Except.ok (reg, RM.mem ⟨mod, rm, sib, disp⟩, t2) : Except DecodeError _) = _
    rw [e1]
    show (do
      let (disp, t2) ← takeDisp (dispSize z mod rm sib) (disp.bytes ++ t)
      Except.ok (reg, RM.mem ⟨mod, rm, sib, disp⟩, t2) : Except DecodeError _) = _
    rw [e2]
    rfl

/-- What ModRM decoding answers is well formed and encodes to the bytes it took. -/
theorem decodeRM_ok {z : AddressSize} {bs : List Byte} {reg : BitVec 3} {rm : RM} {t : List Byte}
    (h : decodeRM z bs = .ok (reg, rm, t)) : bs = encodeRM reg rm ++ t ∧ rm.wellFormed z = true := by
  cases bs with
  | nil => cases h
  | cons b bs =>
    simp only [decodeRM] at h
    split at h
    · next hm =>
      cases h
      have h3 := memMod_none hm
      refine ⟨?_, rfl⟩
      have := sibFields_byte b
      rw [h3] at this
      simpa [encodeRM] using this.symm
    · next md hm =>
      have hb := memMod_some hm
      cases hs : takeSib (needsSib z (b.extractLsb' 0 3)) bs with
      | error e => rw [hs] at h; cases h
      | ok p =>
        obtain ⟨sib, t1⟩ := p
        rw [hs] at h
        change (do
          let (disp, t2) ← takeDisp (dispSize z md (b.extractLsb' 0 3) sib) t1
          Except.ok (b.extractLsb' 3 3, RM.mem ⟨md, b.extractLsb' 0 3, sib, disp⟩, t2) : Except DecodeError _) = _ at h
        cases hd : takeDisp (dispSize z md (b.extractLsb' 0 3) sib) t1 with
        | error e => rw [hd] at h; cases h
        | ok q =>
          obtain ⟨disp, t2⟩ := q
          rw [hd] at h
          cases h
          obtain ⟨e1, e2⟩ := takeSib_ok hs
          obtain ⟨e3, e4⟩ := takeDisp_ok hd
          refine ⟨?_, by simp [RM.wellFormed, e2, e4]⟩
          simp [encodeRM, hb, sibFields_byte, e1, e3]

/-! ## The VEX prefix -/

theorem vexTwoHead_encode (r l : Bool) (v : BitVec 4) :
    vexTwoHead (BitVec.ofBool (!r) ++ (~~~ v) ++ BitVec.ofBool l ++ 1#2) = ⟨.two r v, 1, l, 1⟩ := by
  revert r l v
  decide

theorem vexThreeHead_encode (r x b w l : Bool) (v : BitVec 4) :
    vexThreeHead (BitVec.ofBool (!r) ++ BitVec.ofBool (!x) ++ BitVec.ofBool (!b) ++ 1#5)
      (BitVec.ofBool w ++ (~~~ v) ++ BitVec.ofBool l ++ 1#2) = ⟨.three r x b w v, 1, l, 1⟩ := by
  revert r x b w l v
  decide

theorem vexTwoHead_bytes (p0 : Byte) (h : (vexTwoHead p0).pp = 1) :
    encodeVexPrefix (vexTwoHead p0).l (vexTwoHead p0).vex = [0xC5, p0] := by
  revert p0
  decide

theorem vexThreeHead_bytes (p1 p2 : Byte) (h : (vexThreeHead p1 p2).pp = 1) (hm : (vexThreeHead p1 p2).mmmmm = 1) :
    encodeVexPrefix (vexThreeHead p1 p2).l (vexThreeHead p1 p2).vex = [0xC4, p1, p2] := by
  have e1 : ∀ p1 : Byte, p1.extractLsb' 0 5 = 1 →
      (BitVec.ofBool (!!p1.getLsbD 7) ++ BitVec.ofBool (!!p1.getLsbD 6) ++ BitVec.ofBool (!!p1.getLsbD 5) ++ 1#5 : Byte) = p1 := by
    decide
  have e2 : ∀ p2 : Byte, p2.extractLsb' 0 2 = 1 →
      (BitVec.ofBool (p2.getLsbD 7) ++ (~~~ ~~~ (p2.extractLsb' 3 4)) ++ BitVec.ofBool (p2.getLsbD 2) ++ 1#2 : Byte) = p2 := by
    decide
  simp only [vexThreeHead] at h hm ⊢
  simp only [encodeVexPrefix, e1 p1 hm, e2 p2 h]

/-! ## What a decoded instruction tells of its bytes -/

theorem Except.bind_eq_ok {ε α β : Type} {x : Except ε α} {f : α → Except ε β} {b : β} :
    (x >>= f) = .ok b ↔ ∃ a, x = .ok a ∧ f a = .ok b := by
  rcases x with e | a
  · constructor
    · intro h
      cases h
    · rintro ⟨a, h, -⟩
      cases h
  · constructor
    · exact fun h => ⟨a, rfl, h⟩
    · rintro ⟨a', h, h'⟩
      cases h
      exact h'

theorem elemOfOpcode_some {op : Byte} {e : Elem} (h : elemOfOpcode op = some e) :
    (e = .b ∧ op = 0xF8) ∨ (e = .w ∧ op = 0xF9) ∨ (e = .d ∧ op = 0xFA) := by
  have hop : ∀ op : Byte,
      (elemOfOpcode op).all (fun e => decide ((e = .b ∧ op = 0xF8) ∨ (e = .w ∧ op = 0xF9) ∨ (e = .d ∧ op = 0xFA))) = true := by
    decide
  have := hop op
  rw [h] at this
  exact of_decide_eq_true this

theorem wellFormed_legacyInstr (m : Mode) (e : Elem) (x : Bool) (o : LegacyOps) :
    (legacyInstr e x o).wellFormed m = o.wellFormed m x := by
  cases e <;> cases x <;> rfl

theorem wellFormed_vexInstr (m : Mode) (e : Elem) (l : Bool) (o : VexOps) :
    (vexInstr e l o).wellFormed m = o.wellFormed m := by
  cases e <;> cases l <;> rfl

theorem encode_legacyInstr {op : Byte} {e : Elem} (h : elemOfOpcode op = some e) (x : Bool) (o : LegacyOps) :
    encode (legacyInstr e x o) = encodeLegacy op o := by
  rcases elemOfOpcode_some h with ⟨rfl, rfl⟩ | ⟨rfl, rfl⟩ | ⟨rfl, rfl⟩ <;> cases x <;> rfl

theorem encode_vexInstr {op : Byte} {e : Elem} (h : elemOfOpcode op = some e) (l : Bool) (o : VexOps) :
    encode (vexInstr e l o) = encodeVex op l o := by
  rcases elemOfOpcode_some h with ⟨rfl, rfl⟩ | ⟨rfl, rfl⟩ | ⟨rfl, rfl⟩ <;> cases l <;> rfl

theorem decodeLegacy_ok {m : Mode} {p : List LegacyPrefix} {bs : List Byte} {i : Instr} (h : decodeLegacy m p bs = .ok i) :
    ∃ op e reg rm t, elemOfOpcode op = some e ∧ noRepeatPrefix p = true ∧ prefixesOnce p = true ∧
      bs = op :: (encodeRM reg rm ++ t) ∧ rm.wellFormed (addressSize m p) = true ∧
      i = legacyInstr e (hasKind .opSize p) ⟨p, reg, rm⟩ := by
  cases bs with
  | nil => cases h
  | cons op bs =>
    simp only [decodeLegacy] at h
    split at h
    · cases h
    · next e he =>
      split_ifs at h with hn ho
      obtain ⟨⟨reg, rm, t⟩, h1, h2⟩ := Except.bind_eq_ok.1 h
      cases h2
      obtain ⟨h3, h4⟩ := decodeRM_ok h1
      exact ⟨op, e, reg, rm, t, he, by simpa using hn, by simpa using ho, by rw [h3], h4, rfl⟩

theorem decodeVexBody_ok {m : Mode} {p : List LegacyPrefix} {hd : VexHead} {bs : List Byte} {i : Instr}
    (h : decodeVexBody m p hd bs = .ok i) :
    ∃ op e reg rm t, elemOfOpcode op = some e ∧ hd.pp = 1 ∧ hd.mmmmm = 1 ∧ prefixesOnce p = true ∧
      hd.vex.wellFormed m = true ∧ bs = op :: (encodeRM reg rm ++ t) ∧ rm.wellFormed (addressSize m p) = true ∧
      i = vexInstr e hd.l ⟨p, hd.vex, reg, rm⟩ := by
  cases bs with
  | nil => cases h
  | cons op bs =>
    simp only [decodeVexBody] at h
    split at h
    · cases h
    · next e he =>
      split_ifs at h with hn ho hw
      obtain ⟨⟨reg, rm, t⟩, h1, h2⟩ := Except.bind_eq_ok.1 h
      cases h2
      obtain ⟨h3, h4⟩ := decodeRM_ok h1
      simp only [ne_eq, not_or, not_not] at hn
      exact ⟨op, e, reg, rm, t, he, hn.1, hn.2, by simpa using ho, by simpa using hw, by rw [h3], h4, rfl⟩

end Sys2Proof
end

