-- ==== Sys2Proof/Laws/Lanes.lean ====
section
/-! SUPPORT. What the lane function can do, lane by lane and bit by bit. -/

namespace Sys2Proof.Machine

theorem getLsbD_lane (w : Nat) {W : Nat} (v : BitVec W) (k : Nat) {j : Nat} (hj : j < w) :
    (lane w v k).getLsbD j = v.getLsbD (w * k + j) := by
  simp only [lane, BitVec.getLsbD_extractLsb', hj, decide_true, Bool.true_and]

/-- Bits above the lanes are 0. -/
theorem getLsbD_subLanes_of_ge (w : Nat) {W : Nat} (n : Nat) (a b : BitVec W) {j : Nat} (h : w * n ≤ j) :
    (subLanes w n a b).getLsbD j = false := by
  induction n with
  | zero => simp [subLanes]
  | succ n ih =>
    have e : w * (n + 1) = w * n + w := by ring
    simp only [subLanes, BitVec.getLsbD_or, ih (by omega), BitVec.getLsbD_shiftLeft, BitVec.getLsbD_setWidth, Bool.false_or]
    rw [BitVec.getLsbD_of_ge _ (j - w * n) (by omega)]
    simp

/-- Each lane of the result is the difference of the lanes. -/
theorem lane_subLanes (w : Nat) {W : Nat} (n : Nat) (a b : BitVec W) (hW : w * n ≤ W) {k : Nat} (hk : k < n) :
    lane w (subLanes w n a b) k = lane w a k - lane w b k := by
  induction n with
  | zero => omega
  | succ n ih =>
    have e : w * (n + 1) = w * n + w := by ring
    apply BitVec.eq_of_getLsbD_eq
    intro j hj
    rw [getLsbD_lane _ _ _ hj]
    simp only [subLanes, BitVec.getLsbD_or, BitVec.getLsbD_shiftLeft, BitVec.getLsbD_setWidth]
    rcases Nat.lt_or_ge k n with h | h
    · have h1 : w * k + j < w * n := by
        have := Nat.mul_le_mul_left w (show k + 1 ≤ n by omega)
        have e2 : w * (k + 1) = w * k + w := by ring
        omega
      rw [← ih (by omega) h, getLsbD_lane _ _ _ hj]
      simp [h1]
    · obtain rfl : k = n := by omega
      rw [getLsbD_subLanes_of_ge _ _ _ _ (by omega)]
      simp [show w * k + j < W by omega, show ¬ (w * k + j < w * k) by omega, show w * k + j - w * k = j by omega]
      omega

/-- Values made of n lanes are equal when their lanes are. -/
theorem eq_of_lanes {w n W : Nat} {a b : BitVec W} (hW : w * n = W) (h : ∀ k < n, lane w a k = lane w b k) : a = b := by
  apply BitVec.eq_of_getLsbD_eq
  intro j hj
  subst hW
  have hw : 0 < w := by
    rcases Nat.eq_zero_or_pos w with h0 | h0
    · subst h0; simp at hj
    · exact h0
  have hk : j / w < n := Nat.div_lt_of_lt_mul hj
  have := congrArg (fun v => v.getLsbD (j % w)) (h (j / w) hk)
  simp only [getLsbD_lane _ _ _ (Nat.mod_lt j hw), Nat.div_add_mod] at this
  exact this

/-- The lanes of a value put together from two halves. -/
theorem lane_append (w n : Nat) (hi lo : BitVec (w * n)) (k : Nat) :
    lane w (hi ++ lo) k = if k < n then lane w lo k else lane w hi (k - n) := by
  apply BitVec.eq_of_getLsbD_eq
  intro j hj
  rw [getLsbD_lane _ _ _ hj, BitVec.getLsbD_append]
  have e2 : w * (k + 1) = w * k + w := by ring
  by_cases hk : k < n
  · have := Nat.mul_le_mul_left w (show k + 1 ≤ n by omega)
    rw [if_pos hk, if_pos (by omega), getLsbD_lane _ _ _ hj]
  · have := Nat.mul_le_mul_left w (show n ≤ k by omega)
    rw [if_neg hk, if_neg (by omega), getLsbD_lane _ _ _ hj, Nat.mul_sub]
    congr 1
    omega

end Sys2Proof.Machine
end

