-- ==== Sys2Proof/Laws/Operands.lean ====
section
/-! SUPPORT. What the checks of a form and a memory operand can do. -/

namespace Sys2Proof.Machine

/-! ## The checks of a form -/

theorem isUndefined_iff (c : FormClass) (p : List LegacyPrefix) (s : State) :
    isUndefined c p s = true ↔ Undefined c p s := by
  cases c <;> simp [isUndefined, Undefined, hasFeature, vexUndefined, vexForbidden] <;> tauto

/-- A form is enabled when it is not undefined, CR0.TS = 0 and, for an MMX form, no x87 exception is pending. -/
theorem enabled_iff (c : FormClass) (p : List LegacyPrefix) (s : State) :
    Enabled c p s ↔ ¬ Undefined c p s ∧ s.cr0Ts = false ∧ (c = .mmx → s.x87Es = false) := by
  cases c <;> simp [Enabled, Undefined, vexForbidden] <;> tauto

theorem checkForm_eq_ok {c : FormClass} {p : List LegacyPrefix} {s : State} {u : Unit} :
    checkForm c p s = .ok u ↔ Enabled c p s := by
  rw [enabled_iff, ← isUndefined_iff]
  unfold checkForm checkFpuError raise refuse
  cases s.cr0Ts <;> cases s.x87Es <;> cases s.cr0Ne <;> cases isUndefined c p s <;> cases c <;> simp

/-- The stops of the checks of a form, in the order of 60_exceptions.md R101. -/
theorem checkForm_eq_error {c : FormClass} {p : List LegacyPrefix} {s : State} {e : Stop} :
    checkForm c p s = .error e ↔
      (Undefined c p s ∧ e = .fault (.ud s.pc)) ∨
      (¬ Undefined c p s ∧ s.cr0Ts = true ∧ e = .fault (.nm s.pc)) ∨
      (¬ Undefined c p s ∧ s.cr0Ts = false ∧ c = .mmx ∧ s.x87Es = true ∧
        ((s.cr0Ne = true ∧ e = .fault (.mf s.pc)) ∨ (s.cr0Ne = false ∧ e = .refused .externalFpuError))) := by
  rw [← isUndefined_iff]
  unfold checkForm checkFpuError raise refuse
  cases s.cr0Ts <;> cases s.x87Es <;> cases s.cr0Ne <;> cases isUndefined c p s <;> cases c <;> simp [@eq_comm _ e]

/-! ## Segments and alignment -/

theorem canonical_iff (a : Addr) :
    canonical a = true ↔ ∀ j, 47 ≤ j → j < 64 → a.getLsbD j = a.getLsbD 63 := by
  have hz : a.extractLsb' 47 17 = 0 ↔ ∀ j, 47 ≤ j → j < 64 → a.getLsbD j = false := by
    constructor
    · intro h j h1 h2
      have := congrArg (fun v => v.getLsbD (j - 47)) h
      simpa [show j - 47 < 17 by omega, show 47 + (j - 47) = j by omega] using this
    · intro h
      apply BitVec.eq_of_getLsbD_eq
      intro j hj
      simp [hj, h (47 + j) (by omega) (by omega)]
  have ho : a.extractLsb' 47 17 = 0x1FFFF ↔ ∀ j, 47 ≤ j → j < 64 → a.getLsbD j = true := by
    have hb : ∀ j, j < 17 → (0x1FFFF : BitVec 17).getLsbD j = true := by decide
    constructor
    · intro h j h1 h2
      have := congrArg (fun v => v.getLsbD (j - 47)) h
      rw [hb _ (show j - 47 < 17 by omega)] at this
      simpa [show j - 47 < 17 by omega, show 47 + (j - 47) = j by omega] using this
    · intro h
      apply BitVec.eq_of_getLsbD_eq
      intro j hj
      rw [hb j hj]
      simp [hj, h (47 + j) (by omega) (by omega)]
  unfold canonical
  simp only [Bool.or_eq_true, decide_eq_true_eq, hz, ho]
  constructor
  · rintro (h | h) j h1 h2
    · rw [h j h1 h2, h 63 (by omega) (by omega)]
    · rw [h j h1 h2, h 63 (by omega) (by omega)]
  · intro h
    cases h63 : a.getLsbD 63
    · exact .inl fun j h1 h2 => (h j h1 h2).trans h63
    · exact .inr fun j h1 h2 => (h j h1 h2).trans h63

/-- For an access of at least one byte: the last byte is within a bound when every byte is. -/
theorem bytes_within_iff (off n bound : Nat) (hn : 0 < n) :
    (∀ k < n, off + k ≤ bound) ↔ off + n ≤ bound + 1 := by
  constructor
  · intro h
    have := h (n - 1) (by omega)
    omega
  · intro h k hk
    omega

theorem segmentOk_iff (s : State) (g : Seg) (off : Addr) {n : Nat} (hn : 0 < n) :
    segmentOk s g off n = true ↔ SegmentLegal s g off n := by
  unfold segmentOk SegmentLegal
  cases s.mode <;> simp [canonical_iff, bytes_within_iff _ _ _ hn, and_assoc]

theorem lowBits_eq_zero_iff (a : Addr) (k : Nat) : a.extractLsb' 0 k = 0 ↔ a.toNat % 2 ^ k = 0 := by
  rw [← BitVec.toNat_inj]
  simp

/-- The exception of a misaligned operand. -/
theorem alignmentFault_eq_some {s : State} {c : FormClass} {lin : Addr} {f : Addr → Fault} :
    alignmentFault s c lin = some f ↔
      (c = .mmx ∧ s.alignmentCheck = true ∧ lin.toNat % 8 ≠ 0 ∧ f = .ac) ∨ (c = .sse2 ∧ lin.toNat % 16 ≠ 0 ∧ f = .gp) := by
  have h3 : lin.extractLsb' 0 3 = 0#3 ↔ lin.toNat % 8 = 0 := lowBits_eq_zero_iff lin 3
  have h4 : lin.extractLsb' 0 4 = 0#4 ↔ lin.toNat % 16 = 0 := lowBits_eq_zero_iff lin 4
  cases c <;> simp [alignmentFault, h3, h4, @eq_comm _ f]
  tauto

theorem alignmentFault_eq_none {s : State} {c : FormClass} {lin : Addr} :
    alignmentFault s c lin = none ↔ Aligned c s lin := by
  have h3 : lin.extractLsb' 0 3 = 0#3 ↔ lin.toNat % 8 = 0 := lowBits_eq_zero_iff lin 3
  have h4 : lin.extractLsb' 0 4 = 0#4 ↔ lin.toNat % 16 = 0 := lowBits_eq_zero_iff lin 4
  cases c <;> simp [alignmentFault, Aligned, h3, h4]

theorem operandBytes_pos (c : FormClass) : 0 < c.operandBytes := by
  cases c <;> decide

theorem checkedLinear_eq_ok {s : State} {c : FormClass} {g : Seg} {off lin : Addr} :
    checkedLinear s c g off = .ok lin ↔
      SegmentLegal s g off c.operandBytes ∧ Aligned c s (linearAddress s g off) ∧ lin = linearAddress s g off := by
  rw [← segmentOk_iff _ _ _ (operandBytes_pos c), ← alignmentFault_eq_none]
  unfold checkedLinear raise
  split
  · next h => cases ha : alignmentFault s c (linearAddress s g off) <;> simp [h, @eq_comm _ lin]
  · next h => simp [h]

theorem checkedLinear_eq_error {s : State} {c : FormClass} {g : Seg} {off : Addr} {e : Stop} :
    checkedLinear s c g off = .error e ↔
      (¬ SegmentLegal s g off c.operandBytes ∧ e = .fault (segmentFault g s.pc)) ∨
      (SegmentLegal s g off c.operandBytes ∧
        ∃ f, alignmentFault s c (linearAddress s g off) = some f ∧ e = .fault (f s.pc)) := by
  rw [← segmentOk_iff _ _ _ (operandBytes_pos c)]
  unfold checkedLinear raise
  split
  · next h => cases ha : alignmentFault s c (linearAddress s g off) <;> simp [h, @eq_comm _ e]
  · next h => simp [h, @eq_comm _ e]

/-! ## MemRead -/

/-- The bytes that can be read: each is mapped and ordinary. -/
theorem readLinear_eq_ok {s : State} {lin : Addr} {n : Nat} {bs : List Byte} :
    readLinear s lin n = .ok bs ↔ bs.length = n ∧ ∀ (k : Nat) (b : Byte), bs[k]? = some b →
      ∃ pa, translateAddr s .dataRead (linearByte s lin k) = .ok pa ∧ s.isOrdinary pa = true ∧ s.readByte pa = b := by
  unfold readLinear
  simp only [Res.bind_eq_ok, eachInOrder_eq_ok, readOrdinary_ok, List.length_range]
  constructor
  · rintro ⟨pas, ⟨h1, h2⟩, h3, h4⟩
    refine ⟨by omega, ?_⟩
    intro k b hb
    have hk : k < bs.length := (List.getElem?_eq_some_iff.1 hb).1
    have hk' : k < pas.length := by omega
    refine ⟨pas[k], h2 k k pas[k] (List.getElem?_range (by omega)) (by simp [hk']), h4 k pas[k] b (by simp [hk']) hb⟩
  · rintro ⟨hl, h⟩
    choose! f hf using h
    refine ⟨bs.zipIdx.map fun q => f q.2 q.1, ⟨by simp [hl], ?_⟩, by simp, ?_⟩
    · intro k x y hx hy
      simp only [List.getElem?_map, List.getElem?_zipIdx, Option.map_map, Option.map_eq_some_iff] at hy
      obtain ⟨b, hb, rfl⟩ := hy
      have hx' : x = k := by
        have := List.getElem?_eq_some_iff.1 hx
        obtain ⟨h1, h2⟩ := this
        simpa using h2.symm
      subst hx'
      simpa using (hf x b hb).1
    · intro k x y hx hy
      simp only [List.getElem?_map, List.getElem?_zipIdx, Option.map_map, Option.map_eq_some_iff] at hx
      obtain ⟨b, hb, rfl⟩ := hx
      rw [hb] at hy
      obtain rfl := Option.some.inj hy
      simpa using (hf k b hb).2

/-- The first unmapped byte stops the read, then the first byte that is not ordinary memory. -/
theorem readLinear_eq_error {s : State} {lin : Addr} {n : Nat} {e : Stop} :
    readLinear s lin n = .error e ↔
      (∃ k < n, (∀ j < k, ByteMapped s lin j) ∧ translateAddr s .dataRead (linearByte s lin k) = .error e) ∨
      (Mapped s lin n ∧ ¬ Ordinary s lin n ∧ e = .refused .notOrdinaryMemory) := by
  unfold readLinear
  simp only [Res.bind_eq_error, eachInOrder_eq_error, readOrdinary_error, eachInOrder_eq_ok, List.length_range]
  have hr : ∀ k x : Nat, (List.range n)[k]? = some x ↔ k < n ∧ x = k := by
    intro k x
    rw [List.getElem?_eq_some_iff]
    simp [eq_comm]
  simp only [hr]
  refine or_congr ?_ ?_
  · constructor
    · rintro ⟨k, x, ⟨hk, rfl⟩, he, hb⟩
      exact ⟨x, hk, fun j hj => hb j j hj ⟨by omega, rfl⟩, he⟩
    · rintro ⟨k, hk, hb, he⟩
      exact ⟨k, k, ⟨hk, rfl⟩, he, fun j z hj hz => hz.2 ▸ hb j hj⟩
  · constructor
    · rintro ⟨pas, ⟨h1, h2⟩, k, x, hx, ⟨ho, rfl⟩, _⟩
      refine ⟨?_, ?_, rfl⟩
      · intro j hj
        exact ⟨pas[j], h2 j j pas[j] ⟨hj, rfl⟩ (by simp [h1 ▸ hj])⟩
      · intro hord
        have hk : k < pas.length := (List.getElem?_eq_some_iff.1 hx).1
        have := hord k (by omega) x (h2 k k x ⟨by omega, rfl⟩ hx)
        simp [ho] at this
    · rintro ⟨hm, hno, rfl⟩
      choose! f hf using hm
      refine ⟨(List.range n).map f, ⟨by simp, ?_⟩, ?_⟩
      · rintro k x y ⟨hk, rfl⟩ hy
        simp [hk] at hy
        subst hy
        exact hf x hk
      · -- the first byte that is not ordinary
        have hex : ∃ k, k < n ∧ s.isOrdinary (f k) = false := by
          by_contra hc
          apply hno
          intro k hk pa hpa
          have hp := hf k hk
          rw [hpa] at hp
          cases hp
          by_contra hne
          exact hc ⟨k, hk, by simpa using hne⟩
        classical
        refine ⟨Nat.find hex, f (Nat.find hex), by simp [(Nat.find_spec hex).1], ⟨(Nat.find_spec hex).2, rfl⟩, ?_⟩
        intro j z hj hz
        have hjn : j < n := by have := (Nat.find_spec hex).1; omega
        have hmin := Nat.find_min hex hj
        simp [hjn] at hz
        subst hz
        exact ⟨s.readByte (f j), readOrdinary_ok.2 ⟨by simpa [hjn] using hmin, rfl⟩⟩

theorem memRead_eq_ok {s : State} {c : FormClass} {W : Nat} {g : Seg} {off : Addr} {v : BitVec W} :
    memRead s c W g off = .ok v ↔
      SegmentLegal s g off c.operandBytes ∧ Aligned c s (linearAddress s g off) ∧
        ∃ bs, readLinear s (linearAddress s g off) c.operandBytes = .ok bs ∧ v = BitVec.ofNat W (littleEndian bs) := by
  unfold memRead
  simp only [Res.bind_eq_ok, checkedLinear_eq_ok, Except.ok.injEq]
  constructor
  · rintro ⟨_, ⟨h1, h2, rfl⟩, bs, h3, rfl⟩
    exact ⟨h1, h2, bs, h3, rfl⟩
  · rintro ⟨h1, h2, bs, h3, rfl⟩
    exact ⟨_, ⟨h1, h2, rfl⟩, bs, h3, rfl⟩

/-- When a memory operand stops, and with what, in the order of 60_exceptions.md R101. -/
theorem memRead_eq_error {s : State} {c : FormClass} {W : Nat} {g : Seg} {off : Addr} {e : Stop} :
    memRead s c W g off = .error e ↔
      (¬ SegmentLegal s g off c.operandBytes ∧ e = .fault (segmentFault g s.pc)) ∨
      (SegmentLegal s g off c.operandBytes ∧
        ∃ f, alignmentFault s c (linearAddress s g off) = some f ∧ e = .fault (f s.pc)) ∨
      (SegmentLegal s g off c.operandBytes ∧ Aligned c s (linearAddress s g off) ∧
        readLinear s (linearAddress s g off) c.operandBytes = .error e) := by
  unfold memRead
  simp only [Res.bind_eq_error, checkedLinear_eq_error, checkedLinear_eq_ok, reduceCtorEq, and_false, exists_false,
    or_false, or_assoc]
  refine or_congr Iff.rfl (or_congr Iff.rfl ?_)
  constructor
  · rintro ⟨_, ⟨h1, h2, rfl⟩, h3⟩
    exact ⟨h1, h2, h3⟩
  · rintro ⟨h1, h2, h3⟩
    exact ⟨_, ⟨h1, h2, rfl⟩, h3⟩

/-- A memory operand can be read when no condition of 60_exceptions.md R97 to R100 and no refusal holds for it. -/
theorem memRead_isOk_iff {s : State} {c : FormClass} {W : Nat} {g : Seg} {off : Addr} :
    (∃ v, memRead s c W g off = .ok v) ↔
      SegmentLegal s g off c.operandBytes ∧ Aligned c s (linearAddress s g off) ∧
        Mapped s (linearAddress s g off) c.operandBytes ∧ Ordinary s (linearAddress s g off) c.operandBytes := by
  constructor
  · rintro ⟨v, hv⟩
    obtain ⟨h1, h2, bs, h3, _⟩ := memRead_eq_ok.1 hv
    obtain ⟨hl, hb⟩ := readLinear_eq_ok.1 h3
    refine ⟨h1, h2, ?_, ?_⟩
    · intro k hk
      obtain ⟨pa, hp, _⟩ := hb k bs[k] (by simp [hl ▸ hk])
      exact ⟨pa, hp⟩
    · intro k hk pa hpa
      obtain ⟨qa, hp, ho, _⟩ := hb k bs[k] (by simp [hl ▸ hk])
      rw [hpa] at hp
      cases hp
      exact ho
  · rintro ⟨h1, h2, h3, h4⟩
    cases hr : readLinear s (linearAddress s g off) c.operandBytes with
    | ok bs => exact ⟨_, memRead_eq_ok.2 ⟨h1, h2, bs, hr, rfl⟩⟩
    | error e =>
      rcases readLinear_eq_error.1 hr with ⟨k, hk, _, he⟩ | ⟨_, hno, _⟩
      · obtain ⟨pa, hpa⟩ := h3 k hk
        rw [hpa] at he
        cases he
      · exact absurd h4 hno

/-! ## The value of an r/m operand -/

/-- What MemRead answers is the value of the memory operand, byte by byte. -/
theorem memRead_eq_ok_iff {s : State} {c : FormClass} {W : Nat} (hW : 8 * c.operandBytes = W) {a : Seg × Addr} {v : BitVec W} :
    memRead s c W a.1 a.2 = .ok v ↔ MemoryValue s c a v := by
  subst hW
  have bytes : ∀ {u : BitVec (8 * c.operandBytes)}, memRead s c _ a.1 a.2 = .ok u → MemoryValue s c a u := by
    intro u hu
    obtain ⟨h1, h2, bs, hb, rfl⟩ := memRead_eq_ok.1 hu
    obtain ⟨hl, hb⟩ := readLinear_eq_ok.1 hb
    refine ⟨h1, h2, fun k hk => ?_⟩
    have hk' : bs[k]? = some bs[k] := List.getElem?_eq_getElem (by omega)
    obtain ⟨pa, hp, ho, he⟩ := hb k _ hk'
    refine ⟨pa, hp, ho, BitVec.eq_of_toNat_eq ?_⟩
    have := littleEndian_lt bs
    rw [hl] at this
    simp only [he, BitVec.extractLsb'_toNat, BitVec.toNat_ofNat, Nat.shiftRight_eq_div_pow, Nat.mod_eq_of_lt this]
    exact littleEndian_byte hk'
  refine ⟨bytes, fun h => ?_⟩
  obtain ⟨u, hu⟩ : ∃ u, memRead s c (8 * c.operandBytes) a.1 a.2 = .ok u := by
    refine memRead_isOk_iff.2 ⟨h.1, h.2.1, fun k hk => ?_, fun k hk pa hpa => ?_⟩
    · obtain ⟨pa, hp, _⟩ := h.2.2 k hk
      exact ⟨pa, hp⟩
    · obtain ⟨qa, hq, ho, _⟩ := h.2.2 k hk
      rw [hpa] at hq
      cases hq
      exact ho
  suffices u = v by rw [hu, this]
  refine eq_of_lanes (w := 8) rfl fun k hk => ?_
  obtain ⟨pa, hp, _, he⟩ := h.2.2 k hk
  obtain ⟨qa, hq, _, he'⟩ := (bytes hu).2.2 k hk
  rw [hp] at hq
  cases hq
  exact he'.trans he.symm

theorem readMmSource_eq_ok {o : LegacyOps} {s : State} {b : BitVec 64} : readMmSource o s = .ok b ↔ MmSource o s b := by
  unfold readMmSource MmSource
  cases o.rm with
  | reg r => simp [eq_comm]
  | mem m => exact memRead_eq_ok_iff rfl

theorem readXmmSource_eq_ok {o : LegacyOps} {s : State} {b : BitVec 128} : readXmmSource o s = .ok b ↔ XmmSource o s b := by
  unfold readXmmSource XmmSource
  cases o.rm with
  | reg r => simp [eq_comm]
  | mem m => exact memRead_eq_ok_iff rfl

theorem readVexXmmSource_eq_ok {o : VexOps} {s : State} {b : BitVec 128} :
    readVexXmmSource o s = .ok b ↔ VexXmmSource o s b := by
  unfold readVexXmmSource VexXmmSource
  cases o.rm with
  | reg r => simp [eq_comm]
  | mem m => exact memRead_eq_ok_iff rfl

theorem readVexYmmSource_eq_ok {o : VexOps} {s : State} {b : BitVec 256} :
    readVexYmmSource o s = .ok b ↔ VexYmmSource o s b := by
  unfold readVexYmmSource VexYmmSource
  cases o.rm with
  | reg r => simp [eq_comm]
  | mem m => exact memRead_eq_ok_iff rfl

end Sys2Proof.Machine
end

