-- ==== Sys2Proof/Laws/Exec.lean ====
section
/-! SUPPORT. What executing an instruction can do, once for each step template and once for all twelve forms. -/

namespace Sys2Proof.Machine

/-! ## The four step templates -/

theorem stepMmx_eq_next {f : BitVec 64 → BitVec 64 → BitVec 64} {o : LegacyOps} {s t : State} :
    stepMmx f o s = .next t ↔
      Enabled .mmx o.prefixes s ∧ ∃ b, readMmSource o s = .ok b ∧ pcFits s.mode (s.pc.toNat + o.len) = true ∧
        t = ((s.writeMm o.reg (f (s.readMm o.reg) b)).markMmx o.reg).setPc (s.pc + BitVec.ofNat 64 o.len) := by
  simp only [stepMmx, Res.toOutcome_eq_next, Res.bind_eq_ok, checkForm_eq_ok, advance_eq_ok]
  constructor
  · rintro ⟨_, h, b, hb, hp, rfl⟩; exact ⟨h, b, hb, hp, rfl⟩
  · rintro ⟨h, b, hb, hp, rfl⟩; exact ⟨(), h, b, hb, hp, rfl⟩

theorem stepXmm_eq_next {f : BitVec 128 → BitVec 128 → BitVec 128} {o : LegacyOps} {s t : State} :
    stepXmm f o s = .next t ↔
      Enabled .sse2 o.prefixes s ∧ ∃ b, readXmmSource o s = .ok b ∧ pcFits s.mode (s.pc.toNat + o.len) = true ∧
        t = (s.writeXmmKeep o.xmmReg (f (s.readXmm o.xmmReg) b)).setPc (s.pc + BitVec.ofNat 64 o.len) := by
  simp only [stepXmm, Res.toOutcome_eq_next, Res.bind_eq_ok, checkForm_eq_ok, advance_eq_ok]
  constructor
  · rintro ⟨_, h, b, hb, hp, rfl⟩; exact ⟨h, b, hb, hp, rfl⟩
  · rintro ⟨h, b, hb, hp, rfl⟩; exact ⟨(), h, b, hb, hp, rfl⟩

theorem stepVexXmm_eq_next {f : BitVec 128 → BitVec 128 → BitVec 128} {o : VexOps} {s t : State} :
    stepVexXmm f o s = .next t ↔
      Enabled .vex128 o.prefixes s ∧ ∃ b, readVexXmmSource o s = .ok b ∧ pcFits s.mode (s.pc.toNat + o.len) = true ∧
        t = (s.writeXmmZero o.dst (f (s.readXmm o.vex.vvvv) b)).setPc (s.pc + BitVec.ofNat 64 o.len) := by
  simp only [stepVexXmm, Res.toOutcome_eq_next, Res.bind_eq_ok, checkForm_eq_ok, advance_eq_ok]
  constructor
  · rintro ⟨_, h, b, hb, hp, rfl⟩; exact ⟨h, b, hb, hp, rfl⟩
  · rintro ⟨h, b, hb, hp, rfl⟩; exact ⟨(), h, b, hb, hp, rfl⟩

theorem stepVexYmm_eq_next {f : BitVec 256 → BitVec 256 → BitVec 256} {o : VexOps} {s t : State} :
    stepVexYmm f o s = .next t ↔
      Enabled .vex256 o.prefixes s ∧ ∃ b, readVexYmmSource o s = .ok b ∧ pcFits s.mode (s.pc.toNat + o.len) = true ∧
        t = (s.writeYmm o.dst (f (s.readYmm o.vex.vvvv) b)).setPc (s.pc + BitVec.ofNat 64 o.len) := by
  simp only [stepVexYmm, Res.toOutcome_eq_next, Res.bind_eq_ok, checkForm_eq_ok, advance_eq_ok]
  constructor
  · rintro ⟨_, h, b, hb, hp, rfl⟩; exact ⟨h, b, hb, hp, rfl⟩
  · rintro ⟨h, b, hb, hp, rfl⟩; exact ⟨(), h, b, hb, hp, rfl⟩

/-! ## All twelve forms -/

/-- The shape every form has: the checks of its class, the r/m operand, the writes, and pc moving on. -/
structure ExecShape (i : Instr) (s : State) where
  W : Nat
  source : Res (BitVec W)
  result : BitVec W → State
  exec_eq : exec i s = Res.toOutcome (do
    checkForm i.formClass i.prefixes s
    let b ← source
    advance i.len (result b))
  pc_eq : ∀ b, (result b).pc = s.pc
  mode_eq : ∀ b, (result b).mode = s.mode
  source_reg : memoryOperand i s = none → ∃ b, source = .ok b
  source_mem : ∀ g off, memoryOperand i s = some (g, off) → source = memRead s i.formClass W g off

def execShapeMmx (i : Instr) (o : LegacyOps) (f : BitVec 64 → BitVec 64 → BitVec 64) (s : State)
    (h : exec i s = stepMmx f o s) (hc : i.formClass = .mmx) (hp : i.prefixes = o.prefixes) (hl : i.len = o.len)
    (hr : i.rm = o.rm) (hx : indexBaseBits i = ((effectiveRex o.prefixes).x, (effectiveRex o.prefixes).b)) :
    ExecShape i s where
  W := 64
  source := readMmSource o s
  result := fun b => (s.writeMm o.reg (f (s.readMm o.reg) b)).markMmx o.reg
  exec_eq := by rw [h, hc, hp, hl]; rfl
  pc_eq := fun _ => rfl
  mode_eq := fun _ => rfl
  source_reg := by
    simp only [memoryOperand, readMmSource, hr]
    cases o.rm <;> simp
  source_mem := by
    simp only [memoryOperand, readMmSource, hr, hc, hp, hl, hx]
    cases o.rm <;> simp
    rintro g off he; rw [he]

def execShapeXmm (i : Instr) (o : LegacyOps) (f : BitVec 128 → BitVec 128 → BitVec 128) (s : State)
    (h : exec i s = stepXmm f o s) (hc : i.formClass = .sse2) (hp : i.prefixes = o.prefixes) (hl : i.len = o.len)
    (hr : i.rm = o.rm) (hx : indexBaseBits i = ((effectiveRex o.prefixes).x, (effectiveRex o.prefixes).b)) :
    ExecShape i s where
  W := 128
  source := readXmmSource o s
  result := fun b => s.writeXmmKeep o.xmmReg (f (s.readXmm o.xmmReg) b)
  exec_eq := by rw [h, hc, hp, hl]; rfl
  pc_eq := fun _ => rfl
  mode_eq := fun _ => rfl
  source_reg := by
    simp only [memoryOperand, readXmmSource, hr]
    cases o.rm <;> simp
  source_mem := by
    simp only [memoryOperand, readXmmSource, hr, hc, hp, hl, hx]
    cases o.rm <;> simp
    rintro g off he; rw [he]

def execShapeVexXmm (i : Instr) (o : VexOps) (f : BitVec 128 → BitVec 128 → BitVec 128) (s : State)
    (h : exec i s = stepVexXmm f o s) (hc : i.formClass = .vex128) (hp : i.prefixes = o.prefixes) (hl : i.len = o.len)
    (hr : i.rm = o.rm) (hx : indexBaseBits i = (o.vex.x, o.vex.b)) : ExecShape i s where
  W := 128
  source := readVexXmmSource o s
  result := fun b => s.writeXmmZero o.dst (f (s.readXmm o.vex.vvvv) b)
  exec_eq := by rw [h, hc, hp, hl]; rfl
  pc_eq := fun _ => rfl
  mode_eq := fun _ => rfl
  source_reg := by
    simp only [memoryOperand, readVexXmmSource, hr]
    cases o.rm <;> simp
  source_mem := by
    simp only [memoryOperand, readVexXmmSource, hr, hc, hp, hl, hx]
    cases o.rm <;> simp
    rintro g off he; rw [he]

def execShapeVexYmm (i : Instr) (o : VexOps) (f : BitVec 256 → BitVec 256 → BitVec 256) (s : State)
    (h : exec i s = stepVexYmm f o s) (hc : i.formClass = .vex256) (hp : i.prefixes = o.prefixes) (hl : i.len = o.len)
    (hr : i.rm = o.rm) (hx : indexBaseBits i = (o.vex.x, o.vex.b)) : ExecShape i s where
  W := 256
  source := readVexYmmSource o s
  result := fun b => s.writeYmm o.dst (f (s.readYmm o.vex.vvvv) b)
  exec_eq := by rw [h, hc, hp, hl]; rfl
  pc_eq := fun _ => rfl
  mode_eq := fun _ => rfl
  source_reg := by
    simp only [memoryOperand, readVexYmmSource, hr]
    cases o.rm <;> simp
  source_mem := by
    simp only [memoryOperand, readVexYmmSource, hr, hc, hp, hl, hx]
    cases o.rm <;> simp
    rintro g off he; rw [he]

/-- Every form has the shape. -/
def execShape (i : Instr) (s : State) : ExecShape i s :=
  match i with
  | .psubbMm o => execShapeMmx _ o (subLanes 8 8) s rfl rfl rfl rfl rfl rfl
  | .psubwMm o => execShapeMmx _ o (subLanes 16 4) s rfl rfl rfl rfl rfl rfl
  | .psubdMm o => execShapeMmx _ o (subLanes 32 2) s rfl rfl rfl rfl rfl rfl
  | .psubbXmm o => execShapeXmm _ o (subLanes 8 16) s rfl rfl rfl rfl rfl rfl
  | .psubwXmm o => execShapeXmm _ o (subLanes 16 8) s rfl rfl rfl rfl rfl rfl
  | .psubdXmm o => execShapeXmm _ o (subLanes 32 4) s rfl rfl rfl rfl rfl rfl
  | .vpsubbXmm o => execShapeVexXmm _ o (subLanes 8 16) s rfl rfl rfl rfl rfl rfl
  | .vpsubwXmm o => execShapeVexXmm _ o (subLanes 16 8) s rfl rfl rfl rfl rfl rfl
  | .vpsubdXmm o => execShapeVexXmm _ o (subLanes 32 4) s rfl rfl rfl rfl rfl rfl
  | .vpsubbYmm o => execShapeVexYmm _ o (subLanes 8 32) s rfl rfl rfl rfl rfl rfl
  | .vpsubwYmm o => execShapeVexYmm _ o (subLanes 16 16) s rfl rfl rfl rfl rfl rfl
  | .vpsubdYmm o => execShapeVexYmm _ o (subLanes 32 8) s rfl rfl rfl rfl rfl rfl

/-- The r/m operand of a form stops exactly as its memory operand does. -/
theorem ExecShape.source_eq_error {i : Instr} {s : State} (x : ExecShape i s) {e : Stop} :
    x.source = .error e ↔ ∃ g off, memoryOperand i s = some (g, off) ∧ memRead s i.formClass x.W g off = .error e := by
  cases hm : memoryOperand i s with
  | none => obtain ⟨b, hb⟩ := x.source_reg hm; simp [hb]
  | some p =>
    obtain ⟨g, off⟩ := p
    rw [x.source_mem g off hm]
    simp

theorem ExecShape.source_isOk_iff {i : Instr} {s : State} (x : ExecShape i s) :
    (∃ b, x.source = .ok b) ↔ OperandReady i s := by
  unfold OperandReady
  cases hm : memoryOperand i s with
  | none => simp [x.source_reg hm]
  | some p =>
    obtain ⟨g, off⟩ := p
    rw [x.source_mem g off hm, memRead_isOk_iff]
    simp

/-- The stop of an instruction: that of the checks of its form, that of its memory operand, or the wrap-around of pc. -/
def execStop (i : Instr) (s : State) (e : Stop) : Prop :=
  checkForm i.formClass i.prefixes s = .error e ∨
  (Enabled i.formClass i.prefixes s ∧ ∃ W g off, memoryOperand i s = some (g, off) ∧
    memRead s i.formClass W g off = (.error e : Res (BitVec W))) ∨
  (Enabled i.formClass i.prefixes s ∧ OperandReady i s ∧ ¬ PcReady i s ∧ e = .refused .pcWrap)

theorem memRead_error_width {s : State} {c : FormClass} {W W' : Nat} {g : Seg} {off : Addr} {e : Stop} :
    memRead s c W g off = .error e ↔ memRead s c W' g off = .error e := by
  rw [memRead_eq_error, memRead_eq_error]

theorem exec_inner_eq_error {i : Instr} {s : State} (x : ExecShape i s) {e : Stop} :
    ((do
      checkForm i.formClass i.prefixes s
      let b ← x.source
      advance i.len (x.result b)) : Res State) = .error e ↔ execStop i s e := by
  simp only [Res.bind_eq_error, x.source_eq_error, checkForm_eq_ok, advance_eq_error, x.pc_eq, x.mode_eq, execStop]
  refine or_congr Iff.rfl ?_
  constructor
  · rintro ⟨_, he, ⟨g, off, hm, hr⟩ | ⟨b, hb, hp, rfl⟩⟩
    · exact .inl ⟨he, x.W, g, off, hm, hr⟩
    · exact .inr ⟨he, x.source_isOk_iff.1 ⟨b, hb⟩, by simp [PcReady, hp], rfl⟩
  · rintro (⟨he, W, g, off, hm, hr⟩ | ⟨he, ho, hp, rfl⟩)
    · exact ⟨(), he, .inl ⟨g, off, hm, memRead_error_width.1 hr⟩⟩
    · obtain ⟨b, hb⟩ := x.source_isOk_iff.2 ho
      exact ⟨(), he, .inr ⟨b, hb, by simpa [PcReady] using hp, rfl⟩⟩

theorem exec_eq_fault {i : Instr} {s : State} {f : Fault} : exec i s = .fault f ↔ execStop i s (.fault f) := by
  rw [(execShape i s).exec_eq, Res.toOutcome_eq_fault, exec_inner_eq_error]

theorem exec_eq_refused {i : Instr} {s : State} {q : Refusal} : exec i s = .refused q ↔ execStop i s (.refused q) := by
  rw [(execShape i s).exec_eq, Res.toOutcome_eq_refused, exec_inner_eq_error]

/-- The next state of an instruction is its result with pc moved on. -/
theorem exec_eq_next {i : Instr} {s t : State} (x : ExecShape i s) :
    exec i s = .next t ↔
      Enabled i.formClass i.prefixes s ∧ PcReady i s ∧ ∃ b, x.source = .ok b ∧
        t = (x.result b).setPc (s.pc + BitVec.ofNat 64 i.len) := by
  rw [x.exec_eq, Res.toOutcome_eq_next]
  simp only [Res.bind_eq_ok, checkForm_eq_ok, advance_eq_ok, x.pc_eq, x.mode_eq, PcReady]
  constructor
  · rintro ⟨_, he, b, hb, hp, rfl⟩; exact ⟨he, hp, b, hb, rfl⟩
  · rintro ⟨he, hp, b, hb, rfl⟩; exact ⟨(), he, b, hb, hp, rfl⟩

/-! ## What a completed instruction leaves as it was -/

/-- The next state of an MMX form: one MMX register written and marked, pc moved on. -/
theorem stepMmx_next_shape {f : BitVec 64 → BitVec 64 → BitVec 64} {o : LegacyOps} {s t : State} (h : stepMmx f o s = .next t) :
    ∃ v : BitVec 64, t = ((s.writeMm o.reg v).markMmx o.reg).setPc (s.pc + BitVec.ofNat 64 o.len) := by
  obtain ⟨_, b, _, _, rfl⟩ := stepMmx_eq_next.1 h
  exact ⟨_, rfl⟩

/-- The next state of any other form: one YMM register written, pc moved on. -/
theorem stepXmm_next_shape {f : BitVec 128 → BitVec 128 → BitVec 128} {o : LegacyOps} {s t : State}
    (h : stepXmm f o s = .next t) :
    ∃ v : BitVec 256, t = (s.writeYmm o.xmmReg v).setPc (s.pc + BitVec.ofNat 64 o.len) := by
  obtain ⟨_, b, _, _, rfl⟩ := stepXmm_eq_next.1 h
  exact ⟨_, rfl⟩

theorem stepVexXmm_next_shape {f : BitVec 128 → BitVec 128 → BitVec 128} {o : VexOps} {s t : State}
    (h : stepVexXmm f o s = .next t) :
    ∃ v : BitVec 256, t = (s.writeYmm o.dst v).setPc (s.pc + BitVec.ofNat 64 o.len) := by
  obtain ⟨_, b, _, _, rfl⟩ := stepVexXmm_eq_next.1 h
  exact ⟨_, rfl⟩

theorem stepVexYmm_next_shape {f : BitVec 256 → BitVec 256 → BitVec 256} {o : VexOps} {s t : State}
    (h : stepVexYmm f o s = .next t) :
    ∃ v : BitVec 256, t = (s.writeYmm o.dst v).setPc (s.pc + BitVec.ofNat 64 o.len) := by
  obtain ⟨_, b, _, _, rfl⟩ := stepVexYmm_eq_next.1 h
  exact ⟨_, rfl⟩

/-- The stops of the checks of a form carry the address of the instruction. -/
theorem checkForm_stops {c : FormClass} {p : List LegacyPrefix} {s : State} {e : Stop} (h : checkForm c p s = .error e) :
    e = .fault (.ud s.pc) ∨ e = .fault (.nm s.pc) ∨ e = .fault (.mf s.pc) ∨ e = .refused .externalFpuError := by
  rcases checkForm_eq_error.1 h with ⟨_, h⟩ | ⟨_, _, h⟩ | ⟨_, _, _, _, ⟨_, h⟩ | ⟨_, h⟩⟩ <;> simp [h]

/-- The stops of a memory operand. -/
theorem memRead_stops {s : State} {c : FormClass} {W : Nat} {g : Seg} {off : Addr} {e : Stop}
    (h : memRead s c W g off = .error e) :
    e = .fault (.ss s.pc) ∨ e = .fault (.gp s.pc) ∨ e = .fault (.ac s.pc) ∨ (∃ code lin, e = .fault (.pf s.pc code lin)) ∨
      e = .refused .notOrdinaryMemory := by
  rcases memRead_eq_error.1 h with ⟨_, h⟩ | ⟨_, f, ha, h⟩ | ⟨_, _, h⟩
  · unfold segmentFault at h
    split at h <;> simp [h]
  · rcases alignmentFault_eq_some.1 ha with ⟨_, _, _, rfl⟩ | ⟨_, _, rfl⟩ <;> simp [h]
  · rcases readLinear_eq_error.1 h with ⟨k, _, _, h⟩ | ⟨_, _, h⟩
    · obtain ⟨_, p, r, i, h⟩ := translateAddr_error h
      simp [h]
    · simp [h]

/-- A completed instruction leaves memory, mode, parameters, level and segments as they were and moves pc past itself. -/
theorem exec_next_keeps {i : Instr} {s t : State} (h : exec i s = .next t) :
    t.mem = s.mem ∧ t.mode = s.mode ∧ t.cfg = s.cfg ∧ t.cpl = s.cpl ∧ t.segs = s.segs ∧
      t.pc = s.pc + BitVec.ofNat 64 i.len ∧ PcReady i s := by
  have hp : PcReady i s := ((exec_eq_next (execShape i s)).1 h).2.1
  cases i
  case psubbMm | psubwMm | psubdMm => obtain ⟨v, rfl⟩ := stepMmx_next_shape h; exact ⟨rfl, rfl, rfl, rfl, rfl, rfl, hp⟩
  case psubbXmm | psubwXmm | psubdXmm => obtain ⟨v, rfl⟩ := stepXmm_next_shape h; exact ⟨rfl, rfl, rfl, rfl, rfl, rfl, hp⟩
  case vpsubbXmm | vpsubwXmm | vpsubdXmm => obtain ⟨v, rfl⟩ := stepVexXmm_next_shape h; exact ⟨rfl, rfl, rfl, rfl, rfl, rfl, hp⟩
  case vpsubbYmm | vpsubwYmm | vpsubdYmm => obtain ⟨v, rfl⟩ := stepVexYmm_next_shape h; exact ⟨rfl, rfl, rfl, rfl, rfl, rfl, hp⟩

end Sys2Proof.Machine
end

