-- ==== Sys2Proof/Laws/Fetch.lean ====
section
/-! SUPPORT. What fetching an instruction can do. -/

namespace Sys2Proof.Machine

/-! ## The address of an instruction byte -/

theorem pcFits_iff (m : Mode) (off : Nat) : pcFits m off = true ↔ PcInRange m off := by
  cases m <;> simp only [pcFits, PcInRange, decide_eq_true_eq, Bool.and_eq_true, canonical_iff]
  refine and_congr_right fun h => forall_congr' fun j => forall_congr' fun h1 => forall_congr' fun h2 => ?_
  simp only [← BitVec.testBit_toNat, BitVec.toNat_ofNat, Nat.mod_eq_of_lt h]

theorem codeLimitOk_iff (s : State) (off : Nat) : codeLimitOk s off = true ↔ InCodeLimit s off := by
  unfold codeLimitOk InCodeLimit
  cases s.mode <;> simp

/-- The linear address of byte `k` of the instruction, in integers. -/
theorem linearByte_code (s : State) (k : Nat) :
    linearByte s (linearAddress s .cs s.pc) k = BitVec.ofNat 64 (codeLinear s (s.pc.toNat + k)) := by
  apply BitVec.eq_of_toNat_eq
  unfold linearByte linearAddress segBase wrapLinear codeLinear
  by_cases hm : s.mode = .mode64
  · simp [hm]
  · simp only [hm, false_and, if_false, truncAddr, State.segment, BitVec.toNat_setWidth, BitVec.toNat_add, BitVec.toNat_ofNat]
    omega

theorem fetchAddress_eq (s : State) (k : Nat) :
    fetchAddress s k =
      if pcFits s.mode (s.pc.toNat + k) = true then
        if codeLimitOk s (s.pc.toNat + k) = true then translateAddr s .fetch (BitVec.ofNat 64 (codeLinear s (s.pc.toNat + k)))
        else raise s .gp
      else if k = 0 then raise s .gp
      else refuse .pcWrap := by
  rw [← linearByte_code]
  rfl

theorem fetchByte_eq_ok {s : State} {k : Nat} {b : Byte} :
    fetchByte s k = .ok b ↔ PcInRange s.mode (s.pc.toNat + k) ∧ InCodeLimit s (s.pc.toNat + k) ∧
      ∃ pa, translateAddr s .fetch (BitVec.ofNat 64 (codeLinear s (s.pc.toNat + k))) = .ok pa ∧ s.isOrdinary pa = true ∧
        s.readByte pa = b := by
  unfold fetchByte
  rw [Res.bind_eq_ok, fetchAddress_eq, ← pcFits_iff, ← codeLimitOk_iff]
  unfold raise refuse
  generalize s.pc.toNat + k = off
  split_ifs <;> simp [*, readOrdinary_ok]

/-- What stops the fetch of a byte: the range of pc, the limit of CS, Translate, MemMap. -/
theorem fetchByte_eq_error {s : State} {k : Nat} {e : Stop} :
    fetchByte s k = .error e ↔
      (¬ PcInRange s.mode (s.pc.toNat + k) ∧ e = if k = 0 then .fault (.gp s.pc) else .refused .pcWrap) ∨
      (PcInRange s.mode (s.pc.toNat + k) ∧ ¬ InCodeLimit s (s.pc.toNat + k) ∧ e = .fault (.gp s.pc)) ∨
      (PcInRange s.mode (s.pc.toNat + k) ∧ InCodeLimit s (s.pc.toNat + k) ∧
        (translateAddr s .fetch (BitVec.ofNat 64 (codeLinear s (s.pc.toNat + k))) = .error e ∨
          ∃ pa, translateAddr s .fetch (BitVec.ofNat 64 (codeLinear s (s.pc.toNat + k))) = .ok pa ∧
            s.isOrdinary pa = false ∧ e = .refused .notOrdinaryMemory)) := by
  unfold fetchByte
  rw [Res.bind_eq_error, fetchAddress_eq, ← pcFits_iff, ← codeLimitOk_iff]
  unfold raise refuse
  generalize s.pc.toNat + k = off
  split_ifs <;> simp [*, readOrdinary_error, @eq_comm _ e]

/-! ## What stops a fetch -/

theorem fetchAddress_fault {s : State} {k : Nat} {f : Fault} (h : fetchAddress s k = .error (.fault f)) : f.savedPc = s.pc := by
  unfold fetchAddress at h
  split at h
  · split at h
    · obtain ⟨_, p, r, i, h⟩ := translateAddr_error h
      cases h; rfl
    · cases h; rfl
  · split at h
    · cases h; rfl
    · cases h

theorem fetchByte_fault {s : State} {k : Nat} {f : Fault} (h : fetchByte s k = .error (.fault f)) : f.savedPc = s.pc := by
  rcases Res.bind_eq_error.1 h with h | ⟨pa, _, h⟩
  · exact fetchAddress_fault h
  · cases (readOrdinary_error.1 h).2

/-- A fault that stops the fetch saves the address of the instruction. -/
theorem fetchBytes_fault {s : State} {n k : Nat} {f : Fault} (h : (fetchBytes s n k).2 = .fault f) : f.savedPc = s.pc := by
  induction n generalizing k with
  | zero => cases h
  | succ n ih =>
    unfold fetchBytes at h
    split at h
    · exact ih h
    · next e he => cases h; exact fetchByte_fault he

theorem length_fetchBytes (s : State) (n k : Nat) : (fetchBytes s n k).1.length ≤ n := by
  induction n generalizing k with
  | zero => simp [fetchBytes]
  | succ n ih =>
    unfold fetchBytes
    split
    · simpa using ih (k + 1)
    · simp

/-- Where these bytes can be fetched they are the front of what is fetched; when they are all of it, the fetch stops by
the length limit. -/
theorem fetchBytes_eq {s : State} {bs : List Byte} {n k : Nat} (hl : bs.length ≤ n)
    (h : ∀ (j : Nat) (b : Byte), bs[j]? = some b → fetchByte s (k + j) = .ok b) :
    ∃ r, (fetchBytes s n k).1 = bs ++ r ∧ (bs.length = n → r = [] ∧ (fetchBytes s n k).2 = .refused .tooLong) := by
  induction bs generalizing n k with
  | nil =>
    refine ⟨(fetchBytes s n k).1, rfl, fun hn => ?_⟩
    cases n with
    | zero => exact ⟨rfl, rfl⟩
    | succ n => simp at hn
  | cons b t ih =>
    cases n with
    | zero => simp at hl
    | succ n =>
      obtain ⟨r, h1, h2⟩ := ih (n := n) (k := k + 1) (by simpa using hl) fun j c hc => by
        simpa [Nat.add_assoc, Nat.add_comm 1 j] using h (j + 1) c (by simpa using hc)
      have h0 : fetchByte s k = .ok b := h 0 b (by simp)
      refine ⟨r, by simp [fetchBytes, h0, h1], fun hn => ?_⟩
      simpa [fetchBytes, h0] using h2 (by simpa using hn)

/-- Where these bytes can be fetched and the next one cannot, they are all that is fetched. -/
theorem fetchBytes_eq_stop {s : State} {bs : List Byte} {n k : Nat} {e : Stop} (hl : bs.length < n)
    (h : ∀ (j : Nat) (b : Byte), bs[j]? = some b → fetchByte s (k + j) = .ok b)
    (he : fetchByte s (k + bs.length) = .error e) : fetchBytes s n k = (bs, e) := by
  induction bs generalizing n k with
  | nil =>
    cases n with
    | zero => simp at hl
    | succ n =>
      have he : fetchByte s k = .error e := he
      simp [fetchBytes, he]
  | cons b t ih =>
    cases n with
    | zero => simp at hl
    | succ n =>
      have h0 : fetchByte s k = .ok b := h 0 b (by simp)
      have := ih (n := n) (k := k + 1) (by simpa using hl)
        (fun j c hc => by simpa [Nat.add_assoc, Nat.add_comm 1 j] using h (j + 1) c (by simpa using hc))
        (by simpa [Nat.add_assoc, Nat.add_comm 1] using he)
      simp [fetchBytes, h0, this]

/-- A step that completes runs an instruction that its bytes decode to. -/
theorem step_eq_next {s t : State} (h : step s = .next t) :
    ∃ i, decode s.mode (fetchBytes s 15 0).1 = .ok i ∧ exec i s = .next t := by
  unfold step fetchInstr at h
  split at h
  · next i hi =>
    split at hi
    · next j hj => cases hi; exact ⟨_, hj, h⟩
    · cases hi
  · cases h
  · cases h

end Sys2Proof.Machine
end

