-- ==== Sys2Proof/Laws/Run.lean ====
section
/-! SUPPORT. What a run over a program text can do. -/

namespace Sys2Proof.Machine

/-! ## The bytes of a text -/

/-- Where Translate answers with an address it depends on mode, parameters and level only. -/
theorem translateAddr_eq_ok_congr {s t : State} (hm : t.mode = s.mode) (hc : t.cfg = s.cfg) (hl : t.cpl = s.cpl)
    {k : AccessKind} {lin pa : Addr} : translateAddr t k lin = .ok pa ↔ translateAddr s k lin = .ok pa := by
  unfold translateAddr raise
  rw [hm, hc, hl]
  by_cases h : s.mode = .real16
  · simp [h]
  · simp only [h, if_false]
    cases s.cfg.translation.find? (ruleApplies lin k s.cpl) with
    | none => exact Iff.rfl
    | some r => cases hr : r.result <;> simp [hr]

theorem codeLinear_congr {s t : State} (hm : t.mode = s.mode) (hs : t.segs = s.segs) {off : Nat} :
    codeLinear t off = codeLinear s off := by
  unfold codeLinear
  rw [hm, hs]

/-- A byte fetched from a later pc is a later byte fetched from an earlier one. -/
theorem fetchByte_setPc_add {s : State} {a a' : Addr} {j k : Nat} {b : Byte} (h : a'.toNat = a.toNat + j) :
    fetchByte (s.setPc a') k = .ok b ↔ fetchByte (s.setPc a) (j + k) = .ok b := by
  have ht : ∀ lin pa, translateAddr (s.setPc a') .fetch lin = .ok pa ↔ translateAddr (s.setPc a) .fetch lin = .ok pa :=
    fun _ _ => translateAddr_eq_ok_congr (s := s.setPc a) (t := s.setPc a') rfl rfl rfl
  rw [fetchByte_eq_ok, fetchByte_eq_ok]
  simp only [State.setPc_pc, h, Nat.add_assoc, ht]
  rfl

/-- What is fetched depends on mode, parameters, level, segments and memory. -/
theorem fetchByte_setPc_congr {s t : State} (hm : t.mode = s.mode) (hc : t.cfg = s.cfg) (hl : t.cpl = s.cpl)
    (hs : t.segs = s.segs) (hM : t.mem = s.mem) {a : Addr} {k : Nat} {b : Byte} (h : fetchByte (s.setPc a) k = .ok b) :
    fetchByte (t.setPc a) k = .ok b := by
  obtain ⟨h1, h2, pa, h3, h4, h5⟩ := fetchByte_eq_ok.1 h
  refine fetchByte_eq_ok.2 ⟨?_, ?_, pa, (translateAddr_eq_ok_congr (s := s.setPc a) (t := t.setPc a) hm hc hl).2 ?_, ?_, ?_⟩
  · simpa [hm] using h1
  · simpa [InCodeLimit, hm, hs] using h2
  · rwa [codeLinear_congr (t := t.setPc a) hm hs]
  · simpa [State.isOrdinary, hc] using h4
  · simpa [State.readByte, hM] using h5

/-- A completed instruction leaves the text as it was. -/
theorem textAt_of_exec {i : Instr} {s t : State} (h : exec i s = .next t) {base : Addr} {text : List Byte}
    (ht : TextAt s base text) : TextAt t base text :=
  have ⟨hM, hm, hc, hl, hs, _⟩ := exec_next_keeps h
  fun k b hb => fetchByte_setPc_congr hm hc hl hs hM (ht k b hb)

/-- The rest of a text stands at the rest of its offsets. -/
theorem textAt_append {s : State} {a a' : Addr} {front rest : List Byte} (ht : TextAt s a (front ++ rest))
    (h : a'.toNat = a.toNat + front.length) : TextAt s a' rest := by
  intro k b hb
  rw [fetchByte_setPc_add h]
  exact ht _ b (by simpa [List.getElem?_append_right] using hb)

theorem textAt_front {s : State} {a : Addr} {front rest : List Byte} (ht : TextAt s a (front ++ rest)) : TextAt s a front :=
  fun k b hb => ht k b (by rw [List.getElem?_append_left (List.getElem?_eq_some_iff.1 hb).1]; exact hb)

/-- Every byte of a text has an offset below 2^64. -/
theorem textAt_lt {s : State} {a : Addr} {text : List Byte} (ht : TextAt s a text) {k : Nat} (hk : k < text.length) :
    a.toNat + k < 2 ^ 64 := by
  have := (fetchByte_eq_ok.1 (ht k text[k] (List.getElem?_eq_getElem hk))).1
  exact pcFits_lt ((pcFits_iff _ _).2 this)

/-! ## The instruction a run goes on with -/

theorem textInstr_eq_ok {n : Nat} {s : State} {i : Instr} :
    textInstr n s = .ok i ↔ decode s.mode (fetchBytes s (min 15 n) 0).1 = .ok i := by
  unfold textInstr refuse
  cases decode s.mode (fetchBytes s (min 15 n) 0).1 with
  | ok j => simp
  | error e => simp only; split_ifs <;> simp

/-- An instruction that the end of the text cuts off is refused. -/
theorem textInstr_eq_outside {n : Nat} {s : State} (hn : n < 15) (hd : decode s.mode (fetchBytes s (min 15 n) 0).1 = .error .truncated)
    (hl : (fetchBytes s (min 15 n) 0).1.length = n) : textInstr n s = .error (.refused .outsideText) := by
  unfold textInstr
  simp [hd, hl, hn, refuse]

theorem runInstr_eq_ok {base size : Nat} {s : State} {i : Instr} :
    runInstr base size s = .ok i ↔
      beginsInstruction s (base + size) s.pc.toNat size base = true ∧ textInstr (base + size - s.pc.toNat) s = .ok i := by
  unfold runInstr refuse
  split_ifs <;> simp [*]

/-- A run goes on only from a pc inside the text. -/
theorem beginsInstruction_lt {s : State} {stop target fuel p : Nat} (h : beginsInstruction s stop target fuel p = true) :
    target < stop := by
  induction fuel generalizing p with
  | zero => cases h
  | succ n ih =>
    unfold beginsInstruction at h
    split_ifs at h with hp
    · subst hp; simpa using h
    · split at h
      · exact ih h
      · cases h

/-- A run that no instruction of the text begins for is refused. -/
theorem runText_of_not_begins {base size fuel : Nat} {s : State}
    (h : beginsInstruction s (base + size) s.pc.toNat size base = false) :
    runText base size fuel s = .refused .outsideText := by
  unfold runText runInstr
  simp [h, refuse]

end Sys2Proof.Machine
end

