-- ==== Sys2Proof/Tests/Slice0.lean ====
section
/-! SUPPORT. Tests: the well-formedness checks, decoding of words written out from the spec's encodings, single steps with
the expected results of 95_test_vectors.md, and for every statement with hypotheses a state and operands that meet them. -/

namespace Sys2Proof.Tests

open Sys2Proof.Machine

/-! ## Helpers -/

/-- 64-bit mode, every form enabled, pc = 1000H, the rest as after reset. -/
def flat : State := { State.reset with cr0 := 1, cr4 := 0x40200, xcr0 := 7, pc := 0x1000 }

/-- The same in another mode. -/
def flatIn (c : CodeMode) : State := { flat with cfg := { resetConfig with codeMode := c } }

/-- Bytes in memory from address `a` on. -/
def put (a : Nat) : List Byte → State → State
  | [], s => s
  | b :: t, s => put (a + 1) t (s.writeByte (BitVec.ofNat 64 a) b)

def withGpr (i : Fin 16) (v : BitVec 64) (s : State) : State := { s with gpr := s.gpr.set i v }

def completesWith (f : State → Bool) : Host.Outcome State Fault Refusal → Bool
  | .next t => f t
  | .fault _ => false
  | .refused _ => false

def faultsWith (f : Fault) : Host.Outcome State Fault Refusal → Bool
  | .next _ => false
  | .fault g => decide (g = f)
  | .refused _ => false

def refusedWith (r : Refusal) : Host.Outcome State Fault Refusal → Bool
  | .next _ => false
  | .fault _ => false
  | .refused q => decide (q = r)

theorem exists_next {o : Host.Outcome State Fault Refusal} (h : completesWith (fun _ => true) o = true) : ∃ t, o = .next t := by
  cases o with
  | next t => exact ⟨t, rfl⟩
  | fault f => cases h
  | refused r => cases h

theorem eq_fault {o : Host.Outcome State Fault Refusal} {f : Fault} (h : faultsWith f o = true) : o = .fault f := by
  cases o with
  | next t => cases h
  | fault g => exact congrArg _ (of_decide_eq_true h)
  | refused r => cases h

theorem eq_refused {o : Host.Outcome State Fault Refusal} {r : Refusal} (h : refusedWith r o = true) : o = .refused r := by
  cases o with
  | next t => cases h
  | fault g => cases h
  | refused q => exact congrArg _ (of_decide_eq_true h)

def a64 : BitVec 64 := 0x00017F80FF102000
def b64 : BitVec 64 := 0x0102800101112001
def a128 : BitVec 128 := 0x800000007FFFFFFF0000000000010000
def b128 : BitVec 128 := 0x00000001FFFFFFFF0000000100000001
def a256 : BitVec 256 := 0xFFFFFFFF000000001234567880808080800000007FFFFFFF0000000000010000
def b256 : BitVec 256 := 0x0000000100000001876543210101010100000001FFFFFFFF0000000100000001
def u128 : BitVec 128 := 0xDEADBEEFDEADBEEFDEADBEEFDEADBEEF

/-- The start states of part 2 of 95_test_vectors.md. -/
def mmxStart : State := (flat.writeMm 0 a64).writeMm 1 b64
def xmmStart : State := (flat.writeYmm 0 (u128 ++ a128)).writeYmm 1 (u128 ++ b128)
def vexStart : State := ((flat.writeYmm 0 (u128 ++ u128)).writeYmm 1 (u128 ++ a128)).writeYmm 2 (u128 ++ b128)
def ymmStart : State := ((flat.writeYmm 0 (u128 ++ u128)).writeYmm 1 a256).writeYmm 2 b256

/-- One step from `s` with these bytes at 1000H. -/
def stepOn (bs : List Byte) (s : State) : Host.Outcome State Fault Refusal := step (put 0x1000 bs s)

/-! ## Well-formedness: each check refuses a term that breaks it (30_encoding.md R44, R51 to R56, R61, R63, R65) -/

theorem test_wf_prefix_twice :
    (Instr.psubbMm ⟨[.addrSize, .addrSize], 0, .reg 1⟩).wellFormed .mode64 = false := by decide
theorem test_wf_two_segment_overrides :
    (Instr.psubbMm ⟨[.segment .cs, .segment .ds], 0, .reg 1⟩).wellFormed .mode64 = false := by decide
theorem test_wf_rex_outside_mode64 :
    (Instr.psubbMm ⟨[.rex ⟨false, false, false, false⟩], 0, .reg 1⟩).wellFormed .prot32 = false := by decide
theorem test_wf_legacy_repeat :
    (Instr.psubwMm ⟨[.rep], 0, .reg 1⟩).wellFormed .mode64 = false ∧
    (Instr.psubwMm ⟨[.repne], 0, .reg 1⟩).wellFormed .mode64 = false := by decide
theorem test_wf_mmx_with_66 : (Instr.psubdMm ⟨[.opSize], 0, .reg 1⟩).wellFormed .mode64 = false := by decide
theorem test_wf_xmm_without_66 : (Instr.psubdXmm ⟨[], 0, .reg 1⟩).wellFormed .mode64 = false := by decide
theorem test_wf_sib_missing :
    (Instr.psubbMm ⟨[], 0, .mem ⟨.m00, 4, none, .absent⟩⟩).wellFormed .mode64 = false := by decide
theorem test_wf_sib_not_called_for :
    (Instr.psubbMm ⟨[], 0, .mem ⟨.m00, 0, some ⟨0, 0, 0⟩, .absent⟩⟩).wellFormed .mode64 = false := by decide
theorem test_wf_displacement_size :
    (Instr.psubbMm ⟨[], 0, .mem ⟨.m01, 0, none, .absent⟩⟩).wellFormed .mode64 = false ∧
    (Instr.psubbMm ⟨[], 0, .mem ⟨.m00, 6, none, .absent⟩⟩).wellFormed .real16 = false := by decide
theorem test_wf_vex_high_register_outside_mode64 :
    (Instr.vpsubbXmm ⟨[], .three false false true false 0, 0, .reg 0⟩).wellFormed .prot32 = false ∧
    (Instr.vpsubbXmm ⟨[], .two false 8, 0, .reg 0⟩).wellFormed .prot32 = false ∧
    (Instr.vpsubbXmm ⟨[], .two true 0, 0, .reg 0⟩).wellFormed .prot32 = false := by decide
theorem test_wf_vex_prefix_twice :
    (Instr.vpsubwYmm ⟨[.addrSize, .addrSize], .two false 0, 0, .reg 0⟩).wellFormed .mode64 = false := by decide
theorem test_wf_vex_rex_outside_mode64 :
    (Instr.vpsubwYmm ⟨[.rex ⟨false, false, false, false⟩], .two false 0, 0, .reg 0⟩).wellFormed .prot32 = false := by decide
theorem test_wf_vex_operand :
    (Instr.vpsubwYmm ⟨[], .two false 0, 0, .mem ⟨.m10, 0, none, .disp8 0⟩⟩).wellFormed .mode64 = false := by decide

/-- Seven different prefixes and a VEX form with SIB and disp32: 16 bytes. -/
def tooLongVex : VexOps :=
  ⟨[.opSize, .addrSize, .lock, .repne, .rep, .segment .fs, .rex ⟨false, false, false, false⟩],
    .two false 0, 0, .mem ⟨.m10, 4, some ⟨0, 0, 0⟩, .disp32 0⟩⟩

theorem test_wf_vex_length :
    tooLongVex.len = 16 ∧ (Instr.vpsubbXmm tooLongVex).wellFormed .mode64 = false ∧
    (Instr.vpsubbXmm { tooLongVex with rm := .mem ⟨.m01, 4, some ⟨0, 0, 0⟩, .disp8 0⟩ }).wellFormed .mode64 = true := by
  decide

/-- In the legacy shape 16 bytes take a repeated prefix, which another check refuses as well. -/
theorem test_wf_legacy_length :
    (⟨List.replicate 13 .addrSize, 0, .reg 1⟩ : LegacyOps).len = 16 ∧
    (Instr.psubbMm ⟨List.replicate 13 .addrSize, 0, .reg 1⟩).wellFormed .mode64 = false := by decide

/-! ## Decoding: one word of every form, written out from its encoding (95_test_vectors.md part 5; 30_encoding.md R42 to
R58) -/

theorem test_decode_psubbMm : decode .mode64 [0x0F, 0xF8, 0xC1] = .ok (.psubbMm ⟨[], 0, .reg 1⟩) := by decide
theorem test_decode_psubwMm :
    decode .mode64 [0x0F, 0xF9, 0x4B, 0x08] = .ok (.psubwMm ⟨[], 1, .mem ⟨.m01, 3, none, .disp8 8⟩⟩) := by decide
theorem test_decode_psubdMm : decode .mode64 [0x0F, 0xFA, 0xDB] = .ok (.psubdMm ⟨[], 3, .reg 3⟩) := by decide
theorem test_decode_psubbXmm :
    decode .mode64 [0x66, 0x44, 0x0F, 0xF8, 0xC1] =
      .ok (.psubbXmm ⟨[.opSize, .rex ⟨false, true, false, false⟩], 0, .reg 1⟩) := by decide
theorem test_decode_psubwXmm :
    decode .mode64 [0x66, 0x0F, 0xF9, 0x04, 0x25, 0x00, 0x20, 0x00, 0x00] =
      .ok (.psubwXmm ⟨[.opSize], 0, .mem ⟨.m00, 4, some ⟨0, 4, 5⟩, .disp32 0x2000⟩⟩) := by decide
theorem test_decode_psubdXmm :
    decode .mode64 [0x66, 0x0F, 0xFA, 0x44, 0x88, 0x10] =
      .ok (.psubdXmm ⟨[.opSize], 0, .mem ⟨.m01, 4, some ⟨2, 1, 0⟩, .disp8 0x10⟩⟩) := by decide
theorem test_decode_vpsubbXmm :
    decode .mode64 [0xC5, 0x71, 0xF8, 0xC2] = .ok (.vpsubbXmm ⟨[], .two true 1, 0, .reg 2⟩) ∧
    decode .mode64 [0xC4, 0xE1, 0xF1, 0xF8, 0xC2] =
      .ok (.vpsubbXmm ⟨[], .three false false false true 1, 0, .reg 2⟩) := by decide
theorem test_decode_vpsubwXmm :
    decode .mode64 [0xC4, 0xC1, 0x39, 0xF9, 0x00] =
      .ok (.vpsubwXmm ⟨[], .three false false true false 8, 0, .mem ⟨.m00, 0, none, .absent⟩⟩) := by decide
theorem test_decode_vpsubdXmm :
    decode .mode64 [0xC5, 0xF1, 0xFA, 0xD2] = .ok (.vpsubdXmm ⟨[], .two false 1, 2, .reg 2⟩) := by decide
theorem test_decode_vpsubbYmm :
    decode .mode64 [0xC5, 0xD5, 0xF8, 0xED] = .ok (.vpsubbYmm ⟨[], .two false 5, 5, .reg 5⟩) := by decide
theorem test_decode_vpsubwYmm :
    decode .mode64 [0xC5, 0xF5, 0xF9, 0xC2] = .ok (.vpsubwYmm ⟨[], .two false 1, 0, .reg 2⟩) := by decide
theorem test_decode_vpsubdYmm :
    decode .mode64 [0xC5, 0xFD, 0xFA, 0x05, 0x00, 0x01, 0x00, 0x00] =
      .ok (.vpsubdYmm ⟨[], .two false 0, 0, .mem ⟨.m00, 5, none, .disp32 0x100⟩⟩) := by decide

/-- 16-bit addressing outside 64-bit mode: rm = 110 with mod = 00 is a disp16 (30_encoding.md R54). -/
theorem test_decode_16_bit_addressing :
    decode .real16 [0x0F, 0xF8, 0x06, 0x34, 0x12] = .ok (.psubbMm ⟨[], 0, .mem ⟨.m00, 6, none, .disp16 0x1234⟩⟩) := by decide

/-- X28 to X35 of 95_test_vectors.md. -/
theorem test_decode_refusals :
    decode .mode64 [0xF3, 0x0F, 0xF8, 0xC1] = .error .prefixNotInScope ∧
    decode .mode64 [0xF2, 0x0F, 0xFA, 0xC1] = .error .prefixNotInScope ∧
    decode .mode64 [0x66, 0x66, 0x0F, 0xF8, 0xC1] = .error .redundantPrefix ∧
    decode .mode64 [0x2E, 0x3E, 0x0F, 0xF8, 0x03] = .error .redundantPrefix ∧
    decode .mode64 [0xC5, 0xF0, 0xF8, 0xC2] = .error .notThisFamily ∧
    decode .mode64 [0xC4, 0xE2, 0x71, 0xF8, 0xC2] = .error .notThisFamily ∧
    decode .mode64 [0x0F, 0xFB, 0xC1] = .error .notThisFamily ∧
    decode .prot32 [0xC4, 0xC1, 0x71, 0xF8, 0xC0] = .error .vexHighRegOutside64 := by decide

/-- The opcode table's rows 1, 2 and 7 (log 20). -/
theorem test_decodeTableWord :
    decodeTableWord 24 0x0FF8C1 = some (.psubbMm ⟨[], 0, .reg 1⟩) ∧
    decodeTableWord 32 0x660FF8C1 = some (.psubbXmm ⟨[.opSize], 0, .reg 1⟩) ∧
    decodeTableWord 32 0xC5F1F8C2 = some (.vpsubbXmm ⟨[], .two false 1, 0, .reg 2⟩) := by decide

/-! ## Steps: the vectors of 95_test_vectors.md -/

theorem test_V1_psubbMm :
    completesWith (fun t => decide (t.readMm 0 = 0xFFFFFF7FFEFF00FF) && decide (t.pc = 0x1003) && decide (t.x87tag = 0) &&
      decide ((t.readX87 0).extractLsb' 64 16 = 0xFFFF)) (stepOn [0x0F, 0xF8, 0xC1] mmxStart) = true := by decide
theorem test_V2_psubwMm :
    completesWith (fun t => decide (t.readMm 0 = 0xFEFFFF7FFDFFFFFF) && decide (t.readMm 1 = b64))
      (stepOn [0x0F, 0xF9, 0xC1] mmxStart) = true := by decide
theorem test_V3_psubdMm :
    completesWith (fun t => decide (t.readMm 0 = 0xFEFEFF7FFDFEFFFF)) (stepOn [0x0F, 0xFA, 0xC1] mmxStart) = true := by decide
theorem test_V7_psubbXmm :
    completesWith (fun t => decide (t.readYmm 0 = u128 ++ 0x800000FF80000000000000FF000100FF#128))
      (stepOn [0x66, 0x0F, 0xF8, 0xC1] xmmStart) = true := by decide
theorem test_V8_psubwXmm :
    completesWith (fun t => decide (t.readYmm 0 = u128 ++ 0x8000FFFF800000000000FFFF0001FFFF#128))
      (stepOn [0x66, 0x0F, 0xF9, 0xC1] xmmStart) = true := by decide
theorem test_V9_psubdXmm :
    completesWith (fun t => decide (t.readYmm 0 = u128 ++ 0x7FFFFFFF80000000FFFFFFFF0000FFFF#128))
      (stepOn [0x66, 0x0F, 0xFA, 0xC1] xmmStart) = true := by decide
theorem test_V10_vpsubbXmm :
    completesWith (fun t => decide (t.readYmm 0 = 0x800000FF80000000000000FF000100FF) && decide (t.pc = 0x1004))
      (stepOn [0xC5, 0xF1, 0xF8, 0xC2] vexStart) = true := by decide
theorem test_V11_vpsubwXmm :
    completesWith (fun t => decide (t.readYmm 0 = 0x8000FFFF800000000000FFFF0001FFFF))
      (stepOn [0xC5, 0xF1, 0xF9, 0xC2] vexStart) = true := by decide
theorem test_V12_vpsubdXmm :
    completesWith (fun t => decide (t.readYmm 0 = 0x7FFFFFFF80000000FFFFFFFF0000FFFF))
      (stepOn [0xC5, 0xF1, 0xFA, 0xC2] vexStart) = true := by decide
theorem test_V13_vpsubbYmm :
    completesWith (fun t => decide (t.readYmm 0 = 0xFFFFFFFE000000FF8BCF13577F7F7F7F800000FF80000000000000FF000100FF))
      (stepOn [0xC5, 0xF5, 0xF8, 0xC2] ymmStart) = true := by decide
theorem test_V14_vpsubwYmm :
    completesWith (fun t => decide (t.readYmm 0 = 0xFFFFFFFE0000FFFF8ACF13577F7F7F7F8000FFFF800000000000FFFF0001FFFF))
      (stepOn [0xC5, 0xF5, 0xF9, 0xC2] ymmStart) = true := by decide
theorem test_V15_vpsubdYmm :
    completesWith (fun t => decide (t.readYmm 0 = 0xFFFFFFFEFFFFFFFF8ACF13577F7F7F7F7FFFFFFF80000000FFFFFFFF0000FFFF))
      (stepOn [0xC5, 0xF5, 0xFA, 0xC2] ymmStart) = true := by decide


/-- Alignment checking on: CR0.AM, EFLAGS.AC, CPL 3. -/
def checked (s : State) : State := { s with cr0 := 0x40001, eflags := 0x40002, cpl := 3 }

/-- Linear addresses `lo` to `hi` are not present. -/
def notPresent (lo hi : Addr) (s : State) : State :=
  { s with cfg := { s.cfg with translation := [⟨lo, hi, none, none, .pageFault false false false⟩] } }

def withoutAvx2 (s : State) : State :=
  { s with cfg := { s.cfg with features := { hasMmx := true, hasSse2 := true, hasAvx := true, hasAvx2 := false } } }

/-- X22. -/
theorem test_X22_psubbMm :
    faultsWith (.ac 0x1000) (stepOn [0x0F, 0xF8, 0x00] (withGpr 0 0x1001 (checked mmxStart))) = true := by decide
/-- P2, step 2. -/
theorem test_P2_psubwMm :
    completesWith (fun t => decide (t.readMm 1 = 0x0FFF1FFE2FFD3FFC))
      (stepOn [0x0F, 0xF9, 0x4B, 0x08] (put 0x8008 [4, 0, 3, 0, 2, 0, 1, 0] (withGpr 3 0x8000 (flat.writeMm 1 0x1000200030004000))))
      = true := by decide
/-- V26. -/
theorem test_V26_psubdMm :
    completesWith (fun t => decide (t.readMm 3 = 0)) (stepOn [0x0F, 0xFA, 0xDB] (flat.writeMm 3 a64)) = true := by decide
/-- X26. -/
theorem test_X26_psubbXmm :
    faultsWith (.pf 0x1000 4 0x5000)
      (stepOn [0x66, 0x0F, 0xF8, 0x00] (withGpr 0 0x5000 (notPresent 0x5000 0x5FFF { xmmStart with cpl := 3 }))) = true := by
  decide
/-- X25. -/
theorem test_X25_psubwXmm :
    faultsWith (.ss 0x1000) (stepOn [0x66, 0x0F, 0xF9, 0x45, 0x00] (withGpr 5 0x800000000000 xmmStart)) = true := by decide
/-- E6: register numbers 15 through REX.R and REX.B. -/
theorem test_E6_psubdXmm :
    completesWith (fun t => decide (t.readYmm 15 = u128 ++ 0#128))
      (stepOn [0x66, 0x45, 0x0F, 0xFA, 0xFF] (flat.writeYmm 15 (u128 ++ a128))) = true := by decide
/-- X20: no alignment rule for VEX; the bytes of P4 at 1001H are the operand of its last variant. -/
theorem test_X20_vpsubbXmm :
    completesWith (fun t => decide (t.readYmm 0 = 0x5FE0E1E264E5E6E7E7E8E9EAECEDEDEE))
      (stepOn [0xC5, 0xF9, 0xF8, 0x00] (put 0x3001
        [0x11, 0x12, 0x13, 0x14, 0x15, 0x16, 0x17, 0x18, 0x19, 0x1A, 0x1B, 0x1C, 0x1D, 0x1E, 0x1F, 0x20]
        (withGpr 0 0x3001 (flat.writeYmm 0 (u128 ++ 0x7FFFFFFF80000000FFFFFFFF0000FFFF#128))))) = true := by decide
/-- V17. -/
theorem test_V17_vpsubwXmm :
    completesWith (fun t => decide (t.readYmm 1 = 0)) (stepOn [0xC5, 0xF1, 0xF9, 0xC9] vexStart) = true := by decide
/-- V18: the destination is the subtrahend. -/
theorem test_V18_vpsubdXmm :
    completesWith (fun t => decide (t.readYmm 2 = 0x7FFFFFFF80000000FFFFFFFF0000FFFF) && decide (t.readYmm 1 = u128 ++ a128))
      (stepOn [0xC5, 0xF1, 0xFA, 0xD2] vexStart) = true := by decide
/-- X27: the second page of the operand faults. -/
theorem test_X27_vpsubbYmm :
    faultsWith (.pf 0x1000 0 0x6000)
      (stepOn [0xC5, 0xFD, 0xF8, 0x00] (withGpr 0 0x5FF0 (notPresent 0x6000 0x6FFF ymmStart))) = true := by decide
/-- X1 with the word form. -/
theorem test_X1_vpsubwYmm :
    faultsWith (.ud 0x1000) (stepOn [0xC5, 0xF5, 0xF9, 0xC2] (withoutAvx2 ymmStart)) = true := by decide
/-- E15: the RIP-relative operand of the instruction at 1000H, 8 bytes long, with disp32 100H lies at 1108H. -/
theorem test_E15_vpsubdYmm :
    completesWith (fun t => decide (t.readYmm 0 = 0xFFFFFFFFFFFFFFFF) && decide (t.pc = 0x1008))
      (stepOn [0xC5, 0xFD, 0xFA, 0x05, 0x00, 0x01, 0x00, 0x00] (put 0x1108 [1, 0, 0, 0, 1] flat)) = true := by decide

/-- A table word runs as the first instruction after reset: fetched at FFFFFFF0H, PSUBB mm0, mm1 completes. -/
theorem test_first_step_after_reset :
    completesWith (fun t => decide (t.pc = 0xFFF3)) (step (State.reset.withFetchWord 24 0x0FF8C1)) = true ∧
    faultsWith (.ud 0xFFF0) (step (State.reset.withFetchWord 32 0x660FF8C1)) = true := by decide

theorem test_memory_canonical : Memory.wf (put 0x1000 [0x0F, 0, 0xC1] (put 0x1000 [1, 2, 3] flat)).mem = true := by decide

/-! ## Witnesses: for every statement with hypotheses, data that meet them -/

/-- PSUBB mm0, [rbx] and its like: a memory operand through DS at RBX + 8, of each class. -/
def memRbx : RM := .mem ⟨.m01, 3, none, .disp8 8⟩
def memRbp : RM := .mem ⟨.m01, 5, none, .disp8 0⟩
def mmReg : LegacyOps := ⟨[], 0, .reg 1⟩
def mmMem : LegacyOps := ⟨[], 0, memRbx⟩
def xmmRegOps : LegacyOps := ⟨[.opSize], 0, .reg 1⟩
def xmmMem : LegacyOps := ⟨[.opSize], 0, memRbx⟩
def vexReg : VexOps := ⟨[], .two false 1, 0, .reg 2⟩
def vexMem : VexOps := ⟨[], .two false 1, 0, memRbx⟩

/-- The longest encodings of 30_encoding.md R63 in either shape, 12 bytes. -/
def longLegacy : LegacyOps :=
  ⟨[.segment .fs, .addrSize, .opSize, .rex ⟨false, false, false, false⟩], 0, .mem ⟨.m10, 4, some ⟨0, 0, 0⟩, .disp32 1⟩⟩
def longVex : VexOps :=
  ⟨[.segment .fs, .addrSize], .three false false false false 0, 0, .mem ⟨.m10, 4, some ⟨0, 0, 0⟩, .disp32 1⟩⟩

theorem witness_DecodeOfEncodeIsIdentity :
    (Instr.psubdXmm longLegacy).wellFormed .mode64 = true ∧ (Instr.vpsubwYmm longVex).wellFormed .mode64 = true ∧
    (Instr.psubbMm ⟨[], 7, .mem ⟨.m00, 6, none, .disp16 0xFFFF⟩⟩).wellFormed .real16 = true ∧
    (Instr.vpsubbXmm ⟨[], .two false 7, 7, .reg 7⟩).wellFormed .v86 = true := by decide

theorem witness_DecodedInstructionIsWellFormedAndReencodes :
    decode .mode64 [0x66, 0x45, 0x0F, 0xFA, 0xFF, 0x00] =
      .ok (.psubdXmm ⟨[.opSize, .rex ⟨false, true, false, true⟩], 7, .reg 7⟩) := by decide

theorem witness_InstructionLengthBounds :
    (Instr.psubbMm mmReg).wellFormed .mode64 = true ∧ (Instr.psubbMm mmReg).len = 3 ∧
    (Instr.psubdXmm longLegacy).wellFormed .mode64 = true ∧ hasKind .lock longLegacy.prefixes = false ∧ longLegacy.len = 12 ∧
    (Instr.vpsubbYmm longVex).wellFormed .mode64 = true ∧ hasKind .lock longVex.prefixes = false ∧
    vexForbidden longVex.prefixes = false ∧ longVex.len = 12 := by decide

theorem witness_LegacyShapeWithRepeatPrefixIsRefused :
    rexOnlyInMode64 .prot32 [.rep] = true ∧ rexOnlyInMode64 .mode64 (.repne :: List.replicate 12 .opSize) = true ∧
    (LegacyPrefix.repne :: List.replicate 12 .opSize).length = 13 := by decide

theorem witness_VexOutside64BitMode :
    (0xBF : Byte).extractLsb' 6 2 ≠ 3 ∧
    ((0xC1 : Byte).extractLsb' 6 2 = 3 ∧ (0xC1 : Byte).extractLsb' 0 5 = 1 ∧ (0x71 : Byte).extractLsb' 0 2 = 1 ∧
      (0xC1 : Byte).getLsbD 5 = false) ∧
    ((0xE1 : Byte).extractLsb' 6 2 = 3 ∧ (0xE1 : Byte).extractLsb' 0 5 = 1 ∧ (0x39 : Byte).extractLsb' 0 2 = 1 ∧
      (0x39 : Byte).getLsbD 6 = false) := by decide

/-- Without a prefix, and behind 67 and a segment override. -/
theorem witness_VexWidthBitIsIgnored :
    decode .mode64 [0xC4, 0xE1, 0x71, 0xF8, 0xC2] = .ok (.vpsubbXmm ⟨[], .three false false false false 1, 0, .reg 2⟩) ∧
    rexOnlyInMode64 .mode64 [.addrSize, .segment .fs] = true ∧
    decode .mode64 ([.addrSize, .segment .fs].map LegacyPrefix.byte ++ [0xC4, 0xE1, 0x71, 0xF8, 0xC2]) =
      .ok (.vpsubbXmm ⟨[.addrSize, .segment .fs], .three false false false false 1, 0, .reg 2⟩) := by
  decide

theorem witness_NamedVectorRegistersAreBelowNreg :
    (LegacyOps.wellFormed .prot32 true ⟨[.opSize], 7, .reg 7⟩ = true ∧
      LegacyOps.wellFormed .mode64 true ⟨[.opSize, .rex ⟨false, true, false, true⟩], 7, .reg 7⟩ = true) ∧
    (VexOps.wellFormed .prot32 ⟨[], .two false 7, 7, .reg 7⟩ = true ∧
      VexOps.wellFormed .mode64 ⟨[], .three true false true false 15, 7, .reg 7⟩ = true) := by decide

/-- Lane 7 of a 64-bit operand for the statements about `subLanes`; the three cases of the signed reading. -/
theorem witness_SubLanes :
    7 < 8 ∧ 0 < 8 ∧
    (lane 8 0x7F00000000000000#64 7).toInt - (lane 8 0xFF00000000000000#64 7).toInt = 128 ∧
    (lane 8 0x8000000000000000#64 7).toInt - (lane 8 0x0100000000000000#64 7).toInt = -129 ∧
    (lane 8 0xFF00000000000000#64 7).toInt - (lane 8 0x7F00000000000000#64 7).toInt = -128 := by decide

def rbxAt (a : BitVec 64) (s : State) : State := withGpr 3 a s

theorem enabled_flat :
    Enabled .mmx [] flat ∧ Enabled .sse2 [.opSize] flat ∧ Enabled .vex128 [] flat ∧ Enabled .vex256 [] flat := by
  simp only [Enabled]
  decide

theorem witness_MmxFormsSubtractLanes :
    (Enabled .mmx mmReg.prefixes flat ∧ MmSource mmReg flat 0 ∧ pcFits flat.mode (flat.pc.toNat + mmReg.len) = true) ∧
    (Enabled .mmx mmMem.prefixes flat ∧ MmSource mmMem (put 0x8 [1, 2, 3, 4, 5, 6, 7, 8] flat) 0x0807060504030201 ∧
      pcFits flat.mode (flat.pc.toNat + mmMem.len) = true) :=
  ⟨⟨enabled_flat.1, rfl, by decide⟩, enabled_flat.1, readMmSource_eq_ok.1 (by decide), by decide⟩

theorem witness_XmmFormsSubtractLanes :
    (Enabled .sse2 xmmRegOps.prefixes flat ∧ XmmSource xmmRegOps flat 0 ∧
      pcFits flat.mode (flat.pc.toNat + xmmRegOps.len) = true) ∧
    (Enabled .sse2 xmmMem.prefixes (rbxAt 0x1FF8 flat) ∧ XmmSource xmmMem (rbxAt 0x1FF8 flat) 0 ∧
      pcFits flat.mode (flat.pc.toNat + xmmMem.len) = true) :=
  ⟨⟨enabled_flat.2.1, readXmmSource_eq_ok.1 (by decide), by decide⟩,
    enabled_flat.2.1, readXmmSource_eq_ok.1 (by decide), by decide⟩

theorem witness_VexXmmFormsSubtractLanes :
    (Enabled .vex128 vexReg.prefixes flat ∧ VexXmmSource vexReg flat 0 ∧
      pcFits flat.mode (flat.pc.toNat + vexReg.len) = true) ∧
    (Enabled .vex128 vexMem.prefixes (rbxAt 1 flat) ∧ VexXmmSource vexMem (rbxAt 1 flat) 0 ∧
      pcFits flat.mode (flat.pc.toNat + vexMem.len) = true) :=
  ⟨⟨enabled_flat.2.2.1, readVexXmmSource_eq_ok.1 (by decide), by decide⟩,
    enabled_flat.2.2.1, readVexXmmSource_eq_ok.1 (by decide), by decide⟩

theorem witness_VexYmmFormsSubtractLanes :
    (Enabled .vex256 vexReg.prefixes flat ∧ VexYmmSource vexReg flat 0 ∧
      pcFits flat.mode (flat.pc.toNat + vexReg.len) = true) ∧
    (Enabled .vex256 vexMem.prefixes (rbxAt 1 flat) ∧ VexYmmSource vexMem (rbxAt 1 flat) 0 ∧
      pcFits flat.mode (flat.pc.toNat + vexMem.len) = true) :=
  ⟨⟨enabled_flat.2.2.2, readVexYmmSource_eq_ok.1 (by decide), by decide⟩,
    enabled_flat.2.2.2, readVexYmmSource_eq_ok.1 (by decide), by decide⟩

/-- Each form completes on the start state of its vector: the hypothesis of the statements about a next state
(MmxFormsMarkX87State, MmxFormsFrame, VectorFormsLeaveX87StateAlone, VectorFormsFrame, FlagsAndNumericExceptions,
MemoryIsOnlyReadAtTheOperand, NextPcIsTheAddressAfterTheInstruction, PrivilegeDoesNotMatter). -/
theorem witness_exec_next_legacy :
    (∃ t, exec (.psubbMm mmReg) mmxStart = .next t) ∧ (∃ t, exec (.psubwMm mmReg) mmxStart = .next t) ∧
    (∃ t, exec (.psubdMm mmReg) mmxStart = .next t) ∧ (∃ t, exec (.psubbXmm xmmRegOps) xmmStart = .next t) ∧
    (∃ t, exec (.psubwXmm xmmRegOps) xmmStart = .next t) ∧ (∃ t, exec (.psubdXmm xmmRegOps) xmmStart = .next t) :=
  ⟨exists_next (by decide), exists_next (by decide), exists_next (by decide), exists_next (by decide),
    exists_next (by decide), exists_next (by decide)⟩

/-- As above, for the six VEX forms. -/
theorem witness_exec_next_vex :
    (∃ t, exec (.vpsubbXmm vexReg) vexStart = .next t) ∧ (∃ t, exec (.vpsubwXmm vexReg) vexStart = .next t) ∧
    (∃ t, exec (.vpsubdXmm vexReg) vexStart = .next t) ∧ (∃ t, exec (.vpsubbYmm vexReg) ymmStart = .next t) ∧
    (∃ t, exec (.vpsubwYmm vexReg) ymmStart = .next t) ∧ (∃ t, exec (.vpsubdYmm vexReg) ymmStart = .next t) :=
  ⟨exists_next (by decide), exists_next (by decide), exists_next (by decide), exists_next (by decide),
    exists_next (by decide), exists_next (by decide)⟩

/-- The sources of those instructions, so that both hypotheses of the statement on the upper half hold together. -/
theorem witness_UpperHalfOfDestinationByEncoding :
    XmmSource xmmRegOps xmmStart b128 ∧ VexXmmSource vexReg vexStart b128 ∧ VexYmmSource vexReg ymmStart b256 ∧
    (Instr.psubbMm mmReg).formClass = .mmx :=
  ⟨readXmmSource_eq_ok.1 (by decide), readVexXmmSource_eq_ok.1 (by decide), readVexYmmSource_eq_ok.1 (by decide), rfl⟩

theorem witness_CoincidingRegisters :
    ((⟨[], 3, .reg 3⟩ : LegacyOps).rm = .reg 3 ∧ pcFits flat.mode (flat.pc.toNat + 3) = true) ∧
    (regNumber (effectiveRex [.opSize]).b 0 = (⟨[.opSize], 0, .reg 0⟩ : LegacyOps).xmmReg) ∧
    (regNumber (Vex.two false 5).b 5 = (Vex.two false 5).vvvv) ∧
    (regNumber (Vex.two false 1).b 2 = (⟨[], .two false 1, 2, .reg 2⟩ : VexOps).dst ∧
      completesWith (fun _ => true) (exec (.vpsubbXmm ⟨[], .two false 1, 2, .reg 2⟩) vexStart) = true ∧
      completesWith (fun _ => true) (exec (.vpsubbYmm ⟨[], .two false 1, 2, .reg 2⟩) ymmStart) = true) ∧
    ((⟨[], .two false 1, 1, .reg 2⟩ : VexOps).dst = 1 ∧
      completesWith (fun _ => true) (exec (.vpsubwXmm ⟨[], .two false 1, 1, .reg 2⟩) vexStart) = true ∧
      completesWith (fun _ => true) (exec (.vpsubwYmm ⟨[], .two false 1, 1, .reg 2⟩) ymmStart) = true) := by decide

/-- The source of those instructions whose destination is vvvv. -/
theorem witness_CoincidingRegisters_source :
    VexXmmSource ⟨[], .two false 1, 1, .reg 2⟩ vexStart b128 ∧ VexYmmSource ⟨[], .two false 1, 1, .reg 2⟩ ymmStart b256 :=
  ⟨readVexXmmSource_eq_ok.1 (by decide), readVexYmmSource_eq_ok.1 (by decide)⟩

theorem witness_VexDestinationIsNotRead :
    vexReg.dst ≠ vexReg.vex.vvvv ∧ regNumber vexReg.vex.b 2 ≠ vexReg.dst := by decide

theorem witness_FlagsAndNumericExceptions :
    (0x8D5 : BitVec 64).getLsbD 17 = mmxStart.eflags.getLsbD 17 ∧
    completesWith (fun _ => true) (exec (.psubbMm mmReg) { mmxStart with eflags := 0x8D5 }) = true ∧
    faultsWith (.ud 0x1000) (exec (.psubbMm ⟨[.lock], 0, .reg 1⟩) mmxStart) = true := by decide

/-- The eight bytes at RBX + 8 = 8H are 0 in both memories, which differ at 10H. -/
theorem witness_MemoryIsOnlyReadAtTheOperand :
    memoryOperand (.psubbMm mmMem) flat = some (.ds, 8) ∧ (∀ k < 8, Memory.read [(0x10, 1)] (8 + k) = Memory.read [] (8 + k)) ∧
    Memory.read [(0x10, 1)] 0x10 ≠ Memory.read [] 0x10 := by decide

/-- Each kind of stop that a statement characterises occurs: #UD, #NM, #MF and ExternalFpuError, #SS(0), #GP(0) for an illegal
address and for a misaligned one, #AC(0), #PF, NotOrdinaryMemory, PcWrap. -/
theorem witness_exceptions :
    exec (.psubbMm ⟨[.lock], 0, .reg 1⟩) flat = .fault (.ud 0x1000) ∧
    exec (.psubbMm mmReg) { flat with cr0 := 9 } = .fault (.nm 0x1000) ∧
    exec (.psubbMm mmReg) { flat with cr0 := 0x21, x87status := 0x80 } = .fault (.mf 0x1000) ∧
    exec (.psubbMm mmReg) { flat with x87status := 0x80 } = .refused .externalFpuError ∧
    exec (.psubbMm ⟨[], 0, memRbp⟩) (withGpr 5 0x800000000000 flat) = .fault (.ss 0x1000) ∧
    exec (.psubbMm mmMem) (rbxAt 0x7FFFFFFFFFF8 flat) = .fault (.gp 0x1000) ∧
    exec (.psubbXmm xmmMem) flat = .fault (.gp 0x1000) ∧
    exec (.psubwMm mmMem) (rbxAt 1 (checked flat)) = .fault (.ac 0x1000) ∧
    exec (.psubbXmm xmmMem) (rbxAt 0xFF8 (notPresent 0x1008 0x1FFF flat)) = .fault (.pf 0x1000 0 0x1008) ∧
    exec (.psubbMm mmMem) { flat with cfg := { resetConfig with memMap := [⟨0, 0xE⟩] } } = .refused .notOrdinaryMemory ∧
    exec (.psubbMm mmReg) { flat with pc := 0x7FFFFFFFFFFD } = .refused .pcWrap :=
  ⟨eq_fault (by decide), eq_fault (by decide), eq_fault (by decide), eq_refused (by decide), eq_fault (by decide),
    eq_fault (by decide), eq_fault (by decide), eq_fault (by decide), eq_fault (by decide), eq_refused (by decide),
    eq_refused (by decide)⟩

/-- Outside 64-bit mode: a limit and a null selector (60_exceptions.md R98, R99). -/
theorem witness_segment_limits :
    exec (.psubbMm ⟨[], 0, .mem ⟨.m00, 3, none, .absent⟩⟩) (flatIn .prot32) = .fault (.gp 0x1000) ∧
    exec (.psubbMm ⟨[.segment .cs], 0, .mem ⟨.m00, 3, none, .absent⟩⟩) (rbxAt 0xFFF9 (flatIn .prot32)) = .fault (.gp 0x1000) ∧
    (∃ t, exec (.psubbMm ⟨[.segment .cs], 0, .mem ⟨.m00, 3, none, .absent⟩⟩) (rbxAt 0xFFF8 (flatIn .prot32)) = .next t) :=
  ⟨eq_fault (by decide), eq_fault (by decide), exists_next (by decide)⟩

theorem witness_PageFaultCodeBits :
    translateAddr (notPresent 0x5000 0x5FFF flat) .fetch 0x5FFF = .error (.fault (.pf 0x1000 0 0x5FFF)) := by decide

/-- The first of the conditions of the completion statement holds of every class. -/
theorem witness_CompletesExactlyWhenEnabledAndReady :
    Enabled .mmx [] flat ∧ Enabled .sse2 [.opSize] flat ∧ Enabled .vex128 [] flat ∧ Enabled .vex256 [] flat ∧
    pcFits flat.mode (flat.pc.toNat + 15) = true :=
  ⟨enabled_flat.1, enabled_flat.2.1, enabled_flat.2.2.1, enabled_flat.2.2.2, by decide⟩

theorem witness_ExceptionSavesInstructionAddress :
    step (put 0x1000 [0xF0, 0x0F, 0xF8, 0x03] flat) = .fault (.ud 0x1000) ∧
    step (notPresent 0x1000 0x1FFF flat) = .fault (.pf 0x1000 0 0x1000) ∧
    step { flat with pc := 0x800000000000 } = .fault (.gp 0x800000000000) :=
  ⟨eq_fault (by decide), eq_fault (by decide), eq_fault (by decide)⟩

theorem witness_MemoryOperandIsLittleEndian :
    memRead (put 0x2000 [1, 2, 3, 4, 5, 6, 7, 8] flat) .mmx (8 * FormClass.mmx.operandBytes) .ds 0x2000 =
      .ok 0x0807060504030201#64 := by decide

theorem witness_EffectiveAddressWithSibAndDisplacement :
    effectiveAddress flat .a64 false false 0x1008 ⟨.m00, 5, none, .disp32 0xFFFFFFF0⟩ = (.ds, 0xFF8) ∧
    effectiveAddress (withGpr 13 0x10 flat) .a64 false true 0 ⟨.m01, 5, none, .disp8 0xFF⟩ = (.ds, 0xF) ∧
    effectiveAddress (withGpr 5 0x1FFFFFFFF flat) .a32 false false 0 ⟨.m01, 5, none, .disp8 1⟩ = (.ss, 0) ∧
    effectiveAddress (withGpr 4 0x30 (withGpr 12 0x100 flat)) .a64 true false 0 ⟨.m01, 4, some ⟨3, 4, 4⟩, .disp8 0x80⟩ =
      (.ss, 0x7B0) := by decide

/-- BX = FFFFH, BP = FFFEH, SI = 2, DI = 3: the eight forms without displacement or base where they wrap. -/
def shortState : State := withGpr 3 0xFFFF (withGpr 5 0xFFFE (withGpr 6 2 (withGpr 7 3 flat)))

theorem witness_EffectiveAddressUnder16BitAddressing :
    effectiveAddress shortState .a16 false false 0 ⟨.m00, 0, none, .absent⟩ = (.ds, 1) ∧
    effectiveAddress shortState .a16 false false 0 ⟨.m00, 1, none, .absent⟩ = (.ds, 2) ∧
    effectiveAddress shortState .a16 false false 0 ⟨.m00, 2, none, .absent⟩ = (.ss, 0) ∧
    effectiveAddress shortState .a16 false false 0 ⟨.m00, 3, none, .absent⟩ = (.ss, 1) ∧
    effectiveAddress shortState .a16 false false 0 ⟨.m01, 4, none, .disp8 0xFE⟩ = (.ds, 0) ∧
    effectiveAddress shortState .a16 false false 0 ⟨.m01, 5, none, .disp8 0xFC⟩ = (.ds, 0xFFFF) ∧
    effectiveAddress shortState .a16 false false 0 ⟨.m00, 6, none, .disp16 0xFFFF⟩ = (.ds, 0xFFFF) ∧
    effectiveAddress shortState .a16 false false 0 ⟨.m01, 6, none, .disp8 2⟩ = (.ss, 0) ∧
    effectiveAddress shortState .a16 false false 0 ⟨.m10, 7, none, .disp16 1⟩ = (.ds, 0) := by decide

/-- The address sizes of the modes, with and without 67; RIP-relative at 1000H; 16-bit addressing that wraps. -/
theorem witness_MemoryOperandOfAnInstruction :
    memoryOperand (.vpsubdYmm ⟨[], .two false 0, 0, .mem ⟨.m00, 5, none, .disp32 0x100⟩⟩) flat = some (.ds, 0x1108) ∧
    memoryOperand (.psubbMm mmMem) (rbxAt 0xFFFFFFFFFFFFFFF8 flat) = some (.ds, 0) ∧
    memoryOperand (.psubbMm ⟨[.addrSize], 0, memRbx⟩) (rbxAt 0xFFFFFFFFFFFFFFF7 flat) = some (.ds, 0xFFFFFFFF) ∧
    memoryOperand (.psubbMm mmMem) (rbxAt 0xFFFFFFF7 (flatIn .prot32)) = some (.ds, 0xFFFFFFFF) ∧
    memoryOperand (.psubbMm ⟨[.addrSize], 0, .mem ⟨.m00, 6, none, .disp16 0xFFFF⟩⟩) (flatIn .compat32) = some (.ds, 0xFFFF) ∧
    memoryOperand (.psubbMm ⟨[.addrSize], 0, memRbx⟩) (rbxAt 0x10000 (flatIn .prot16)) = some (.ds, 0x10008) ∧
    memoryOperand (.psubbMm ⟨[.segment .es], 0, .mem ⟨.m01, 7, none, .disp8 8⟩⟩) (rbxAt 0xFFF8 State.reset) =
      some (.es, 0) := by decide

theorem witness_SegmentOverridePrefixes :
    prefixesOnce [.addrSize, .segment .ss, .opSize] = true ∧ hasKind .segment [.addrSize] = false ∧
    operandSegment .mode64 [.addrSize, .segment .ss] .ds = .ds ∧ operandSegment .mode64 [.addrSize, .segment .gs] .ds = .gs ∧
    operandSegment .prot32 [.addrSize, .segment .ss] .ds = .ss := by decide

theorem witness_LinearAddressOfAnOffset :
    flat.mode = .mode64 ∧ (flatIn .prot32).mode ≠ .mode64 ∧ linearAddress (flatIn .prot32) .cs 0x10000 = 0 ∧
    linearAddress flat .cs 0x10000 = 0x10000 := by decide

theorem witness_StepRunsTheDecodedInstruction :
    (Instr.psubbMm mmReg).wellFormed flat.mode = true ∧ encode (.psubbMm mmReg) = [0x0F, 0xF8, 0xC1] ∧
    fetchByte (put 0x1000 [0x0F, 0xF8, 0xC1] flat) 0 = .ok 0x0F ∧ fetchByte (put 0x1000 [0x0F, 0xF8, 0xC1] flat) 1 = .ok 0xF8 ∧
    fetchByte (put 0x1000 [0x0F, 0xF8, 0xC1] flat) 2 = .ok 0xC1 := by decide

/-- Fifteen prefix bytes are still no whole instruction. -/
theorem witness_StepRefusesWhatDecodingRefuses :
    decode .mode64 (List.replicate 15 0x66) = .error .truncated ∧ (List.replicate 15 (0x66 : Byte)).length = 15 ∧
    step (put 0x1000 (List.replicate 15 0x66) flat) = .refused .tooLong ∧
    step (put 0x1000 [0x0F, 0xFB, 0xC1] flat) = .refused .notThisFamily ∧
    step (put 0x1000 [0xF3, 0x0F, 0xF8, 0xC1] flat) = .refused .prefixNotInScope ∧
    step (put 0x1000 [0x66, 0x66, 0x0F, 0xF8, 0xC1] flat) = .refused .redundantPrefix ∧
    step (put 0xFFFF1000 [0xC4, 0xC1, 0x71, 0xF8, 0xC0] (flatIn .prot32)) = .refused .vexHighRegOutside64 :=
  ⟨by decide, by decide, eq_refused (by decide), eq_refused (by decide), eq_refused (by decide), eq_refused (by decide),
    eq_refused (by decide)⟩

/-- The byte after `0F F8` lies on a page that is not present; pc itself is no canonical address. -/
theorem witness_FetchStopIsTheStopOfTheStep :
    decode .mode64 [0x0F, 0xF8] = .error .truncated ∧ decode .mode64 [] = .error .truncated ∧
    fetchByte (notPresent 0x1002 0x1FFF (put 0x1000 [0x0F, 0xF8, 0xC1] flat)) 1 = .ok 0xF8 ∧
    fetchByte (notPresent 0x1002 0x1FFF (put 0x1000 [0x0F, 0xF8, 0xC1] flat)) 2 = .error (.fault (.pf 0x1000 0 0x1002)) ∧
    fetchByte { flat with pc := 0x800000000000 } 0 = .error (.fault (.gp 0x800000000000)) ∧
    fetchByte { flat with cfg := { resetConfig with memMap := [] } } 0 = .error (.refused .notOrdinaryMemory) := by decide

/-- A byte that is read; pc and a later byte beyond the range of EIP and of the canonical addresses; the last byte of CS and
the one beyond its limit; a byte that is not present; a byte outside MemMap. -/
theorem witness_FetchReadsTheCodeSegment :
    fetchByte (put 0x1000 [0x0F, 0xF8, 0xC1] flat) 1 = .ok 0xF8 ∧
    fetchByte (put 0xFFFF1001 [0xF8] (flatIn .prot32)) 1 = .ok 0xF8 ∧
    fetchByte { flat with pc := 0x800000000000 } 0 = .error (.fault (.gp 0x800000000000)) ∧
    fetchByte { flat with pc := 0x7FFFFFFFFFFF } 0 = .ok 0 ∧
    fetchByte { flat with pc := 0x7FFFFFFFFFFF } 1 = .error (.refused .pcWrap) ∧
    fetchByte { flatIn .prot16 with pc := 0x10000 } 0 = .error (.fault (.gp 0x10000)) ∧
    fetchByte { flatIn .prot32 with pc := 0xFFFF } 0 = .ok 0 ∧
    fetchByte { flatIn .prot32 with pc := 0xFFFF } 1 = .error (.fault (.gp 0xFFFF)) ∧
    fetchByte (notPresent 0x1001 0x1FFF flat) 1 = .error (.fault (.pf 0x1000 0 0x1001)) ∧
    fetchByte { flat with cfg := { resetConfig with memMap := [⟨0, 0x1000⟩] } } 1 = .error (.refused .notOrdinaryMemory) := by
  decide

/-- Levels 0 and 3 without alignment checking and without a rule of Translate that names a level. -/
theorem witness_PrivilegeDoesNotMatter :
    (Instr.psubbMm mmReg).rm = .reg 1 ∧ memoryOperand (.psubbMm mmMem) flat = some (.ds, 8) ∧
    ({ flat with cpl := 3 } : State).alignmentCheck = flat.alignmentCheck ∧
    (∀ k < 8, translateAddr { flat with cpl := 3 } .dataRead (linearByte flat (linearAddress flat .ds 8) k) =
      translateAddr flat .dataRead (linearByte flat (linearAddress flat .ds 8) k)) := by decide

theorem witness_HighRegistersKeepTheirValuesOutside64BitMode :
    (flatIn .prot32).mode ≠ .mode64 ∧ (∃ t, step (put 0xFFFF1000 [0x66, 0x0F, 0xF8, 0xC1] (flatIn .prot32)) = .next t) ∧
    8 ≤ (8 : BitVec 4).toNat :=
  ⟨by decide, exists_next (by decide), by decide⟩

theorem witness_StepKeepsTheInvariant :
    (put 0x1000 [0x0F, 0xF8, 0xC1] flat).Inv ∧ ∃ t, step (put 0x1000 [0x0F, 0xF8, 0xC1] flat) = .next t :=
  ⟨⟨by decide, by decide⟩, exists_next (by decide)⟩

/-- A register source, and the last memory operand that lies in 0 to FFFFH. -/
theorem witness_AfterResetOnlyMmxFormsExecute :
    (Instr.vpsubbXmm vexReg).formClass ≠ .mmx ∧ (Instr.psubbXmm xmmRegOps).formClass ≠ .mmx ∧
    (Instr.psubbMm mmReg).formClass = .mmx ∧ (Instr.psubbMm mmReg).wellFormed .real16 = true ∧
    hasKind .lock mmReg.prefixes = false ∧ memoryOperand (.psubbMm mmReg) State.reset = none ∧
    (Instr.psubdMm ⟨[], 0, .mem ⟨.m00, 6, none, .disp16 0xFFF8⟩⟩).wellFormed .real16 = true ∧
    memoryOperand (.psubdMm ⟨[], 0, .mem ⟨.m00, 6, none, .disp16 0xFFF8⟩⟩) State.reset = some (.ds, 0xFFF8) := by decide

/-- PSUBB mm0, mm1; VPSUBB xmm0, xmm1, xmm2; and two bytes of a third instruction. -/
def textBytes : List Byte := [0x0F, 0xF8, 0xC1, 0xC5, 0xF1, 0xF8, 0xC2]
def textState : State := put 0x1000 (textBytes ++ [0x0F, 0xF9]) flat
def textInstrs : List Instr := [.psubbMm mmReg, .vpsubbXmm vexReg]

theorem textAt_of_getElem {s : State} {base : Addr} {text : List Byte}
    (h : ∀ (k : Nat) (hk : k < text.length), fetchByte (s.setPc base) k = .ok text[k]) : TextAt s base text := by
  intro k b hb
  obtain ⟨hk, rfl⟩ := List.getElem?_eq_some_iff.1 hb
  exact h k hk

def endsAt (a : Addr) : RunResult → Bool
  | .final s => decide (s.pc = a)
  | .fault _ => false
  | .refused _ => false
  | .unfinished => false

def leavesText : RunResult → Bool
  | .final _ => false
  | .fault _ => false
  | .refused r => decide (r = .outsideText)
  | .unfinished => false

/-- Two instructions end at the end of their text within a third of its seven bytes steps. -/
theorem witness_RunOverATextEnds : endsAt 0x1007 (runText 0x1000 7 (7 / 3) textState) = true := by decide

theorem witness_RunExecutesTheTextInOrder :
    (∀ i ∈ textInstrs, i.wellFormed textState.mode = true) ∧ textInstrs.flatMap encode = textBytes ∧
    (decode textState.mode [] = .error .truncated ∧ TextAt textState 0x1000 textBytes) ∧
    (decode textState.mode [0x0F, 0xF9] = .error .truncated ∧ TextAt textState 0x1000 (textBytes ++ [0x0F, 0xF9])) ∧
    textState.pc = 0x1000 :=
  ⟨by decide, by decide, ⟨by decide, textAt_of_getElem (by decide)⟩, ⟨by decide, textAt_of_getElem (by decide)⟩, by decide⟩

/-- Refused: in the middle of an instruction, at the end of the text, before it, and where its end cuts an instruction off,
whatever bytes follow (70_reset_and_hazards.md R117). -/
theorem witness_RunOutsideItsInstructionsIsRefused :
    ((∀ i ∈ textInstrs, i.wellFormed (textState.setPc 0x1004).mode = true) ∧
      TextAt (textState.setPc 0x1004) 0x1000 (textInstrs.flatMap encode) ∧
      ∀ n < textInstrs.length, (textState.setPc 0x1004).pc.toNat ≠ 0x1000 + ((textInstrs.take n).flatMap encode).length) ∧
    (∀ n < textInstrs.length, 0x1007 ≠ 0x1000 + ((textInstrs.take n).flatMap encode).length) ∧
    leavesText (runText 0x1000 7 2 (textState.setPc 0x1004)) = true ∧
    leavesText (runText 0x1000 7 2 (textState.setPc 0x1007)) = true ∧
    leavesText (runText 0x1000 7 2 (textState.setPc 0xFFF)) = true ∧
    leavesText (runText 0x1000 4 2 textState) = true :=
  ⟨⟨by decide, textAt_of_getElem (by decide), by decide⟩, by decide, by decide, by decide, by decide, by decide⟩

end Sys2Proof.Tests
end

section
/-! What each step template leaves in the YMM registers (10_state.md R16), and with it O18. -/

namespace Sys2Proof.Machine

/-! ## Reading a YMM register after a write -/

@[simp] theorem State.readYmm_writeXmmKeep_self (s : State) (i : BitVec 4) (v : BitVec 128) :
    (s.writeXmmKeep i v).readYmm i = (s.readYmm i).extractLsb' 128 128 ++ v := by
  simp only [State.writeXmmKeep, State.readYmm_writeYmm_self]

@[simp] theorem State.readYmm_writeXmmZero_self (s : State) (i : BitVec 4) (v : BitVec 128) :
    (s.writeXmmZero i v).readYmm i = 0#128 ++ v := by
  simp only [State.writeXmmZero, State.readYmm_writeYmm_self, zeroExtend_eq_append]

@[simp] theorem State.readYmm_writeMm (s : State) (i : BitVec 3) (v : BitVec 64) (r : BitVec 4) :
    (s.writeMm i v).readYmm r = s.readYmm r := rfl

@[simp] theorem State.readYmm_markMmx (s : State) (i : BitVec 3) (r : BitVec 4) :
    (s.markMmx i).readYmm r = s.readYmm r := rfl

/-! ## The YMM registers after each step template -/

theorem stepMmx_next_readYmm {f : BitVec 64 → BitVec 64 → BitVec 64} {o : LegacyOps} {s t : State}
    (h : stepMmx f o s = .next t) (r : BitVec 4) : t.readYmm r = s.readYmm r := by
  obtain ⟨v, rfl⟩ := stepMmx_next_shape h
  simp

theorem stepXmm_next_readYmm_dst {f : BitVec 128 → BitVec 128 → BitVec 128} {o : LegacyOps} {s t : State} {b : BitVec 128}
    (hb : XmmSource o s b) (h : stepXmm f o s = .next t) :
    t.readYmm o.xmmReg = (s.readYmm o.xmmReg).extractLsb' 128 128 ++ f (s.readXmm o.xmmReg) b := by
  obtain ⟨_, b', hb', _, rfl⟩ := stepXmm_eq_next.1 h
  obtain rfl : b' = b := Except.ok.inj (hb'.symm.trans (readXmmSource_eq_ok.2 hb))
  simp

theorem stepVexXmm_next_readYmm_dst {f : BitVec 128 → BitVec 128 → BitVec 128} {o : VexOps} {s t : State} {b : BitVec 128}
    (hb : VexXmmSource o s b) (h : stepVexXmm f o s = .next t) :
    t.readYmm o.dst = 0#128 ++ f (s.readXmm o.vex.vvvv) b := by
  obtain ⟨_, b', hb', _, rfl⟩ := stepVexXmm_eq_next.1 h
  obtain rfl : b' = b := Except.ok.inj (hb'.symm.trans (readVexXmmSource_eq_ok.2 hb))
  simp

theorem stepVexYmm_next_readYmm_dst {f : BitVec 256 → BitVec 256 → BitVec 256} {o : VexOps} {s t : State} {b : BitVec 256}
    (hb : VexYmmSource o s b) (h : stepVexYmm f o s = .next t) :
    t.readYmm o.dst = f (s.readYmm o.vex.vvvv) b := by
  obtain ⟨_, b', hb', _, rfl⟩ := stepVexYmm_eq_next.1 h
  obtain rfl : b' = b := Except.ok.inj (hb'.symm.trans (readVexYmmSource_eq_ok.2 hb))
  simp

/-- The three MMX forms leave every YMM register as it was (10_state.md R16, last sentence). -/
theorem exec_next_readYmm_of_mmx {i : Instr} {s t : State} (hc : i.formClass = .mmx) (h : exec i s = .next t)
    (r : BitVec 4) : t.readYmm r = s.readYmm r := by
  cases i
  case psubbMm | psubwMm | psubdMm => exact stepMmx_next_readYmm h r
  all_goals cases hc

/-- Settles O18: each form runs the step template of its encoding, and each template writes the upper half in its own way. -/
theorem upperHalfOfDestinationByEncoding : Obligations.UpperHalfOfDestinationByEncoding := by
  unfold Obligations.UpperHalfOfDestinationByEncoding
  refine ⟨fun o s t b hb => ?legacy, fun o s t b hb => ?vex128, fun o s t b hb => ?vex256, ?mmx⟩
  case legacy =>
    exact ⟨stepXmm_next_readYmm_dst hb, stepXmm_next_readYmm_dst hb, stepXmm_next_readYmm_dst hb⟩
  case vex128 =>
    exact ⟨stepVexXmm_next_readYmm_dst hb, stepVexXmm_next_readYmm_dst hb, stepVexXmm_next_readYmm_dst hb⟩
  case vex256 =>
    exact ⟨stepVexYmm_next_readYmm_dst hb, stepVexYmm_next_readYmm_dst hb, stepVexYmm_next_readYmm_dst hb⟩
  case mmx =>
    exact fun i s t hc h => exec_next_readYmm_of_mmx hc h

end Sys2Proof.Machine
end

section
/-! What a form reads of memory (20_memory.md R29, R30): an outcome under another memory is the outcome under this one, as long
as the two agree on the bytes of the operand; and with it O26. -/

namespace Sys2Proof.Machine

/-! ## Reading under another memory -/

theorem eachInOrder_congr {α β : Type} {f g : α → Res β} {l : List α} (h : ∀ x ∈ l, f x = g x) :
    eachInOrder f l = eachInOrder g l := by
  induction l with
  | nil => rfl
  | cons x t ih =>
    obtain ⟨hx, ht⟩ := List.forall_mem_cons.1 h
    simp only [eachInOrder, hx, ih ht]

/-- Every element of a successful list of accesses is the answer of one of them. -/
theorem exists_of_mem_eachInOrder {α β : Type} {f : α → Res β} {l : List α} {ys : List β} (h : eachInOrder f l = .ok ys)
    {y : β} (hy : y ∈ ys) : ∃ x ∈ l, f x = .ok y := by
  obtain ⟨hl, hf⟩ := eachInOrder_eq_ok.1 h
  obtain ⟨k, hk, rfl⟩ := List.mem_iff_getElem.1 hy
  have hk' : k < l.length := hl ▸ hk
  exact ⟨l[k], List.getElem_mem hk', hf k _ _ (List.getElem?_eq_getElem hk') (List.getElem?_eq_getElem hk)⟩

/-- The memory `m` holds what the memory of `s` holds at the physical addresses of the `n` bytes at `lin`. -/
def AgreesAt (s : State) (m : List Host.Cell) (lin : Addr) (n : Nat) : Prop :=
  ∀ k < n, ∀ pa, translateAddr s .dataRead (linearByte s lin k) = .ok pa → Memory.read m pa.toNat = s.readByte pa

/-- The same for the bytes of a memory operand of a form class, at segment and offset `a`. -/
def AgreesOnOperand (s : State) (m : List Host.Cell) (c : FormClass) (a : Seg × Addr) : Prop :=
  AgreesAt s m (linearAddress s a.1 a.2) c.operandBytes

theorem readOrdinary_setMem {s : State} {m : List Host.Cell} {pa : Addr} (h : Memory.read m pa.toNat = s.readByte pa) :
    readOrdinary (s.setMem m) pa = readOrdinary s pa := by
  have hb : (s.setMem m).readByte pa = s.readByte pa := h
  unfold readOrdinary
  rw [hb]
  rfl

/-- Translation does not read memory, and the bytes read afterwards are those at the addresses it gives. -/
theorem readLinear_setMem {s : State} {m : List Host.Cell} {lin : Addr} {n : Nat} (h : AgreesAt s m lin n) :
    readLinear (s.setMem m) lin n = readLinear s lin n := by
  have htr : ∀ k, translateAddr (s.setMem m) .dataRead (linearByte (s.setMem m) lin k) =
      translateAddr s .dataRead (linearByte s lin k) := fun _ => rfl
  unfold readLinear
  simp only [htr]
  cases ht : eachInOrder (fun k => translateAddr s .dataRead (linearByte s lin k)) (List.range n) with
  | error e => rfl
  | ok pas =>
    refine eachInOrder_congr fun pa hpa => readOrdinary_setMem ?_
    obtain ⟨k, hk, hkpa⟩ := exists_of_mem_eachInOrder ht hpa
    exact h k (List.mem_range.1 hk) pa hkpa

theorem memRead_setMem {s : State} {m : List Host.Cell} {c : FormClass} {W : Nat} {a : Seg × Addr}
    (h : AgreesOnOperand s m c a) : memRead (s.setMem m) c W a.1 a.2 = memRead s c W a.1 a.2 := by
  have hc : checkedLinear (s.setMem m) c a.1 a.2 = checkedLinear s c a.1 a.2 := rfl
  unfold memRead
  rw [hc]
  cases hl : checkedLinear s c a.1 a.2 with
  | error e => rfl
  | ok lin =>
    obtain ⟨_, _, rfl⟩ := checkedLinear_eq_ok.1 hl
    simp only [Res.bind_ok, readLinear_setMem h]

/-! ## The r/m operand under another memory -/

section
variable {s : State} {m : List Host.Cell}

theorem readMmSource_setMem {o : LegacyOps} (h : ∀ a, o.rm = .mem a → AgreesOnOperand s m .mmx
    (operandAddress s o.prefixes (effectiveRex o.prefixes).x (effectiveRex o.prefixes).b o.len a)) :
    readMmSource o (s.setMem m) = readMmSource o s := by
  unfold readMmSource
  cases hr : o.rm with
  | reg r => rfl
  | mem a => exact memRead_setMem (h a hr)

theorem readXmmSource_setMem {o : LegacyOps} (h : ∀ a, o.rm = .mem a → AgreesOnOperand s m .sse2
    (operandAddress s o.prefixes (effectiveRex o.prefixes).x (effectiveRex o.prefixes).b o.len a)) :
    readXmmSource o (s.setMem m) = readXmmSource o s := by
  unfold readXmmSource
  cases hr : o.rm with
  | reg r => rfl
  | mem a => exact memRead_setMem (h a hr)

theorem readVexXmmSource_setMem {o : VexOps} (h : ∀ a, o.rm = .mem a → AgreesOnOperand s m .vex128
    (operandAddress s o.prefixes o.vex.x o.vex.b o.len a)) :
    readVexXmmSource o (s.setMem m) = readVexXmmSource o s := by
  unfold readVexXmmSource
  cases hr : o.rm with
  | reg r => rfl
  | mem a => exact memRead_setMem (h a hr)

theorem readVexYmmSource_setMem {o : VexOps} (h : ∀ a, o.rm = .mem a → AgreesOnOperand s m .vex256
    (operandAddress s o.prefixes o.vex.x o.vex.b o.len a)) :
    readVexYmmSource o (s.setMem m) = readVexYmmSource o s := by
  unfold readVexYmmSource
  cases hr : o.rm with
  | reg r => rfl
  | mem a => exact memRead_setMem (h a hr)

end

/-! ## A step under another memory -/

/-- Two runs of a step template give the same outcome up to an update `u` of the state, when their checks and their r/m operands
are the same, their results differ by `u`, and `u` leaves pc and the mode alone. -/
theorem toOutcome_advance_map (u : State → State) {α : Type} {check check' : Res Unit} {source source' : Res α} {len : Nat}
    {result result' : α → State} (hcheck : check' = check) (hsource : source' = source)
    (hresult : ∀ b, result' b = u (result b)) (hpc : ∀ t, (u t).pc = t.pc) (hset : ∀ t a, (u t).setPc a = u (t.setPc a))
    (hmode : ∀ b, (u (result b)).mode = (result b).mode) :
    Res.toOutcome (do check'; let b ← source'; advance len (result' b)) =
      mapNext u (Res.toOutcome (do check; let b ← source; advance len (result b))) := by
  have stop : ∀ e : Stop, Res.toOutcome (.error e) = mapNext u (Res.toOutcome (.error e)) := by
    rintro (f | q) <;> rfl
  subst hcheck hsource
  cases check' with
  | error e => exact stop e
  | ok _ =>
    cases source' with
    | error e => exact stop e
    | ok b =>
      simp only [Res.bind_ok, advance, hresult, hpc, hset, hmode]
      split
      · rfl
      · exact stop _

theorem toOutcome_advance_setMem {m : List Host.Cell} {α : Type} {check check' : Res Unit} {source source' : Res α} {len : Nat}
    {result result' : α → State} (hcheck : check' = check) (hsource : source' = source)
    (hresult : ∀ b, result' b = (result b).setMem m) :
    Res.toOutcome (do check'; let b ← source'; advance len (result' b)) =
      mapNext (fun t => t.setMem m) (Res.toOutcome (do check; let b ← source; advance len (result b))) :=
  toOutcome_advance_map (·.setMem m) hcheck hsource hresult (fun _ => rfl) (fun _ _ => rfl) (fun _ => rfl)

theorem memoryOperand_of_rm_mem {i : Instr} (s : State) {a : MemOperand} (h : i.rm = .mem a) :
    memoryOperand i s = some (operandAddress s i.prefixes (indexBaseBits i).1 (indexBaseBits i).2 i.len a) := by
  simp only [memoryOperand, h]

/-- Neither the checks of a form nor the registers it reads are in memory, so its outcome depends on memory through the r/m
operand alone. -/
theorem exec_setMem {i : Instr} {s : State} {m : List Host.Cell}
    (h : ∀ a, memoryOperand i s = some a → AgreesOnOperand s m i.formClass a) :
    exec i (s.setMem m) = mapNext (fun t => t.setMem m) (exec i s) := by
  have hrm := fun a (hr : i.rm = .mem a) => h _ (memoryOperand_of_rm_mem s hr)
  cases i
  case psubbMm o | psubwMm o | psubdMm o =>
    exact toOutcome_advance_setMem rfl (readMmSource_setMem hrm) fun _ => rfl
  case psubbXmm o | psubwXmm o | psubdXmm o =>
    exact toOutcome_advance_setMem rfl (readXmmSource_setMem hrm) fun _ => rfl
  case vpsubbXmm o | vpsubwXmm o | vpsubdXmm o =>
    exact toOutcome_advance_setMem rfl (readVexXmmSource_setMem hrm) fun _ => rfl
  case vpsubbYmm o | vpsubwYmm o | vpsubdYmm o =>
    exact toOutcome_advance_setMem rfl (readVexYmmSource_setMem hrm) fun _ => rfl

/-- Settles O26: a completed form keeps memory, and its outcome depends on memory through the bytes of its operand alone. -/
theorem memoryIsOnlyReadAtTheOperand : Obligations.MemoryIsOnlyReadAtTheOperand := by
  unfold Obligations.MemoryIsOnlyReadAtTheOperand
  refine fun i s => ⟨fun t ht => ?keeps, fun m hm => ?reads⟩
  case keeps =>
    obtain ⟨hmem, _⟩ := exec_next_keeps ht
    exact hmem
  case reads =>
    exact exec_setMem fun a ha => hm a.1 a.2 ha

end Sys2Proof.Machine
end

section
/-! The ignored bit VEX.W (30_encoding.md R60): neither the decoder's checks nor the execution of a form reads it; with it O6. -/

namespace Sys2Proof.Machine

/-! ## What inverting W leaves as it was -/

@[simp] theorem r_flipW (v : Vex) : (flipW v).r = v.r := by cases v <;> rfl
@[simp] theorem x_flipW (v : Vex) : (flipW v).x = v.x := by cases v <;> rfl
@[simp] theorem b_flipW (v : Vex) : (flipW v).b = v.b := by cases v <;> rfl
@[simp] theorem vvvv_flipW (v : Vex) : (flipW v).vvvv = v.vvvv := by cases v <;> rfl
@[simp] theorem len_flipW (v : Vex) : (flipW v).len = v.len := by cases v <;> rfl
@[simp] theorem wellFormed_flipW (m : Mode) (v : Vex) : (flipW v).wellFormed m = v.wellFormed m := by simp [Vex.wellFormed]

/-! ## Executing a form with W inverted -/

theorem stepVexXmm_flipW (f : BitVec 128 → BitVec 128 → BitVec 128) (o : VexOps) (s : State) :
    stepVexXmm f { o with vex := flipW o.vex } s = stepVexXmm f o s := by
  simp [stepVexXmm, readVexXmmSource, VexOps.dst, VexOps.len]

theorem stepVexYmm_flipW (f : BitVec 256 → BitVec 256 → BitVec 256) (o : VexOps) (s : State) :
    stepVexYmm f { o with vex := flipW o.vex } s = stepVexYmm f o s := by
  simp [stepVexYmm, readVexYmmSource, VexOps.dst, VexOps.len]

theorem exec_flipVexW (i : Instr) (s : State) : exec (flipVexW i) s = exec i s := by
  cases i
  case psubbMm | psubbXmm | psubwMm | psubwXmm | psubdMm | psubdXmm => rfl
  case vpsubbXmm o | vpsubwXmm o | vpsubdXmm o => exact stepVexXmm_flipW _ o s
  case vpsubbYmm o | vpsubwYmm o | vpsubdYmm o => exact stepVexYmm_flipW _ o s

/-! ## Decoding with W inverted -/

theorem vexThreeHead_flipW (p1 p2 : Byte) :
    vexThreeHead p1 (p2 ^^^ 0x80) = { vexThreeHead p1 p2 with vex := flipW (vexThreeHead p1 p2).vex } := by
  have fields : ∀ p2 : Byte, (p2 ^^^ 0x80).getLsbD 7 = !p2.getLsbD 7 ∧ (p2 ^^^ 0x80).extractLsb' 3 4 = p2.extractLsb' 3 4 ∧
      (p2 ^^^ 0x80).getLsbD 2 = p2.getLsbD 2 ∧ (p2 ^^^ 0x80).extractLsb' 0 2 = p2.extractLsb' 0 2 := by decide
  obtain ⟨hw, hvvvv, hl, hpp⟩ := fields p2
  simp only [vexThreeHead, flipW, hw, hvvvv, hl, hpp]

theorem flipVexW_vexInstr (e : Elem) (l : Bool) (o : VexOps) :
    flipVexW (vexInstr e l o) = vexInstr e l { o with vex := flipW o.vex } := by
  cases e <;> cases l <;> rfl

theorem decodeVexBody_flipW (m : Mode) (p : List LegacyPrefix) (hd : VexHead) (bs : List Byte) :
    decodeVexBody m p { hd with vex := flipW hd.vex } bs = (decodeVexBody m p hd bs).map flipVexW := by
  cases bs with
  | nil => rfl
  | cons op bs =>
    simp only [decodeVexBody, wellFormed_flipW]
    cases elemOfOpcode op with
    | none => rfl
    | some e =>
      dsimp only
      split_ifs
      case neg =>
        cases decodeRM (addressSize m p) bs with
        | error err => rfl
        | ok q => exact congrArg Except.ok (flipVexW_vexInstr e hd.l ⟨p, hd.vex, q.1, q.2.1⟩).symm
      all_goals rfl

/-- Cut off after `n` bytes, as the 15-byte limit may do it. -/
theorem decodeVexThree_flipW (m : Mode) (p : List LegacyPrefix) (p1 p2 : Byte) (t : List Byte) (n : Nat) :
    decodeVexThree m p ((p1 :: (p2 ^^^ 0x80) :: t).take n) =
      (decodeVexThree m p ((p1 :: p2 :: t).take n)).map flipVexW := by
  match n with
  | 0 => rfl
  | 1 =>
    simp only [List.take_succ_cons, List.take_zero, decodeVexThree]
    split <;> rfl
  | n + 2 =>
    simp only [List.take_succ_cons, decodeVexThree, vexThreeHead_flipW, decodeVexBody_flipW]
    split <;> rfl

/-- The limit of 15 bytes may cut inside the run of prefixes. -/
theorem takePrefixes_take_append {m : Mode} {p : List LegacyPrefix} (h : ∀ q ∈ p, q.kind = .rex → m = .mode64) {b : Byte}
    (hb : prefixOfByte m b = none) (t : List Byte) (n : Nat) :
    takePrefixes m ((p.map LegacyPrefix.byte ++ b :: t).take n) = (p.take n, (b :: t).take (n - p.length)) := by
  induction p generalizing n with
  | nil => cases n <;> simp [takePrefixes, hb]
  | cons q p ih =>
    cases n with
    | zero => simp [takePrefixes]
    | succ n =>
      have hq := prefixOfByte_byte (h q (by simp))
      have := ih (fun r hr => h r (by simp [hr])) n
      simp [takePrefixes, hq, this]

theorem prefixOfByte_C4 (m : Mode) : prefixOfByte m 0xC4 = none := by
  cases m <;> rfl

/-- Inverting W changes no refusal either. -/
theorem decode_flipW {m : Mode} {p : List LegacyPrefix} (h : rexOnlyInMode64 m p = true) (p1 p2 : Byte) (rest : List Byte) :
    decode m (p.map LegacyPrefix.byte ++ 0xC4 :: p1 :: (p2 ^^^ 0x80) :: rest) =
      (decode m (p.map LegacyPrefix.byte ++ 0xC4 :: p1 :: p2 :: rest)).map flipVexW := by
  simp only [decode, takePrefixes_take_append (rexOnlyInMode64_iff.1 h) (prefixOfByte_C4 m)]
  cases 15 - p.length with
  | zero => rfl
  | succ n => exact decodeVexThree_flipW m (p.take 15) p1 p2 rest n

/-- Settles O6: decoding commutes with inverting W, and no step template reads W. -/
theorem vexWidthBitIsIgnored : Obligations.VexWidthBitIsIgnored := by
  unfold Obligations.VexWidthBitIsIgnored
  intro m p p1 p2 rest i hp hd
  refine ⟨?_, exec_flipVexW i⟩
  rw [decode_flipW hp, hd]
  rfl

end Sys2Proof.Machine
end

section
/-! The lane function on operands made of n lanes (40_packed_subtract_common.md R67), and with it O10. -/

namespace Sys2Proof.Machine

/-- Settles O10: the lane of the result is the difference of the lanes, which as a number is reduced modulo 2^w. -/
theorem subLanesSubtractsEachLane : Obligations.SubLanesSubtractsEachLane := by
  unfold Obligations.SubLanesSubtractsEachLane
  intro w n a b k hk
  have hlane : lane w (subLanes w n a b) k = lane w a k - lane w b k := lane_subLanes w n a b le_rfl hk
  refine ⟨hlane, ?_⟩
  have hb : (lane w b k).toNat < 2 ^ w := (lane w b k).isLt
  rw [hlane, BitVec.toNat_sub, Nat.add_comm, ← Nat.add_sub_assoc hb.le]

end Sys2Proof.Machine
end

section
/-! What a completed form may write, all twelve forms in two cases (10_state.md R27; 40_packed_subtract_common.md R77, R78),
and with it O23. -/

namespace Sys2Proof.Machine

/-- A completed MMX form writes and marks one MMX register and moves pc. -/
theorem exec_next_eq_of_mmx {i : Instr} {s t : State} (hc : i.formClass = .mmx) (h : exec i s = .next t) :
    ∃ r v, t = ((s.writeMm r v).markMmx r).setPc (s.pc + BitVec.ofNat 64 i.len) := by
  cases i
  case psubbMm | psubwMm | psubdMm => exact ⟨_, stepMmx_next_shape h⟩
  all_goals cases hc

/-- A completed XMM or YMM form writes one YMM register and moves pc. -/
theorem exec_next_eq_of_ne_mmx {i : Instr} {s t : State} (hc : i.formClass ≠ .mmx) (h : exec i s = .next t) :
    ∃ r v, t = (s.writeYmm r v).setPc (s.pc + BitVec.ofNat 64 i.len) := by
  cases i
  case psubbXmm | psubwXmm | psubdXmm => exact ⟨_, stepXmm_next_shape h⟩
  case vpsubbXmm | vpsubwXmm | vpsubdXmm => exact ⟨_, stepVexXmm_next_shape h⟩
  case vpsubbYmm | vpsubwYmm | vpsubdYmm => exact ⟨_, stepVexYmm_next_shape h⟩
  all_goals exact absurd rfl hc

/-- Settles O23: an XMM or YMM form writes a YMM register and pc, and the MMX registers are part of the x87 registers. -/
theorem vectorFormsLeaveX87StateAlone : Obligations.VectorFormsLeaveX87StateAlone := by
  unfold Obligations.VectorFormsLeaveX87StateAlone
  intro i s t hc h
  obtain ⟨r, v, rfl⟩ := exec_next_eq_of_ne_mmx hc h
  exact ⟨rfl, rfl, rfl, fun _ => rfl⟩

end Sys2Proof.Machine
end

section
/-! EFLAGS and MXCSR (40_packed_subtract_common.md R74): of EFLAGS a form reads VM, which is part of the mode, and AC, which
may stop a memory operand but enters no value; of MXCSR it reads nothing; and with them O25. -/

namespace Sys2Proof.Machine

/-! ## Reading under other flags -/

/-- The same state with other flags. -/
def State.setEflags (s : State) (e : BitVec 64) : State := { s with eflags := e }

section
variable {s : State} {e : BitVec 64} (hvm : e.getLsbD 17 = s.eflags.getLsbD 17)
include hvm

theorem State.mode_setEflags : (s.setEflags e).mode = s.mode := by
  have h : (s.setEflags e).eflagsVm = s.eflagsVm := hvm
  unfold State.mode
  rw [h]
  rfl

theorem translateAddr_setEflags (k : AccessKind) (lin : Addr) :
    translateAddr (s.setEflags e) k lin = translateAddr s k lin := by
  unfold translateAddr
  rw [State.mode_setEflags hvm]
  rfl

theorem linearByte_setEflags (lin : Addr) (k : Nat) : linearByte (s.setEflags e) lin k = linearByte s lin k := by
  simp only [linearByte, State.mode_setEflags hvm]

theorem linearAddress_setEflags (g : Seg) (off : Addr) :
    linearAddress (s.setEflags e) g off = linearAddress s g off := by
  have h : (s.setEflags e).segment g = s.segment g := by cases g <;> rfl
  simp only [linearAddress, segBase, State.mode_setEflags hvm, h]

theorem readLinear_setEflags (lin : Addr) (n : Nat) : readLinear (s.setEflags e) lin n = readLinear s lin n := by
  simp only [readLinear, translateAddr_setEflags hvm, linearByte_setEflags hvm]
  rfl

theorem operandAddress_setEflags (p : List LegacyPrefix) (x b : Bool) (len : Nat) (m : MemOperand) :
    operandAddress (s.setEflags e) p x b len m = operandAddress s p x b len m := by
  have hwide : ∀ z pcNext, wideAddress (s.setEflags e) z x b pcNext m = wideAddress s z x b pcNext m := by
    intro z pcNext
    unfold wideAddress
    rw [State.mode_setEflags hvm]
    rfl
  have heff : ∀ z pcNext, effectiveAddress (s.setEflags e) z x b pcNext m = effectiveAddress s z x b pcNext m := by
    intro z pcNext
    unfold effectiveAddress
    rw [hwide, hwide]
    rfl
  unfold operandAddress
  rw [State.mode_setEflags hvm, heff]
  rfl

/-- EFLAGS.AC may stop the read of one of the two, but not change a value that is read. -/
theorem memRead_setEflags_value {c : FormClass} {W : Nat} {g : Seg} {off : Addr} {b b' : BitVec W}
    (h : memRead s c W g off = .ok b) (h' : memRead (s.setEflags e) c W g off = .ok b') : b' = b := by
  obtain ⟨_, _, bs, hbs, rfl⟩ := memRead_eq_ok.1 h
  obtain ⟨_, _, bs', hbs', rfl⟩ := memRead_eq_ok.1 h'
  rw [linearAddress_setEflags hvm, readLinear_setEflags hvm, hbs] at hbs'
  obtain rfl : bs = bs' := Except.ok.inj hbs'
  rfl

/-- The same at the address of a memory operand, which the flags do not enter. -/
theorem memRead_operandAddress_setEflags_value {c : FormClass} {W : Nat} {p : List LegacyPrefix} {x y : Bool} {len : Nat}
    {m : MemOperand} {b b' : BitVec W}
    (h : memRead s c W (operandAddress s p x y len m).1 (operandAddress s p x y len m).2 = .ok b)
    (h' : memRead (s.setEflags e) c W (operandAddress (s.setEflags e) p x y len m).1
      (operandAddress (s.setEflags e) p x y len m).2 = .ok b') : b' = b := by
  rw [operandAddress_setEflags hvm] at h'
  exact memRead_setEflags_value hvm h h'

/-! ## The r/m operand under other flags -/

theorem readMmSource_setEflags_value {o : LegacyOps} {b b' : BitVec 64} (h : readMmSource o s = .ok b)
    (h' : readMmSource o (s.setEflags e) = .ok b') : b' = b := by
  unfold readMmSource at h h'
  cases hr : o.rm with
  | reg r => rw [hr] at h h'; exact Except.ok.inj (h'.symm.trans h)
  | mem m => rw [hr] at h h'; exact memRead_operandAddress_setEflags_value hvm h h'

theorem readXmmSource_setEflags_value {o : LegacyOps} {b b' : BitVec 128} (h : readXmmSource o s = .ok b)
    (h' : readXmmSource o (s.setEflags e) = .ok b') : b' = b := by
  unfold readXmmSource at h h'
  cases hr : o.rm with
  | reg r => rw [hr] at h h'; exact Except.ok.inj (h'.symm.trans h)
  | mem m => rw [hr] at h h'; exact memRead_operandAddress_setEflags_value hvm h h'

theorem readVexXmmSource_setEflags_value {o : VexOps} {b b' : BitVec 128} (h : readVexXmmSource o s = .ok b)
    (h' : readVexXmmSource o (s.setEflags e) = .ok b') : b' = b := by
  unfold readVexXmmSource at h h'
  cases hr : o.rm with
  | reg r => rw [hr] at h h'; exact Except.ok.inj (h'.symm.trans h)
  | mem m => rw [hr] at h h'; exact memRead_operandAddress_setEflags_value hvm h h'

theorem readVexYmmSource_setEflags_value {o : VexOps} {b b' : BitVec 256} (h : readVexYmmSource o s = .ok b)
    (h' : readVexYmmSource o (s.setEflags e) = .ok b') : b' = b := by
  unfold readVexYmmSource at h h'
  cases hr : o.rm with
  | reg r => rw [hr] at h h'; exact Except.ok.inj (h'.symm.trans h)
  | mem m => rw [hr] at h h'; exact memRead_operandAddress_setEflags_value hvm h h'

end

/-! ## A form under other flags -/

/-- Two completing runs of a step template give the same state up to other flags, when their r/m operands have the same value
and their results differ by those flags. -/
theorem next_setEflags_of_source {e : BitVec 64} {α : Type} {check check' : Res Unit} {source source' : Res α} {len : Nat}
    {result result' : α → State} {t t' : State} (hsource : ∀ {b b'}, source = .ok b → source' = .ok b' → b' = b)
    (hresult : ∀ b, result' b = (result b).setEflags e)
    (h : Res.toOutcome (do check; let b ← source; advance len (result b)) = .next t)
    (h' : Res.toOutcome (do check'; let b ← source'; advance len (result' b)) = .next t') : t' = t.setEflags e := by
  simp only [Res.toOutcome_eq_next, Res.bind_eq_ok, advance_eq_ok] at h h'
  obtain ⟨_, _, b, hb, _, rfl⟩ := h
  obtain ⟨_, _, b', hb', _, rfl⟩ := h'
  rw [hsource hb hb', hresult]
  rfl

/-- Two completing executions that differ in EFLAGS, but not in VM, give states that differ in EFLAGS. -/
theorem exec_next_setEflags {i : Instr} {s t t' : State} {e : BitVec 64} (hvm : e.getLsbD 17 = s.eflags.getLsbD 17)
    (h : exec i s = .next t) (h' : exec i (s.setEflags e) = .next t') : t' = t.setEflags e := by
  cases i
  case psubbMm | psubwMm | psubdMm =>
    exact next_setEflags_of_source (readMmSource_setEflags_value hvm) (fun _ => rfl) h h'
  case psubbXmm | psubwXmm | psubdXmm =>
    exact next_setEflags_of_source (readXmmSource_setEflags_value hvm) (fun _ => rfl) h h'
  case vpsubbXmm | vpsubwXmm | vpsubdXmm =>
    exact next_setEflags_of_source (readVexXmmSource_setEflags_value hvm) (fun _ => rfl) h h'
  case vpsubbYmm | vpsubwYmm | vpsubdYmm =>
    exact next_setEflags_of_source (readVexYmmSource_setEflags_value hvm) (fun _ => rfl) h h'

theorem exec_next_eflags {i : Instr} {s t : State} (h : exec i s = .next t) : t.eflags = s.eflags := by
  by_cases hc : i.formClass = .mmx
  · obtain ⟨r, v, rfl⟩ := exec_next_eq_of_mmx hc h
    rfl
  · obtain ⟨r, v, rfl⟩ := exec_next_eq_of_ne_mmx hc h
    rfl

/-! ## A form under another MXCSR -/

/-- The same state with another MXCSR. -/
def State.setMxcsr (s : State) (v : BitVec 32) : State := { s with mxcsr := v }

section
variable (s : State) (v : BitVec 32)

theorem memRead_setMxcsr (c : FormClass) (W : Nat) (g : Seg) (off : Addr) :
    memRead (s.setMxcsr v) c W g off = memRead s c W g off := rfl

theorem readMmSource_setMxcsr (o : LegacyOps) : readMmSource o (s.setMxcsr v) = readMmSource o s := by
  unfold readMmSource
  cases o.rm with
  | reg r => rfl
  | mem m => exact memRead_setMxcsr s v ..

theorem readXmmSource_setMxcsr (o : LegacyOps) : readXmmSource o (s.setMxcsr v) = readXmmSource o s := by
  unfold readXmmSource
  cases o.rm with
  | reg r => rfl
  | mem m => exact memRead_setMxcsr s v ..

theorem readVexXmmSource_setMxcsr (o : VexOps) : readVexXmmSource o (s.setMxcsr v) = readVexXmmSource o s := by
  unfold readVexXmmSource
  cases o.rm with
  | reg r => rfl
  | mem m => exact memRead_setMxcsr s v ..

theorem readVexYmmSource_setMxcsr (o : VexOps) : readVexYmmSource o (s.setMxcsr v) = readVexYmmSource o s := by
  unfold readVexYmmSource
  cases o.rm with
  | reg r => rfl
  | mem m => exact memRead_setMxcsr s v ..

end

theorem toOutcome_advance_setMxcsr {v : BitVec 32} {α : Type} {check check' : Res Unit} {source source' : Res α} {len : Nat}
    {result result' : α → State} (hcheck : check' = check) (hsource : source' = source)
    (hresult : ∀ b, result' b = (result b).setMxcsr v) :
    Res.toOutcome (do check'; let b ← source'; advance len (result' b)) =
      mapNext (·.setMxcsr v) (Res.toOutcome (do check; let b ← source; advance len (result b))) :=
  toOutcome_advance_map (·.setMxcsr v) hcheck hsource hresult (fun _ => rfl) (fun _ _ => rfl) (fun _ => rfl)

/-- No check, no operand and no result of a form reads MXCSR. -/
theorem exec_setMxcsr (i : Instr) (s : State) (v : BitVec 32) :
    exec i (s.setMxcsr v) = mapNext (·.setMxcsr v) (exec i s) := by
  cases i
  case psubbMm o | psubwMm o | psubdMm o =>
    exact toOutcome_advance_setMxcsr rfl (readMmSource_setMxcsr s v o) fun _ => rfl
  case psubbXmm o | psubwXmm o | psubdXmm o =>
    exact toOutcome_advance_setMxcsr rfl (readXmmSource_setMxcsr s v o) fun _ => rfl
  case vpsubbXmm o | vpsubwXmm o | vpsubdXmm o =>
    exact toOutcome_advance_setMxcsr rfl (readVexXmmSource_setMxcsr s v o) fun _ => rfl
  case vpsubbYmm o | vpsubwYmm o | vpsubdYmm o =>
    exact toOutcome_advance_setMxcsr rfl (readVexYmmSource_setMxcsr s v o) fun _ => rfl

/-! ## Numeric exceptions -/

/-- Vector 19 (SIMD floating-point) is no vector of the family (60_exceptions.md R109). -/
theorem Fault.vector_ne_simd (f : Fault) : f.vector ≠ 19 := by
  cases f <;> simp [Fault.vector]

theorem Fault.eq_mf_of_vector {f : Fault} (h : f.vector = 16) : ∃ p, f = .mf p := by
  cases f
  case mf p => exact ⟨p, rfl⟩
  all_goals simp [Fault.vector] at h

/-- #MF comes from the checks of a form alone, and these raise it only while an x87 exception is pending. -/
theorem x87Es_of_exec_fault_mf {i : Instr} {s : State} {p : Addr} (h : exec i s = .fault (.mf p)) : s.x87Es = true := by
  rcases exec_eq_fault.1 h with hcheck | ⟨_, W, g, off, _, hread⟩ | ⟨_, _, _, hwrap⟩
  · rcases checkForm_eq_error.1 hcheck with ⟨_, hud⟩ | ⟨_, _, hnm⟩ | ⟨_, _, _, hes, _⟩
    · cases hud
    · cases hnm
    · exact hes
  · exact absurd (memRead_stops hread) (by simp)
  · cases hwrap

/-- Settles O25: the two cases of what a form writes, the value of its operand under other flags, the step templates under
another MXCSR, and the checks as the one origin of #MF. -/
theorem flagsAndNumericExceptions : Obligations.FlagsAndNumericExceptions := by
  unfold Obligations.FlagsAndNumericExceptions
  refine fun i s => ⟨fun t h => ?written, fun e t t' hvm h h' => ?read, fun v => ?mxcsr, fun f h => ?numeric⟩
  case written => exact exec_next_eflags h
  case read => exact exec_next_setEflags hvm h h'
  case mxcsr => exact exec_setMxcsr i s v
  case numeric =>
    refine ⟨f.vector_ne_simd, fun hf => ?_⟩
    obtain ⟨p, rfl⟩ := Fault.eq_mf_of_vector hf
    exact x87Es_of_exec_fault_mf h

end Sys2Proof.Machine
end

section
/-! The first two stops in the order of 60_exceptions.md R101, #UD (R94) and #NM (R95): both come from the checks of a form and
from nothing after them; and with them O27 and O28. -/

namespace Sys2Proof.Machine

/-- A fault that no memory operand raises is raised by an instruction exactly when the checks of its form raise it: past these
there is only the refusal of a pc that wraps around. -/
theorem exec_eq_fault_iff_checkForm {i : Instr} {s : State} {f : Fault}
    (hread : ∀ W g off, memRead s i.formClass W g off ≠ .error (.fault f)) :
    exec i s = .fault f ↔ checkForm i.formClass i.prefixes s = .error (.fault f) := by
  rw [exec_eq_fault]
  constructor
  · rintro (hcheck | ⟨_, W, g, off, _, h⟩ | ⟨_, _, _, hwrap⟩)
    · exact hcheck
    · exact absurd h (hread W g off)
    · cases hwrap
  · exact .inl

section
variable {c : FormClass} {p : List LegacyPrefix} {s : State} {a : Addr}

theorem checkForm_eq_ud : checkForm c p s = .error (.fault (.ud a)) ↔ a = s.pc ∧ Undefined c p s := by
  rw [checkForm_eq_error]
  simp [and_comm]

theorem checkForm_eq_nm :
    checkForm c p s = .error (.fault (.nm a)) ↔ a = s.pc ∧ ¬ Undefined c p s ∧ s.cr0Ts = true := by
  rw [checkForm_eq_error]
  simp [and_comm, and_left_comm]

theorem memRead_ne_ud (W : Nat) (g : Seg) (off : Addr) : memRead s c W g off ≠ .error (.fault (.ud a)) :=
  fun h => absurd (memRead_stops h) (by simp)

theorem memRead_ne_nm (W : Nat) (g : Seg) (off : Addr) : memRead s c W g off ≠ .error (.fault (.nm a)) :=
  fun h => absurd (memRead_stops h) (by simp)

end

/-- Settles O27: no memory operand raises #UD, so it is the first of the checks of the form. -/
theorem invalidOpcodeExactlyWhenUndefined : Obligations.InvalidOpcodeExactlyWhenUndefined := by
  unfold Obligations.InvalidOpcodeExactlyWhenUndefined
  intro i s a
  rw [exec_eq_fault_iff_checkForm memRead_ne_ud, checkForm_eq_ud]

/-- Settles O28: no memory operand raises #NM, so it is the second of the checks of the form. -/
theorem deviceNotAvailableExactlyWhenTaskSwitched : Obligations.DeviceNotAvailableExactlyWhenTaskSwitched := by
  unfold Obligations.DeviceNotAvailableExactlyWhenTaskSwitched
  intro i s a
  rw [exec_eq_fault_iff_checkForm memRead_ne_nm, checkForm_eq_nm]

end Sys2Proof.Machine
end

section
/-! Decoding and encoding (30_encoding.md R42 to R66): the decoder behind a run of prefixes, the two shapes of an instruction,
and each direction of the round trip; with them O1 and O2. -/

namespace Sys2Proof

/-! ## The decoder behind a run of prefixes -/

theorem prefixOfByte_escape (m : Mode) : prefixOfByte m 0x0F = none := by
  cases m <;> rfl

theorem prefixOfByte_C5 (m : Mode) : prefixOfByte m 0xC5 = none := by
  cases m <;> rfl

/-- Of the bytes after the first 15 or fewer the decoder sees as many as the limit of 15 leaves. -/
theorem exists_decode_append_eq (m : Mode) {front : List Byte} (h : front.length ≤ 15) (rest : List Byte) :
    ∃ rest', (front ++ rest').length ≤ 15 ∧ decode m (front ++ rest) = decode m (front ++ rest') := by
  have htake : (front ++ rest).take 15 = front ++ rest.take (15 - front.length) := by
    rw [List.take_append, List.take_of_length_le h]
  have hlen : (front ++ rest.take (15 - front.length)).length ≤ 15 := htake ▸ List.length_take_le 15 _
  refine ⟨rest.take (15 - front.length), hlen, ?_⟩
  simp only [decode, htake, List.take_of_length_le hlen]

section
variable {m : Mode} {p : List LegacyPrefix} {t : List Byte} (hrex : rexOnlyInMode64 m p = true)
include hrex

/-- Within the limit the run of prefixes ends at the first byte that is none. -/
theorem takePrefixes_take_fifteen {b : Byte} (hb : prefixOfByte m b = none)
    (hlen : (p.map LegacyPrefix.byte ++ b :: t).length ≤ 15) :
    takePrefixes m ((p.map LegacyPrefix.byte ++ b :: t).take 15) = (p, b :: t) := by
  rw [List.take_of_length_le hlen, takePrefixes_append (rexOnlyInMode64_iff.1 hrex) hb]

theorem decode_escape (hlen : (p.map LegacyPrefix.byte ++ 0x0F :: t).length ≤ 15) :
    decode m (p.map LegacyPrefix.byte ++ 0x0F :: t) = decodeLegacy m p t := by
  rw [decode, takePrefixes_take_fifteen hrex (prefixOfByte_escape m) hlen]
  simp

theorem decode_C5 (hlen : (p.map LegacyPrefix.byte ++ 0xC5 :: t).length ≤ 15) :
    decode m (p.map LegacyPrefix.byte ++ 0xC5 :: t) = decodeVexTwo m p t := by
  rw [decode, takePrefixes_take_fifteen hrex (prefixOfByte_C5 m) hlen]
  simp

theorem decode_C4 (hlen : (p.map LegacyPrefix.byte ++ 0xC4 :: t).length ≤ 15) :
    decode m (p.map LegacyPrefix.byte ++ 0xC4 :: t) = decodeVexThree m p t := by
  rw [decode, takePrefixes_take_fifteen hrex (Machine.prefixOfByte_C4 m) hlen]
  simp

end

/-- What a decoded byte sequence begins with: prefixes, then a legacy shape, a two-byte or a three-byte VEX shape. -/
theorem decode_ok_cases {m : Mode} {bs : List Byte} {i : Instr} (h : decode m bs = .ok i) :
    ∃ p t, rexOnlyInMode64 m p = true ∧
      ((bs.take 15 = p.map LegacyPrefix.byte ++ 0x0F :: t ∧ decodeLegacy m p t = .ok i) ∨
        (bs.take 15 = p.map LegacyPrefix.byte ++ 0xC5 :: t ∧ decodeVexTwo m p t = .ok i) ∨
        (bs.take 15 = p.map LegacyPrefix.byte ++ 0xC4 :: t ∧ decodeVexThree m p t = .ok i)) := by
  obtain ⟨hbytes, hrex, _⟩ := takePrefixes_spec m (bs.take 15)
  unfold decode at h
  split at h
  · cases h
  · next p b t hsplit =>
    rw [hsplit] at hbytes hrex
    refine ⟨p, t, rexOnlyInMode64_iff.2 hrex, ?_⟩
    split_ifs at h with h0F hC5 hC4
    · subst h0F; exact .inl ⟨hbytes, h⟩
    · subst hC5; exact .inr (.inl ⟨hbytes, h⟩)
    · subst hC4; exact .inr (.inr ⟨hbytes, h⟩)

/-! ## The two shapes -/

/-- Every instruction is a legacy shape or a VEX shape of an element type, with that type's opcode. -/
theorem exists_eq_legacyInstr_or_vexInstr (i : Instr) :
    (∃ op e x o, elemOfOpcode op = some e ∧ i = legacyInstr e x o) ∨
      ∃ op e l o, elemOfOpcode op = some e ∧ i = vexInstr e l o := by
  cases i with
  | psubbMm o => exact .inl ⟨0xF8, .b, false, o, rfl, rfl⟩
  | psubbXmm o => exact .inl ⟨0xF8, .b, true, o, rfl, rfl⟩
  | psubwMm o => exact .inl ⟨0xF9, .w, false, o, rfl, rfl⟩
  | psubwXmm o => exact .inl ⟨0xF9, .w, true, o, rfl, rfl⟩
  | psubdMm o => exact .inl ⟨0xFA, .d, false, o, rfl, rfl⟩
  | psubdXmm o => exact .inl ⟨0xFA, .d, true, o, rfl, rfl⟩
  | vpsubbXmm o => exact .inr ⟨0xF8, .b, false, o, rfl, rfl⟩
  | vpsubwXmm o => exact .inr ⟨0xF9, .w, false, o, rfl, rfl⟩
  | vpsubdXmm o => exact .inr ⟨0xFA, .d, false, o, rfl, rfl⟩
  | vpsubbYmm o => exact .inr ⟨0xF8, .b, true, o, rfl, rfl⟩
  | vpsubwYmm o => exact .inr ⟨0xF9, .w, true, o, rfl, rfl⟩
  | vpsubdYmm o => exact .inr ⟨0xFA, .d, true, o, rfl, rfl⟩

theorem LegacyOps.wellFormed_iff {m : Mode} {x : Bool} {o : LegacyOps} :
    o.wellFormed m x = true ↔ prefixesOnce o.prefixes = true ∧ rexOnlyInMode64 m o.prefixes = true ∧
      noRepeatPrefix o.prefixes = true ∧ hasKind .opSize o.prefixes = x ∧
      o.rm.wellFormed (addressSize m o.prefixes) = true ∧ o.len ≤ 15 := by
  simp [LegacyOps.wellFormed, and_assoc]

theorem VexOps.wellFormed_iff {m : Mode} {o : VexOps} :
    o.wellFormed m = true ↔ prefixesOnce o.prefixes = true ∧ rexOnlyInMode64 m o.prefixes = true ∧
      o.vex.wellFormed m = true ∧ o.rm.wellFormed (addressSize m o.prefixes) = true ∧ o.len ≤ 15 := by
  simp [VexOps.wellFormed, and_assoc]

/-! ## Decoding an encoding -/

theorem decodeLegacy_encode {m : Mode} {op : Byte} {e : Elem} {x : Bool} {o : LegacyOps} (he : elemOfOpcode op = some e)
    (hw : o.wellFormed m x = true) (t : List Byte) :
    decodeLegacy m o.prefixes (op :: (encodeRM o.reg o.rm ++ t)) = .ok (legacyInstr e x o) := by
  obtain ⟨honce, _, hrep, hx, hrm, _⟩ := LegacyOps.wellFormed_iff.1 hw
  simp only [decodeLegacy, he, hrep, honce, hx, decodeRM_encodeRM o.reg hrm t]
  rfl

theorem decodeVexBody_encode {m : Mode} {op : Byte} {e : Elem} {l : Bool} {o : VexOps} (he : elemOfOpcode op = some e)
    (hw : o.wellFormed m = true) (t : List Byte) :
    decodeVexBody m o.prefixes ⟨o.vex, 1, l, 1⟩ (op :: (encodeRM o.reg o.rm ++ t)) = .ok (vexInstr e l o) := by
  obtain ⟨honce, _, hvex, hrm, _⟩ := VexOps.wellFormed_iff.1 hw
  simp only [decodeVexBody, he, honce, hvex, decodeRM_encodeRM o.reg hrm t]
  rfl

/-- The byte after C5 in a well-formed two-byte VEX is no ModRM of LDS (30_encoding.md R61). -/
theorem isVexPayload_two {m : Mode} {r : Bool} {v : BitVec 4} (h : (Vex.two r v).wellFormed m = true) (l : Bool) :
    isVexPayload m (BitVec.ofBool (!r) ++ (~~~ v) ++ BitVec.ofBool l ++ 1#2) = true := by
  have bits : ∀ (l : Bool) (v : BitVec 4), v.getLsbD 3 = false →
      (BitVec.ofBool (!false) ++ (~~~ v) ++ BitVec.ofBool l ++ 1#2 : Byte).extractLsb' 6 2 = 3 := by decide
  simp only [Vex.wellFormed, isVexPayload, Vex.r, Vex.x, Vex.b, Vex.vvvv, Bool.or_eq_true, Bool.and_eq_true,
    Bool.not_eq_true', decide_eq_true_eq] at h ⊢
  refine h.imp_right ?_
  rintro ⟨⟨⟨rfl, _⟩, _⟩, hv⟩
  exact bits l v hv

/-- The byte after C4 in a well-formed three-byte VEX is no ModRM of LES (30_encoding.md R61). -/
theorem isVexPayload_three {m : Mode} {r x b w : Bool} {v : BitVec 4} (h : (Vex.three r x b w v).wellFormed m = true) :
    isVexPayload m (BitVec.ofBool (!r) ++ BitVec.ofBool (!x) ++ BitVec.ofBool (!b) ++ 1#5) = true := by
  have bits : ∀ b : Bool,
      (BitVec.ofBool (!false) ++ BitVec.ofBool (!false) ++ BitVec.ofBool (!b) ++ 1#5 : Byte).extractLsb' 6 2 = 3 := by decide
  simp only [Vex.wellFormed, isVexPayload, Vex.r, Vex.x, Vex.b, Vex.vvvv, Bool.or_eq_true, Bool.and_eq_true,
    Bool.not_eq_true', decide_eq_true_eq] at h ⊢
  refine h.imp_right ?_
  rintro ⟨⟨⟨rfl, rfl⟩, _⟩, _⟩
  exact bits b

theorem decode_encodeLegacy {m : Mode} {op : Byte} {e : Elem} {x : Bool} {o : LegacyOps} (he : elemOfOpcode op = some e)
    (hw : o.wellFormed m x = true) (rest : List Byte) :
    decode m (encodeLegacy op o ++ rest) = .ok (legacyInstr e x o) := by
  obtain ⟨_, hrex, _, _, _, hlen⟩ := LegacyOps.wellFormed_iff.1 hw
  obtain ⟨t, ht, hdecode⟩ := exists_decode_append_eq m (length_encodeLegacy op o ▸ hlen) rest
  have hbytes : encodeLegacy op o ++ t =
      o.prefixes.map LegacyPrefix.byte ++ 0x0F :: op :: (encodeRM o.reg o.rm ++ t) := by simp [encodeLegacy]
  rw [hbytes] at ht hdecode
  rw [hdecode, decode_escape hrex ht, decodeLegacy_encode he hw]

theorem decode_encodeVex {m : Mode} {op : Byte} {e : Elem} {l : Bool} {o : VexOps} (he : elemOfOpcode op = some e)
    (hw : o.wellFormed m = true) (rest : List Byte) :
    decode m (encodeVex op l o ++ rest) = .ok (vexInstr e l o) := by
  obtain ⟨_, hrex, hvex, _, hlen⟩ := VexOps.wellFormed_iff.1 hw
  obtain ⟨t, ht, hdecode⟩ := exists_decode_append_eq m (length_encodeVex op l o ▸ hlen) rest
  have hbytes : encodeVex op l o ++ t =
      o.prefixes.map LegacyPrefix.byte ++ (encodeVexPrefix l o.vex ++ op :: (encodeRM o.reg o.rm ++ t)) := by simp [encodeVex]
  have hbody := decodeVexBody_encode (l := l) he hw t
  rw [hbytes] at ht hdecode
  rw [hdecode]
  cases hv : o.vex with
  | two r v =>
    rw [hv] at hvex hbody ht
    simp only [encodeVexPrefix, List.cons_append, List.nil_append] at ht ⊢
    rw [decode_C5 hrex ht, decodeVexTwo, isVexPayload_two hvex, vexTwoHead_encode]
    exact hbody
  | three r x b w v =>
    rw [hv] at hvex hbody ht
    simp only [encodeVexPrefix, List.cons_append, List.nil_append] at ht ⊢
    rw [decode_C4 hrex ht, decodeVexThree, isVexPayload_three hvex, vexThreeHead_encode]
    exact hbody

/-- Settles O1: for each of the two shapes the decoder takes apart what the encoder put together. -/
theorem decodeOfEncodeIsIdentity : Obligations.DecodeOfEncodeIsIdentity := by
  unfold Obligations.DecodeOfEncodeIsIdentity
  intro m i rest hw
  rcases exists_eq_legacyInstr_or_vexInstr i with ⟨op, e, x, o, he, rfl⟩ | ⟨op, e, l, o, he, rfl⟩
  · rw [encode_legacyInstr he]
    exact decode_encodeLegacy he (wellFormed_legacyInstr m e x o ▸ hw) rest
  · rw [encode_vexInstr he]
    exact decode_encodeVex he (wellFormed_vexInstr m e l o ▸ hw) rest

/-! ## Encoding what was decoded -/

section
variable {m : Mode} {p : List LegacyPrefix} {bs t : List Byte} {i : Instr} (hrex : rexOnlyInMode64 m p = true)
  (hlen : bs.length ≤ 15)
include hrex hlen

theorem wellFormed_encode_of_decodeLegacy (hbs : bs = p.map LegacyPrefix.byte ++ 0x0F :: t)
    (h : decodeLegacy m p t = .ok i) : i.wellFormed m = true ∧ encode i <+: bs := by
  obtain ⟨op, e, reg, rm, t, he, hrep, honce, rfl, hrm, rfl⟩ := decodeLegacy_ok h
  have hbytes : bs = encodeLegacy op ⟨p, reg, rm⟩ ++ t := by simp [hbs, encodeLegacy]
  have hlen' : LegacyOps.len ⟨p, reg, rm⟩ ≤ 15 := by
    rw [hbytes, List.length_append, length_encodeLegacy] at hlen
    omega
  rw [wellFormed_legacyInstr, encode_legacyInstr he]
  exact ⟨LegacyOps.wellFormed_iff.2 ⟨honce, hrex, hrep, rfl, hrm, hlen'⟩, t, hbytes.symm⟩

theorem wellFormed_encode_of_decodeVexBody {hd : VexHead} (hhead : hd.pp = 1 → hd.mmmmm = 1 →
      bs = p.map LegacyPrefix.byte ++ (encodeVexPrefix hd.l hd.vex ++ t))
    (h : decodeVexBody m p hd t = .ok i) : i.wellFormed m = true ∧ encode i <+: bs := by
  obtain ⟨op, e, reg, rm, t, he, hpp, hmm, honce, hvex, rfl, hrm, rfl⟩ := decodeVexBody_ok h
  have hbytes : bs = encodeVex op hd.l ⟨p, hd.vex, reg, rm⟩ ++ t := by simp [hhead hpp hmm, encodeVex]
  have hlen' : VexOps.len ⟨p, hd.vex, reg, rm⟩ ≤ 15 := by
    rw [hbytes, List.length_append, length_encodeVex] at hlen
    omega
  rw [wellFormed_vexInstr, encode_vexInstr he]
  exact ⟨VexOps.wellFormed_iff.2 ⟨honce, hrex, hvex, hrm, hlen'⟩, t, hbytes.symm⟩

theorem wellFormed_encode_of_decodeVexTwo (hbs : bs = p.map LegacyPrefix.byte ++ 0xC5 :: t)
    (h : decodeVexTwo m p t = .ok i) : i.wellFormed m = true ∧ encode i <+: bs := by
  unfold decodeVexTwo at h
  split at h
  · cases h
  · next p0 t =>
    split_ifs at h
    refine wellFormed_encode_of_decodeVexBody hrex hlen (fun hpp _ => ?_) h
    rw [vexTwoHead_bytes p0 hpp, hbs]
    rfl

theorem wellFormed_encode_of_decodeVexThree (hbs : bs = p.map LegacyPrefix.byte ++ 0xC4 :: t)
    (h : decodeVexThree m p t = .ok i) : i.wellFormed m = true ∧ encode i <+: bs := by
  unfold decodeVexThree at h
  split at h
  · cases h
  · split_ifs at h
  · next p1 p2 t =>
    split_ifs at h
    refine wellFormed_encode_of_decodeVexBody hrex hlen (fun hpp hmm => ?_) h
    rw [vexThreeHead_bytes p1 p2 hpp hmm, hbs]
    rfl

end

/-- Settles O2: behind the prefixes each shape gives back the bytes it was read from, and those are among the first 15. -/
theorem decodedInstructionIsWellFormedAndReencodes : Obligations.DecodedInstructionIsWellFormedAndReencodes := by
  unfold Obligations.DecodedInstructionIsWellFormedAndReencodes
  intro m bs i h
  have hlen : (bs.take 15).length ≤ 15 := List.length_take_le 15 bs
  suffices hfront : i.wellFormed m = true ∧ encode i <+: bs.take 15 from
    ⟨hfront.1, hfront.2.trans (List.take_prefix 15 bs)⟩
  obtain ⟨p, t, hrex, ⟨hbs, h⟩ | ⟨hbs, h⟩ | ⟨hbs, h⟩⟩ := decode_ok_cases h
  · exact wellFormed_encode_of_decodeLegacy hrex hlen hbs h
  · exact wellFormed_encode_of_decodeVexTwo hrex hlen hbs h
  · exact wellFormed_encode_of_decodeVexThree hrex hlen hbs h

end Sys2Proof
end

section
/-! The lengths of instructions (30_encoding.md R63), and with them O3. -/

namespace Sys2Proof

theorem hasKind_eq_false {k : PrefixKind} {p : List LegacyPrefix} : hasKind k p = false ↔ ∀ q ∈ p, q.kind ≠ k := by
  simp [hasKind]

theorem hasKind_eq_true {k : PrefixKind} {p : List LegacyPrefix} : hasKind k p = true ↔ ∃ q ∈ p, q.kind = k := by
  simp [hasKind]

/-- Prefixes of different kinds are no more than the kinds they may have. -/
theorem length_le_of_kinds {p : List LegacyPrefix} (honce : prefixesOnce p = true) {kinds : List PrefixKind}
    (h : ∀ q ∈ p, q.kind ∈ kinds) : p.length ≤ kinds.length := by
  have hsub : p.map LegacyPrefix.kind ⊆ kinds := by
    intro k hk
    obtain ⟨q, hq, rfl⟩ := List.mem_map.1 hk
    exact h q hq
  simpa using ((of_decide_eq_true honce : (p.map LegacyPrefix.kind).Nodup).subperm hsub).length_le

theorem length_legacyPrefixes_le {p : List LegacyPrefix} (honce : prefixesOnce p = true) (hrep : noRepeatPrefix p = true)
    (hlock : hasKind .lock p = false) : p.length ≤ 4 := by
  simp only [noRepeatPrefix, Bool.and_eq_true, Bool.not_eq_true', hasKind_eq_false] at hrep
  rw [hasKind_eq_false] at hlock
  obtain ⟨hF2, hF3⟩ := hrep
  refine length_le_of_kinds honce (kinds := [.opSize, .addrSize, .segment, .rex]) fun q hq => ?_
  cases q
  case lock => exact absurd rfl (hlock _ hq)
  case repne => exact absurd rfl (hF2 _ hq)
  case rep => exact absurd rfl (hF3 _ hq)
  all_goals simp [LegacyPrefix.kind]

theorem length_vexPrefixes_le {p : List LegacyPrefix} (honce : prefixesOnce p = true) (hvex : vexForbidden p = false)
    (hlock : hasKind .lock p = false) : p.length ≤ 2 := by
  simp only [vexForbidden, Bool.or_eq_false_iff, hasKind_eq_false] at hvex
  rw [hasKind_eq_false] at hlock
  obtain ⟨⟨⟨h66, hF2⟩, hF3⟩, hrex⟩ := hvex
  refine length_le_of_kinds honce (kinds := [.addrSize, .segment]) fun q hq => ?_
  cases q
  case lock => exact absurd rfl (hlock _ hq)
  case opSize => exact absurd rfl (h66 _ hq)
  case repne => exact absurd rfl (hF2 _ hq)
  case rep => exact absurd rfl (hF3 _ hq)
  case rex => exact absurd rfl (hrex _ hq)
  all_goals simp [LegacyPrefix.kind]

theorem RM.len_le (rm : RM) : rm.len ≤ 5 := by
  cases rm with
  | reg r => exact Nat.zero_le 5
  | mem m =>
    have hsib : sibLen m.sib ≤ 1 := by cases m.sib <;> simp [sibLen]
    have hdisp : m.disp.len ≤ 4 := by cases m.disp <;> simp [Disp.len]
    exact Nat.add_le_add hsib hdisp

theorem Vex.len_bounds (v : Vex) : 2 ≤ v.len ∧ v.len ≤ 3 := by
  cases v <;> simp [Vex.len]

/-! ## The parts of an instruction, by its shape -/

section
variable (e : Elem)

@[simp] theorem len_legacyInstr (x : Bool) (o : LegacyOps) : (legacyInstr e x o).len = o.len := by
  cases e <;> cases x <;> rfl

@[simp] theorem len_vexInstr (l : Bool) (o : VexOps) : (vexInstr e l o).len = o.len := by
  cases e <;> cases l <;> rfl

@[simp] theorem prefixes_legacyInstr (x : Bool) (o : LegacyOps) : (legacyInstr e x o).prefixes = o.prefixes := by
  cases e <;> cases x <;> rfl

@[simp] theorem prefixes_vexInstr (l : Bool) (o : VexOps) : (vexInstr e l o).prefixes = o.prefixes := by
  cases e <;> cases l <;> rfl

theorem formClass_vexInstr (l : Bool) (o : VexOps) :
    (vexInstr e l o).formClass = .vex128 ∨ (vexInstr e l o).formClass = .vex256 := by
  cases e <;> cases l <;> simp [vexInstr, Instr.formClass]

end

theorem length_encode (i : Instr) : (encode i).length = i.len := by
  rcases exists_eq_legacyInstr_or_vexInstr i with ⟨op, e, x, o, he, rfl⟩ | ⟨op, e, l, o, he, rfl⟩
  · rw [encode_legacyInstr he, length_encodeLegacy, len_legacyInstr]
  · rw [encode_vexInstr he, length_encodeVex, len_vexInstr]

theorem three_le_len (i : Instr) : 3 ≤ i.len := by
  rcases exists_eq_legacyInstr_or_vexInstr i with ⟨op, e, x, o, he, rfl⟩ | ⟨op, e, l, o, he, rfl⟩
  · simp only [len_legacyInstr, LegacyOps.len]
    omega
  · have := o.vex.len_bounds
    simp only [len_vexInstr, VexOps.len]
    omega

theorem Instr.len_le_fifteen {m : Mode} {i : Instr} (h : i.wellFormed m = true) : i.len ≤ 15 := by
  rcases exists_eq_legacyInstr_or_vexInstr i with ⟨op, e, x, o, he, rfl⟩ | ⟨op, e, l, o, he, rfl⟩
  · obtain ⟨_, _, _, _, _, hlen⟩ := LegacyOps.wellFormed_iff.1 (wellFormed_legacyInstr m e x o ▸ h)
    rwa [len_legacyInstr]
  · obtain ⟨_, _, _, _, hlen⟩ := VexOps.wellFormed_iff.1 (wellFormed_vexInstr m e l o ▸ h)
    rwa [len_vexInstr]

theorem LegacyOps.len_le_twelve {m : Mode} {x : Bool} {o : LegacyOps} (h : o.wellFormed m x = true)
    (hlock : hasKind .lock o.prefixes = false) : o.len ≤ 12 := by
  obtain ⟨honce, _, hrep, _⟩ := LegacyOps.wellFormed_iff.1 h
  have hp := length_legacyPrefixes_le honce hrep hlock
  have hrm := o.rm.len_le
  unfold LegacyOps.len
  omega

theorem VexOps.len_le_twelve {m : Mode} {o : VexOps} (h : o.wellFormed m = true)
    (hlock : hasKind .lock o.prefixes = false) (hvex : vexForbidden o.prefixes = false) : o.len ≤ 12 := by
  obtain ⟨honce, _⟩ := VexOps.wellFormed_iff.1 h
  have hp := length_vexPrefixes_le honce hvex hlock
  have hrm := o.rm.len_le
  have hv := o.vex.len_bounds
  unfold VexOps.len
  omega

/-- Settles O3: prefixes of different kinds, at most three bytes of VEX and at most five after ModRM. -/
theorem instructionLengthBounds : Obligations.InstructionLengthBounds := by
  unfold Obligations.InstructionLengthBounds
  refine fun m i h => ⟨three_le_len i, Instr.len_le_fifteen h, length_encode i, fun hlock hvex => ?_⟩
  rcases exists_eq_legacyInstr_or_vexInstr i with ⟨op, e, x, o, he, rfl⟩ | ⟨op, e, l, o, he, rfl⟩
  · rw [prefixes_legacyInstr] at hlock
    rw [len_legacyInstr]
    exact LegacyOps.len_le_twelve (wellFormed_legacyInstr m e x o ▸ h) hlock
  · rw [prefixes_vexInstr] at hlock hvex
    rw [len_vexInstr]
    exact VexOps.len_le_twelve (wellFormed_vexInstr m e l o ▸ h) hlock (hvex (formClass_vexInstr e l o))

end Sys2Proof
end

section
/-! What decoding refuses (30_encoding.md R61, R65), sample words, and the registers an instruction names (10_state.md R15); with
them O4, O5, O7 and O9. -/

namespace Sys2Proof

/-! ## Refusals -/

theorem elemOfOpcode_isSome {op : Byte} (h : op = 0xF8 ∨ op = 0xF9 ∨ op = 0xFA) : ∃ e, elemOfOpcode op = some e := by
  rcases h with rfl | rfl | rfl
  · exact ⟨.b, rfl⟩
  · exact ⟨.w, rfl⟩
  · exact ⟨.d, rfl⟩

theorem noRepeatPrefix_eq_false {p : List LegacyPrefix} (h : LegacyPrefix.repne ∈ p ∨ LegacyPrefix.rep ∈ p) :
    noRepeatPrefix p = false := by
  rw [noRepeatPrefix, Bool.and_eq_false_iff, Bool.not_eq_false', Bool.not_eq_false']
  exact h.imp (fun h => hasKind_eq_true.2 ⟨_, h, rfl⟩) fun h => hasKind_eq_true.2 ⟨_, h, rfl⟩

/-- Settles O4: with at most 13 prefixes the opcode is within the limit, and F2 and F3 are looked for first. -/
theorem legacyShapeWithRepeatPrefixIsRefused : Obligations.LegacyShapeWithRepeatPrefixIsRefused := by
  unfold Obligations.LegacyShapeWithRepeatPrefixIsRefused
  intro m p op rest hrex hp hop hrep
  obtain ⟨e, he⟩ := elemOfOpcode_isSome hop
  obtain ⟨t, ht, hdecode⟩ := exists_decode_append_eq m (front := p.map LegacyPrefix.byte ++ [0x0F, op]) (by simp; omega) rest
  simp only [List.append_assoc, List.cons_append, List.nil_append] at ht hdecode
  rw [hdecode, decode_escape hrex ht]
  simp [decodeLegacy, he, noRepeatPrefix_eq_false hrep]

section
variable {m : Mode} (hm : m ≠ .mode64)
include hm

theorem isVexPayload_eq_false {b : Byte} (hb : b.extractLsb' 6 2 ≠ 3) : isVexPayload m b = false := by
  simpa [isVexPayload, hm] using hb

theorem decode_les {b : Byte} (hb : b.extractLsb' 6 2 ≠ 3) (rest : List Byte) :
    decode m (0xC4 :: b :: rest) = .error .notThisFamily := by
  obtain ⟨t, ht, hdecode⟩ := exists_decode_append_eq m (front := [0xC4, b]) (by simp) rest
  refine hdecode.trans ((decode_C4 (p := []) (by simp [rexOnlyInMode64, hasKind]) ht).trans ?_)
  cases t <;> simp [decodeVexThree, isVexPayload_eq_false hm hb]

theorem decode_lds {b : Byte} (hb : b.extractLsb' 6 2 ≠ 3) (rest : List Byte) :
    decode m (0xC5 :: b :: rest) = .error .notThisFamily := by
  obtain ⟨t, ht, hdecode⟩ := exists_decode_append_eq m (front := [0xC5, b]) (by simp) rest
  refine hdecode.trans ((decode_C5 (p := []) (by simp [rexOnlyInMode64, hasKind]) ht).trans ?_)
  simp [decodeVexTwo, isVexPayload_eq_false hm hb]

/-- Stored inverted, P1[5] = 0 is VEX.B = 1 and P2[6] = 0 is bit 3 of vvvv = 1. -/
theorem wellFormed_vexThreeHead_eq_false {p1 p2 : Byte} (h : p1.getLsbD 5 = false ∨ p2.getLsbD 6 = false) :
    (vexThreeHead p1 p2).vex.wellFormed m = false := by
  have hvvvv : ∀ p2 : Byte, p2.getLsbD 6 = false → (~~~ (p2.extractLsb' 3 4)).getLsbD 3 = true := by decide
  simp only [vexThreeHead, Vex.wellFormed, Vex.b, Vex.vvvv, hm, decide_false, Bool.false_or]
  rcases h with h | h
  · simp only [h, Bool.not_false, Bool.not_true, Bool.and_false, Bool.false_and]
  · simp only [hvvvv p2 h, Bool.not_true, Bool.and_false]

theorem decode_vexHighReg {p1 p2 op : Byte} (hpayload : p1.extractLsb' 6 2 = 3) (hmm : p1.extractLsb' 0 5 = 1)
    (hpp : p2.extractLsb' 0 2 = 1) (hop : op = 0xF8 ∨ op = 0xF9 ∨ op = 0xFA)
    (h : p1.getLsbD 5 = false ∨ p2.getLsbD 6 = false) (rest : List Byte) :
    decode m (0xC4 :: p1 :: p2 :: op :: rest) = .error .vexHighRegOutside64 := by
  obtain ⟨e, he⟩ := elemOfOpcode_isSome hop
  have hvex := wellFormed_vexThreeHead_eq_false hm h
  have hhead : (vexThreeHead p1 p2).pp = 1 ∧ (vexThreeHead p1 p2).mmmmm = 1 := ⟨hpp, hmm⟩
  obtain ⟨t, ht, hdecode⟩ := exists_decode_append_eq m (front := [0xC4, p1, p2, op]) (by simp) rest
  refine hdecode.trans ((decode_C4 (p := []) (by simp [rexOnlyInMode64, hasKind]) ht).trans ?_)
  simp [decodeVexThree, isVexPayload, hpayload, decodeVexBody, he, hhead, prefixesOnce, hvex]

end

/-- Settles O5: the payload test of LES and LDS comes first, the high registers after the opcode. -/
theorem vexOutside64BitMode : Obligations.VexOutside64BitMode := by
  unfold Obligations.VexOutside64BitMode
  exact fun m hm => ⟨fun b rest hb => ⟨decode_les hm hb rest, decode_lds hm hb rest⟩,
    fun p1 p2 op rest hpayload hmm hpp hop h => decode_vexHighReg hm hpayload hmm hpp hop h rest⟩

/-- Settles O7: each word by running the decoder. -/
theorem sampleWordsDecode : Obligations.SampleWordsDecode := by
  unfold Obligations.SampleWordsDecode
  exact ⟨by decide, by decide, by decide, by decide, by decide, by decide, by decide⟩

/-! ## Registers below NREG -/

theorem Mode.nreg_of_ne_mode64 {m : Mode} (hm : m ≠ .mode64) : m.nreg = 8 := by
  cases m
  case mode64 => exact absurd rfl hm
  all_goals rfl

/-- Outside 64-bit mode a register number below 8 is all that is left when no bit extends it. -/
theorem regNumber_lt_nreg {m : Mode} {ext : Bool} (h : m ≠ .mode64 → ext = false) (low : BitVec 3) :
    (regNumber ext low).toNat < m.nreg := by
  by_cases hm : m = .mode64
  · subst hm
    exact (regNumber ext low).isLt
  · have hlow : ∀ low : BitVec 3, (regNumber false low).toNat < 8 := by decide
    rw [h hm, Mode.nreg_of_ne_mode64 hm]
    exact hlow low

theorem effectiveRex_of_ne_mode64 {m : Mode} {p : List LegacyPrefix} (hrex : rexOnlyInMode64 m p = true) (hm : m ≠ .mode64) :
    effectiveRex p = ⟨false, false, false, false⟩ := by
  unfold effectiveRex
  split
  · next r hlast => exact absurd (rexOnlyInMode64_iff.1 hrex _ (List.mem_of_getLast? hlast) rfl) hm
  · rfl

theorem Vex.bits_of_ne_mode64 {m : Mode} {v : Vex} (h : v.wellFormed m = true) (hm : m ≠ .mode64) :
    v.r = false ∧ v.b = false ∧ v.vvvv.getLsbD 3 = false := by
  simp only [Vex.wellFormed, hm, decide_false, Bool.false_or, Bool.and_eq_true, Bool.not_eq_true'] at h
  obtain ⟨⟨⟨hr, _⟩, hb⟩, hvvvv⟩ := h
  exact ⟨hr, hb, hvvvv⟩

theorem vvvv_lt_nreg {m : Mode} {v : BitVec 4} (h : m ≠ .mode64 → v.getLsbD 3 = false) : v.toNat < m.nreg := by
  have hsplit : ∀ v : BitVec 4, regNumber (v.getLsbD 3) (v.extractLsb' 0 3) = v := by decide
  rw [← hsplit v]
  exact regNumber_lt_nreg h _

/-- Settles O9: outside 64-bit mode no REX is there and VEX stores no high register, so no bit extends a field. -/
theorem namedVectorRegistersAreBelowNreg : Obligations.NamedVectorRegistersAreBelowNreg := by
  unfold Obligations.NamedVectorRegistersAreBelowNreg
  refine ⟨fun m o hw => ?legacy, fun m o hw => ?vex⟩
  case legacy =>
    obtain ⟨_, hrex, _⟩ := LegacyOps.wellFormed_iff.1 hw
    have hext := effectiveRex_of_ne_mode64 hrex
    exact ⟨regNumber_lt_nreg (fun hm => by rw [hext hm]) _, fun r _ => regNumber_lt_nreg (fun hm => by rw [hext hm]) r⟩
  case vex =>
    obtain ⟨_, _, hvex, _⟩ := VexOps.wellFormed_iff.1 hw
    have hbits := Vex.bits_of_ne_mode64 hvex
    exact ⟨regNumber_lt_nreg (fun hm => (hbits hm).1) _, vvvv_lt_nreg fun hm => (hbits hm).2.2,
      fun r _ => regNumber_lt_nreg (fun hm => (hbits hm).2.1) r⟩

end Sys2Proof
end

section
/-! The readings of a lane's difference and the laws of the lane function (40_packed_subtract_common.md R69 to R71); with them
O11, O12 and O13. -/

namespace Sys2Proof.Machine

/-! ## The difference of two lanes as a number -/

section
variable {w : Nat} (x y : BitVec w)

theorem toNat_sub_eq_ite : ((x - y).toNat : Int) =
    if y.toNat ≤ x.toNat then (x.toNat : Int) - y.toNat else (x.toNat : Int) - y.toNat + 2 ^ w := by
  have hy : y.toNat < 2 ^ w := y.isLt
  have hcast : ((2 ^ w : Nat) : Int) = 2 ^ w := by norm_cast
  split
  · next h =>
    rw [BitVec.toNat_sub_of_le (BitVec.le_def.2 h)]
    omega
  · next h =>
    rw [BitVec.toNat_sub_of_lt (BitVec.lt_def.2 (Nat.lt_of_not_le h))]
    omega

theorem toNat_sub_eq_mod : (x - y).toNat = (x.toNat + (2 ^ w - y.toNat)) % 2 ^ w := by
  rw [BitVec.toNat_sub, Nat.add_comm]

theorem sub_eq_add_not_add_one : x - y = x + ~~~y + 1 := by
  rw [BitVec.sub_eq_add_neg, BitVec.neg_eq_not_add, ← BitVec.add_assoc]
  rfl

/-- The exact difference lies within one 2^w of the range of the result, so one correction brings it there. -/
theorem toInt_sub_eq_ite (hw : 0 < w) : (x - y).toInt =
    if (2 : Int) ^ (w - 1) ≤ x.toInt - y.toInt then x.toInt - y.toInt - 2 ^ w
    else if x.toInt - y.toInt < -(2 : Int) ^ (w - 1) then x.toInt - y.toInt + 2 ^ w
    else x.toInt - y.toInt := by
  have hpow : (2 : Int) ^ w = 2 * 2 ^ (w - 1) := by rw [← pow_succ', Nat.sub_add_cancel hw]
  have hcast : ((2 ^ w : Nat) : Int) = 2 ^ w := by norm_cast
  have hx := And.intro x.le_toInt x.toInt_lt
  have hy := And.intro y.le_toInt y.toInt_lt
  rw [BitVec.toInt_sub]
  split_ifs
  · rw [← Int.sub_bmod_right, Int.bmod_eq_of_le_mul_two] <;> omega
  · rw [← Int.add_bmod_right, Int.bmod_eq_of_le_mul_two] <;> omega
  · rw [Int.bmod_eq_of_le_mul_two] <;> omega

end

/-- Settles O11: the difference modulo 2^w, read without sign. -/
theorem subLanesWrapsUnsigned : Obligations.SubLanesWrapsUnsigned := by
  unfold Obligations.SubLanesWrapsUnsigned
  intro w n a b k hk
  rw [lane_subLanes w n a b le_rfl hk]
  exact ⟨toNat_sub_eq_ite .., toNat_sub_eq_mod .., sub_eq_add_not_add_one ..⟩

/-- Settles O12: the difference modulo 2^w, read as two's complement. -/
theorem subLanesWrapsSigned : Obligations.SubLanesWrapsSigned := by
  unfold Obligations.SubLanesWrapsSigned
  intro w n a b k hw hk
  rw [lane_subLanes w n a b le_rfl hk]
  exact toInt_sub_eq_ite _ _ hw

/-! ## Laws, each lane by lane -/

theorem lane_zero (w W k : Nat) : lane w (0 : BitVec W) k = 0 := by
  simp [lane]

section
variable {w n W : Nat} (hW : w * n = W) (a b c : BitVec W)
include hW

theorem subLanes_zero_right : subLanes w n a 0 = a :=
  eq_of_lanes hW fun k hk => by rw [lane_subLanes w n a 0 hW.le hk, lane_zero, sub_zero]

theorem subLanes_self : subLanes w n a a = 0 :=
  eq_of_lanes hW fun k hk => by rw [lane_subLanes w n a a hW.le hk, lane_zero, sub_self]

theorem lane_subLanes_zero_left {k : Nat} (hk : k < n) : lane w (subLanes w n 0 b) k = -lane w b k := by
  rw [lane_subLanes w n 0 b hW.le hk, lane_zero, zero_sub]

theorem subLanes_right_comm : subLanes w n (subLanes w n a b) c = subLanes w n (subLanes w n a c) b :=
  eq_of_lanes hW fun k hk => by
    simp only [lane_subLanes w n _ _ hW.le hk]
    exact sub_right_comm ..

theorem subLanes_subLanes_cancel : subLanes w n a (subLanes w n a b) = b :=
  eq_of_lanes hW fun k hk => by
    simp only [lane_subLanes w n _ _ hW.le hk]
    exact sub_sub_cancel ..

end

/-- No borrow passes from the low half of a double-width operand to the high half. -/
theorem subLanes_append (w n : Nat) (ahi alo bhi blo : BitVec (w * n)) :
    subLanes w (2 * n) (ahi ++ alo) (bhi ++ blo) = subLanes w n ahi bhi ++ subLanes w n alo blo := by
  have hW : w * (2 * n) = w * n + w * n := by ring
  refine eq_of_lanes hW fun k hk => ?_
  rw [lane_subLanes w (2 * n) _ _ hW.le hk, lane_append, lane_append, lane_append]
  split
  · next h => rw [lane_subLanes w n _ _ le_rfl h]
  · next h => rw [lane_subLanes w n _ _ le_rfl (by omega)]

/-- Settles O13: every law holds lane by lane, and the lanes of the two halves are those of the whole. -/
theorem subLanesAlgebra : Obligations.SubLanesAlgebra := by
  unfold Obligations.SubLanesAlgebra
  exact fun w n a b c => ⟨subLanes_zero_right rfl a, subLanes_self rfl a, fun k hk => lane_subLanes_zero_left rfl b hk,
    subLanes_right_comm rfl a b c, subLanes_subLanes_cancel rfl a b, subLanes_append w n⟩

end Sys2Proof.Machine
end

section
/-! What each step template writes when it completes (40_packed_subtract_common.md R72, R73, R75); with it O14 to O17, O20 and
O21. -/

namespace Sys2Proof.Machine

@[simp] theorem State.readMm_setPc (s : State) (a : Addr) (i : BitVec 3) : (s.setPc a).readMm i = s.readMm i := rfl
@[simp] theorem State.readXmm_setPc (s : State) (a : Addr) (i : BitVec 4) : (s.setPc a).readXmm i = s.readXmm i := rfl

/-! ## Completion with the written value -/

section
variable {o : LegacyOps} {s : State} (hp : pcFits s.mode (s.pc.toNat + o.len) = true)
include hp

theorem exists_stepMmx_next {b : BitVec 64} (f : BitVec 64 → BitVec 64 → BitVec 64) (he : Enabled .mmx o.prefixes s)
    (hb : MmSource o s b) :
    ∃ t, stepMmx f o s = .next t ∧ t.pc = s.pc + BitVec.ofNat 64 o.len ∧ t.readMm o.reg = f (s.readMm o.reg) b :=
  ⟨_, stepMmx_eq_next.2 ⟨he, b, readMmSource_eq_ok.2 hb, hp, rfl⟩, rfl, by simp⟩

theorem exists_stepXmm_next {b : BitVec 128} (f : BitVec 128 → BitVec 128 → BitVec 128) (he : Enabled .sse2 o.prefixes s)
    (hb : XmmSource o s b) :
    ∃ t, stepXmm f o s = .next t ∧ t.pc = s.pc + BitVec.ofNat 64 o.len ∧
      t.readYmm o.xmmReg = (s.readYmm o.xmmReg).extractLsb' 128 128 ++ f (s.readXmm o.xmmReg) b :=
  ⟨_, stepXmm_eq_next.2 ⟨he, b, readXmmSource_eq_ok.2 hb, hp, rfl⟩, rfl, by simp⟩

end

section
variable {o : VexOps} {s : State} (hp : pcFits s.mode (s.pc.toNat + o.len) = true)
include hp

theorem exists_stepVexXmm_next {b : BitVec 128} (f : BitVec 128 → BitVec 128 → BitVec 128) (he : Enabled .vex128 o.prefixes s)
    (hb : VexXmmSource o s b) :
    ∃ t, stepVexXmm f o s = .next t ∧ t.pc = s.pc + BitVec.ofNat 64 o.len ∧
      t.readYmm o.dst = 0#128 ++ f (s.readXmm o.vex.vvvv) b :=
  ⟨_, stepVexXmm_eq_next.2 ⟨he, b, readVexXmmSource_eq_ok.2 hb, hp, rfl⟩, rfl, by simp⟩

theorem exists_stepVexYmm_next {b : BitVec 256} (f : BitVec 256 → BitVec 256 → BitVec 256) (he : Enabled .vex256 o.prefixes s)
    (hb : VexYmmSource o s b) :
    ∃ t, stepVexYmm f o s = .next t ∧ t.pc = s.pc + BitVec.ofNat 64 o.len ∧
      t.readYmm o.dst = f (s.readYmm o.vex.vvvv) b :=
  ⟨_, stepVexYmm_eq_next.2 ⟨he, b, readVexYmmSource_eq_ok.2 hb, hp, rfl⟩, rfl, by simp⟩

end

/-! ## Lanes of the written value -/

section
variable {w n : Nat} {o : LegacyOps} {s : State} (hp : pcFits s.mode (s.pc.toNat + o.len) = true)
include hp

theorem exists_stepMmx_lanes {b : BitVec 64} (hW : w * n = 64) (he : Enabled .mmx o.prefixes s) (hb : MmSource o s b) :
    ∃ t, stepMmx (subLanes w n) o s = .next t ∧ t.pc = s.pc + BitVec.ofNat 64 o.len ∧
      ∀ k < n, lane w (t.readMm o.reg) k = lane w (s.readMm o.reg) k - lane w b k := by
  obtain ⟨t, ht, hpc, hr⟩ := exists_stepMmx_next hp (subLanes w n) he hb
  exact ⟨t, ht, hpc, fun k hk => by rw [hr, lane_subLanes w n _ _ hW.le hk]⟩

theorem exists_stepXmm_lanes {b : BitVec 128} (hW : w * n = 128) (he : Enabled .sse2 o.prefixes s) (hb : XmmSource o s b) :
    ∃ t, stepXmm (subLanes w n) o s = .next t ∧ t.pc = s.pc + BitVec.ofNat 64 o.len ∧
      (t.readYmm o.xmmReg).extractLsb' 128 128 = (s.readYmm o.xmmReg).extractLsb' 128 128 ∧
      ∀ k < n, lane w (t.readXmm o.xmmReg) k = lane w (s.readXmm o.xmmReg) k - lane w b k := by
  obtain ⟨t, ht, hpc, hr⟩ := exists_stepXmm_next hp (subLanes w n) he hb
  refine ⟨t, ht, hpc, by rw [hr, extractLsb'_append_high], fun k hk => ?_⟩
  rw [State.readXmm, hr, extractLsb'_append_low, lane_subLanes w n _ _ hW.le hk]

end

section
variable {w n : Nat} {o : VexOps} {s : State} (hp : pcFits s.mode (s.pc.toNat + o.len) = true)
include hp

theorem exists_stepVexXmm_lanes {b : BitVec 128} (hW : w * n = 128) (he : Enabled .vex128 o.prefixes s)
    (hb : VexXmmSource o s b) :
    ∃ t, stepVexXmm (subLanes w n) o s = .next t ∧ t.pc = s.pc + BitVec.ofNat 64 o.len ∧
      (t.readYmm o.dst).extractLsb' 128 128 = 0 ∧
      ∀ k < n, lane w (t.readXmm o.dst) k = lane w (s.readXmm o.vex.vvvv) k - lane w b k := by
  obtain ⟨t, ht, hpc, hr⟩ := exists_stepVexXmm_next hp (subLanes w n) he hb
  refine ⟨t, ht, hpc, by rw [hr, extractLsb'_append_high]; rfl, fun k hk => ?_⟩
  rw [State.readXmm, hr, extractLsb'_append_low, lane_subLanes w n _ _ hW.le hk]

theorem exists_stepVexYmm_lanes {b : BitVec 256} (hW : w * n = 256) (he : Enabled .vex256 o.prefixes s)
    (hb : VexYmmSource o s b) :
    ∃ t, stepVexYmm (subLanes w n) o s = .next t ∧ t.pc = s.pc + BitVec.ofNat 64 o.len ∧
      ∀ k < n, lane w (t.readYmm o.dst) k = lane w (s.readYmm o.vex.vvvv) k - lane w b k := by
  obtain ⟨t, ht, hpc, hr⟩ := exists_stepVexYmm_next hp (subLanes w n) he hb
  exact ⟨t, ht, hpc, fun k hk => by rw [hr, lane_subLanes w n _ _ hW.le hk]⟩

end

/-- Settles O14: the MMX template with the lane function of each element type. -/
theorem mmxFormsSubtractLanes : Obligations.MmxFormsSubtractLanes := by
  unfold Obligations.MmxFormsSubtractLanes
  exact fun o s b he hb hp => ⟨exists_stepMmx_lanes hp rfl he hb, exists_stepMmx_lanes hp rfl he hb,
    exists_stepMmx_lanes hp rfl he hb⟩

/-- Settles O15: the Legacy SSE template with the lane function of each element type. -/
theorem xmmFormsSubtractLanes : Obligations.XmmFormsSubtractLanes := by
  unfold Obligations.XmmFormsSubtractLanes
  exact fun o s b he hb hp => ⟨exists_stepXmm_lanes hp rfl he hb, exists_stepXmm_lanes hp rfl he hb,
    exists_stepXmm_lanes hp rfl he hb⟩

/-- Settles O16: the VEX.128 template with the lane function of each element type. -/
theorem vexXmmFormsSubtractLanes : Obligations.VexXmmFormsSubtractLanes := by
  unfold Obligations.VexXmmFormsSubtractLanes
  exact fun o s b he hb hp => ⟨exists_stepVexXmm_lanes hp rfl he hb, exists_stepVexXmm_lanes hp rfl he hb,
    exists_stepVexXmm_lanes hp rfl he hb⟩

/-- Settles O17: the VEX.256 template with the lane function of each element type. -/
theorem vexYmmFormsSubtractLanes : Obligations.VexYmmFormsSubtractLanes := by
  unfold Obligations.VexYmmFormsSubtractLanes
  exact fun o s b he hb hp => ⟨exists_stepVexYmm_lanes hp rfl he hb, exists_stepVexYmm_lanes hp rfl he hb,
    exists_stepVexYmm_lanes hp rfl he hb⟩

/-! ## Coinciding registers -/

theorem mmSource_reg {o : LegacyOps} {r : BitVec 3} (s : State) (h : o.rm = .reg r) : MmSource o s (s.readMm r) := by
  simp [MmSource, h]

theorem xmmSource_reg {o : LegacyOps} {r : BitVec 3} {i : BitVec 4} (s : State) (h : o.rm = .reg r)
    (hi : regNumber (effectiveRex o.prefixes).b r = i) : XmmSource o s (s.readXmm i) := by
  simp [XmmSource, h, hi]

theorem vexXmmSource_reg {o : VexOps} {r : BitVec 3} {i : BitVec 4} (s : State) (h : o.rm = .reg r)
    (hi : regNumber o.vex.b r = i) : VexXmmSource o s (s.readXmm i) := by
  simp [VexXmmSource, h, hi]

theorem vexYmmSource_reg {o : VexOps} {r : BitVec 3} {i : BitVec 4} (s : State) (h : o.rm = .reg r)
    (hi : regNumber o.vex.b r = i) : VexYmmSource o s (s.readYmm i) := by
  simp [VexYmmSource, h, hi]

section
variable {w n : Nat} {s : State}

theorem exists_stepMmx_self {o : LegacyOps} (hW : w * n = 64) (h : o.rm = .reg o.reg) (he : Enabled .mmx o.prefixes s)
    (hp : pcFits s.mode (s.pc.toNat + o.len) = true) :
    ∃ t, stepMmx (subLanes w n) o s = .next t ∧ t.readMm o.reg = 0 := by
  obtain ⟨t, ht, _, hr⟩ := exists_stepMmx_next hp (subLanes w n) he (mmSource_reg s h)
  exact ⟨t, ht, by rw [hr, subLanes_self hW]⟩

theorem exists_stepXmm_self {o : LegacyOps} {r : BitVec 3} (hW : w * n = 128) (h : o.rm = .reg r)
    (hr : regNumber (effectiveRex o.prefixes).b r = o.xmmReg) (he : Enabled .sse2 o.prefixes s)
    (hp : pcFits s.mode (s.pc.toNat + o.len) = true) :
    ∃ t, stepXmm (subLanes w n) o s = .next t ∧ t.readYmm o.xmmReg = (s.readYmm o.xmmReg).extractLsb' 128 128 ++ 0#128 := by
  obtain ⟨t, ht, _, hy⟩ := exists_stepXmm_next hp (subLanes w n) he (xmmSource_reg s h hr)
  exact ⟨t, ht, by rw [hy, subLanes_self hW]; rfl⟩

theorem exists_stepVexXmm_self {o : VexOps} {r : BitVec 3} (hW : w * n = 128) (h : o.rm = .reg r)
    (hr : regNumber o.vex.b r = o.vex.vvvv) (he : Enabled .vex128 o.prefixes s)
    (hp : pcFits s.mode (s.pc.toNat + o.len) = true) :
    ∃ t, stepVexXmm (subLanes w n) o s = .next t ∧ t.readYmm o.dst = 0 := by
  obtain ⟨t, ht, _, hy⟩ := exists_stepVexXmm_next hp (subLanes w n) he (vexXmmSource_reg s h hr)
  exact ⟨t, ht, by rw [hy, subLanes_self hW]; rfl⟩

theorem exists_stepVexYmm_self {o : VexOps} {r : BitVec 3} (hW : w * n = 256) (h : o.rm = .reg r)
    (hr : regNumber o.vex.b r = o.vex.vvvv) (he : Enabled .vex256 o.prefixes s)
    (hp : pcFits s.mode (s.pc.toNat + o.len) = true) :
    ∃ t, stepVexYmm (subLanes w n) o s = .next t ∧ t.readYmm o.dst = 0 := by
  obtain ⟨t, ht, _, hy⟩ := exists_stepVexYmm_next hp (subLanes w n) he (vexYmmSource_reg s h hr)
  exact ⟨t, ht, by rw [hy, subLanes_self hW]⟩

end

/-- Settles O20: the sources are those of the state before, so equal ones leave 0 and the others are the old values. -/
theorem coincidingRegisters : Obligations.CoincidingRegisters := by
  unfold Obligations.CoincidingRegisters
  refine ⟨fun o s h he hp => ?mmx, fun o r s h hr he hp => ?xmm, fun o r s h hr hp => ⟨fun he => ?vex128, fun he => ?vex256⟩,
    fun o s t b hd hb => ?minuend128, fun o s t b hd hb => ?minuend256, fun o r s t h hr => ?subtrahend⟩
  case mmx => exact ⟨exists_stepMmx_self rfl h he hp, exists_stepMmx_self rfl h he hp, exists_stepMmx_self rfl h he hp⟩
  case xmm =>
    exact ⟨exists_stepXmm_self rfl h hr he hp, exists_stepXmm_self rfl h hr he hp, exists_stepXmm_self rfl h hr he hp⟩
  case vex128 =>
    exact ⟨exists_stepVexXmm_self rfl h hr he hp, exists_stepVexXmm_self rfl h hr he hp,
      exists_stepVexXmm_self rfl h hr he hp⟩
  case vex256 =>
    exact ⟨exists_stepVexYmm_self rfl h hr he hp, exists_stepVexYmm_self rfl h hr he hp,
      exists_stepVexYmm_self rfl h hr he hp⟩
  case minuend128 =>
    have hdst : ∀ f, stepVexXmm f o s = .next t → t.readYmm o.dst = 0#128 ++ f (s.readXmm o.dst) b :=
      fun f h => (stepVexXmm_next_readYmm_dst hb h).trans (by rw [hd])
    exact ⟨hdst _, hdst _, hdst _⟩
  case minuend256 =>
    have hdst : ∀ f, stepVexYmm f o s = .next t → t.readYmm o.dst = f (s.readYmm o.dst) b :=
      fun f h => (stepVexYmm_next_readYmm_dst hb h).trans (by rw [hd])
    exact ⟨hdst _, hdst _, hdst _⟩
  case subtrahend =>
    have h128 := vexXmmSource_reg s h hr
    have h256 := vexYmmSource_reg s h hr
    exact ⟨stepVexXmm_next_readYmm_dst h128, stepVexXmm_next_readYmm_dst h128, stepVexXmm_next_readYmm_dst h128,
      stepVexYmm_next_readYmm_dst h256, stepVexYmm_next_readYmm_dst h256, stepVexYmm_next_readYmm_dst h256⟩

/-! ## The old value of a VEX destination -/

theorem State.writeYmm_writeYmm (s : State) (i : BitVec 4) (u v : BitVec 256) :
    (s.writeYmm i u).writeYmm i v = s.writeYmm i v := by
  simp [State.writeYmm]

@[simp] theorem State.readYmm_writeYmm_of_ne (s : State) {i j : BitVec 4} (v : BitVec 256) (h : i ≠ j) :
    (s.writeYmm i v).readYmm j = s.readYmm j := by
  rw [State.readYmm_writeYmm, if_neg h]

theorem State.readXmm_writeYmm_of_ne (s : State) {i j : BitVec 4} (v : BitVec 256) (h : i ≠ j) :
    (s.writeYmm i v).readXmm j = s.readXmm j := by
  rw [State.readXmm, State.readYmm_writeYmm_of_ne s v h, State.readXmm]

section
variable {o : VexOps} (s : State) (v : BitVec 256) (hd : o.dst ≠ o.vex.vvvv)
  (hrm : ∀ r, o.rm = .reg r → regNumber o.vex.b r ≠ o.dst)

section
include hrm

theorem readVexXmmSource_writeYmm : readVexXmmSource o (s.writeYmm o.dst v) = readVexXmmSource o s := by
  unfold readVexXmmSource
  cases hr : o.rm with
  | reg r => simp only [s.readXmm_writeYmm_of_ne v (hrm r hr).symm]
  | mem m => rfl

theorem readVexYmmSource_writeYmm : readVexYmmSource o (s.writeYmm o.dst v) = readVexYmmSource o s := by
  unfold readVexYmmSource
  cases hr : o.rm with
  | reg r => simp only [s.readYmm_writeYmm_of_ne v (hrm r hr).symm]
  | mem m => rfl

end

include hd hrm

theorem stepVexXmm_writeYmm (f : BitVec 128 → BitVec 128 → BitVec 128) :
    stepVexXmm f o (s.writeYmm o.dst v) = stepVexXmm f o s := by
  have hcheck : checkForm .vex128 o.prefixes (s.writeYmm o.dst v) = checkForm .vex128 o.prefixes s := rfl
  simp only [stepVexXmm, hcheck, readVexXmmSource_writeYmm s v hrm, s.readXmm_writeYmm_of_ne v hd, State.writeXmmZero,
    State.writeYmm_writeYmm]

theorem stepVexYmm_writeYmm (f : BitVec 256 → BitVec 256 → BitVec 256) :
    stepVexYmm f o (s.writeYmm o.dst v) = stepVexYmm f o s := by
  have hcheck : checkForm .vex256 o.prefixes (s.writeYmm o.dst v) = checkForm .vex256 o.prefixes s := rfl
  simp only [stepVexYmm, hcheck, readVexYmmSource_writeYmm s v hrm, s.readYmm_writeYmm_of_ne v hd, State.writeYmm_writeYmm]

end

/-- Settles O21: checks and memory operands read no YMM register, the two sources are other registers, and the whole
destination is written. -/
theorem vexDestinationIsNotRead : Obligations.VexDestinationIsNotRead := by
  unfold Obligations.VexDestinationIsNotRead
  exact fun o s v hd hrm => ⟨stepVexXmm_writeYmm s v hd hrm _, stepVexXmm_writeYmm s v hd hrm _,
    stepVexXmm_writeYmm s v hd hrm _, stepVexYmm_writeYmm s v hd hrm _, stepVexYmm_writeYmm s v hd hrm _,
    stepVexYmm_writeYmm s v hd hrm _⟩

end Sys2Proof.Machine
end

section
/-! What a completed form writes and leaves (10_state.md R27; 40_packed_subtract_common.md R77, R78), and the REX bits of a
register-direct MMX form (30_encoding.md R55); with them O8, O19, O22 and O24. -/

namespace Sys2Proof.Machine

/-! ## The three MMX forms -/

/-- What the three MMX forms with operands `o` have in common: one register written and marked, pc moved on. -/
theorem mmxForm_next_shape {o : LegacyOps} {s t : State}
    (h : exec (.psubbMm o) s = .next t ∨ exec (.psubwMm o) s = .next t ∨ exec (.psubdMm o) s = .next t) :
    ∃ v, t = ((s.writeMm o.reg v).markMmx o.reg).setPc (s.pc + BitVec.ofNat 64 o.len) := by
  rcases h with h | h | h <;> exact stepMmx_next_shape h

section
variable (s : State) (i : BitVec 3) (v : BitVec 64)

@[simp] theorem State.x87tag_markMmx : (s.markMmx i).x87tag = 0 := rfl
@[simp] theorem State.x87status_markMmx : (s.markMmx i).x87status = clearTop s.x87status := rfl
@[simp] theorem State.x87status_writeMm : (s.writeMm i v).x87status = s.x87status := rfl

theorem State.readX87_markMmx_self : ((s.markMmx i).readX87 i).extractLsb' 64 16 = 0xFFFF := by
  rw [State.markMmx, State.readX87_writeX87_self, extractLsb'_append_high]
  rfl

theorem State.readX87_markMmx_writeMm_of_ne {r : BitVec 3} (h : r ≠ i) :
    ((s.writeMm i v).markMmx i).readX87 r = s.readX87 r := by
  simp [State.markMmx, State.writeMm, State.readX87_writeX87, h.symm]

end

theorem getLsbD_clearTop_of_outside (v : BitVec 16) {j : Nat} (h : j < 11 ∨ 13 < j) :
    (clearTop v).getLsbD j = v.getLsbD j := by
  have hj : (decide (11 ≤ j) && decide (j ≤ 13)) = false := by
    rw [← Bool.decide_and, decide_eq_false_iff_not]
    omega
  rw [getLsbD_clearTop, hj, Bool.not_false, Bool.and_true]

theorem extractLsb'_clearTop (v : BitVec 16) : (clearTop v).extractLsb' 11 3 = 0 := by
  apply BitVec.eq_of_getLsbD_eq
  intro j hj
  suffices h : 11 + j ≤ 13 by simp [getLsbD_clearTop, h]
  omega

/-- Settles O19: the marks of R77 on the register that was written. -/
theorem mmxFormsMarkX87State : Obligations.MmxFormsMarkX87State := by
  unfold Obligations.MmxFormsMarkX87State
  intro o s t h
  obtain ⟨v, rfl⟩ := mmxForm_next_shape h
  exact ⟨rfl, extractLsb'_clearTop s.x87status, fun j hj => getLsbD_clearTop_of_outside s.x87status hj,
    State.readX87_markMmx_self _ _⟩

/-- Settles O22: the write of an MMX form and its marks touch the x87 state and pc alone. -/
theorem mmxFormsFrame : Obligations.MmxFormsFrame := by
  unfold Obligations.MmxFormsFrame
  intro o s t h
  obtain ⟨v, rfl⟩ := mmxForm_next_shape h
  exact ⟨⟨rfl, rfl, rfl, rfl, rfl, rfl, rfl, rfl, rfl, rfl, fun _ => rfl⟩, rfl,
    fun r hr => State.readX87_markMmx_writeMm_of_ne s o.reg v hr,
    fun j hj => getLsbD_clearTop_of_outside s.x87status hj⟩

/-! ## The nine XMM and YMM forms -/

/-- What a write of one YMM register and of pc leaves as it was. -/
theorem frame_of_writeYmm_setPc {s t : State} {i : BitVec 4} {v : BitVec 256} {a : Addr} (h : t = (s.writeYmm i v).setPc a) :
    KeepsSystemState s t ∧ t.x87data = s.x87data ∧ t.x87tag = s.x87tag ∧ t.x87status = s.x87status ∧
      ∀ r, r ≠ i → t.readYmm r = s.readYmm r := by
  subst h
  exact ⟨⟨rfl, rfl, rfl, rfl, rfl, rfl, rfl, rfl, rfl, rfl, fun _ => rfl⟩, rfl, rfl, rfl,
    fun r hr => State.readYmm_writeYmm_of_ne s v hr.symm⟩

/-- Settles O24: each of the nine forms writes one YMM register and pc. -/
theorem vectorFormsFrame : Obligations.VectorFormsFrame := by
  unfold Obligations.VectorFormsFrame
  refine ⟨fun o s t h => ?legacy, fun o s t h => ?vex⟩
  case legacy =>
    obtain ⟨v, ht⟩ : ∃ v, t = (s.writeYmm o.xmmReg v).setPc (s.pc + BitVec.ofNat 64 o.len) := by
      rcases h with h | h | h <;> exact stepXmm_next_shape h
    exact frame_of_writeYmm_setPc ht
  case vex =>
    obtain ⟨v, ht⟩ : ∃ v, t = (s.writeYmm o.dst v).setPc (s.pc + BitVec.ofNat 64 o.len) := by
      rcases h with h | h | h | h | h | h
      iterate 3 exact stepVexXmm_next_shape h
      iterate 3 exact stepVexYmm_next_shape h
    exact frame_of_writeYmm_setPc ht

/-! ## REX before a register-direct MMX form -/

theorem hasKind_append_rex (k : PrefixKind) (p : List LegacyPrefix) (r r' : Rex) :
    hasKind k (p ++ [.rex r]) = hasKind k (p ++ [.rex r']) := by
  simp only [hasKind, List.any_append]
  rfl

theorem checkForm_mmx_append_rex (p : List LegacyPrefix) (r r' : Rex) (s : State) :
    checkForm .mmx (p ++ [.rex r]) s = checkForm .mmx (p ++ [.rex r']) s := by
  have h : isUndefined .mmx (p ++ [.rex r]) s = isUndefined .mmx (p ++ [.rex r']) s := by
    simp only [isUndefined, hasKind_append_rex .lock p r r']
  rw [checkForm, h, checkForm]

theorem stepMmx_append_rex (f : BitVec 64 → BitVec 64 → BitVec 64) (p : List LegacyPrefix) (r r' : Rex) (reg rm : BitVec 3)
    (s : State) : stepMmx f ⟨p ++ [.rex r], reg, .reg rm⟩ s = stepMmx f ⟨p ++ [.rex r'], reg, .reg rm⟩ s := by
  simp only [stepMmx, checkForm_mmx_append_rex p r r' s, readMmSource, LegacyOps.len, List.length_append,
    List.length_singleton]

/-- Settles O8: the checks of an MMX form look for LOCK alone, and its registers are named without REX. -/
theorem mmxRegistersIgnoreRexBits : Obligations.MmxRegistersIgnoreRexBits := by
  unfold Obligations.MmxRegistersIgnoreRexBits
  exact fun p r r' reg rm s => ⟨stepMmx_append_rex _ p r r' reg rm s, stepMmx_append_rex _ p r r' reg rm s,
    stepMmx_append_rex _ p r r' reg rm s⟩

end Sys2Proof.Machine
end

section
/-! The other stops of an instruction in the order of 60_exceptions.md R101, and its completion (R102): each stop has one
origin, the checks of the form, the memory operand, or the next pc; with them O29 to O40. -/

namespace Sys2Proof.Machine

/-! ## Stops of the checks alone -/

section
variable {c : FormClass} {p : List LegacyPrefix} {s : State} {a : Addr}

theorem checkForm_eq_mf : checkForm c p s = .error (.fault (.mf a)) ↔
    a = s.pc ∧ c = .mmx ∧ ¬ Undefined c p s ∧ s.cr0Ts = false ∧ s.x87Es = true ∧ s.cr0Ne = true := by
  rw [checkForm_eq_error]
  constructor
  · rintro (⟨_, h⟩ | ⟨_, _, h⟩ | ⟨hu, hts, hc, hes, ⟨hne, h⟩ | ⟨_, h⟩⟩) <;> cases h
    exact ⟨rfl, hc, hu, hts, hes, hne⟩
  · rintro ⟨rfl, hc, hu, hts, hes, hne⟩
    exact .inr (.inr ⟨hu, hts, hc, hes, .inl ⟨hne, rfl⟩⟩)

theorem checkForm_eq_externalFpuError : checkForm c p s = .error (.refused .externalFpuError) ↔
    c = .mmx ∧ ¬ Undefined c p s ∧ s.cr0Ts = false ∧ s.x87Es = true ∧ s.cr0Ne = false := by
  rw [checkForm_eq_error]
  constructor
  · rintro (⟨_, h⟩ | ⟨_, _, h⟩ | ⟨hu, hts, hc, hes, ⟨_, h⟩ | ⟨hne, h⟩⟩) <;> cases h
    exact ⟨hc, hu, hts, hes, hne⟩
  · rintro ⟨hc, hu, hts, hes, hne⟩
    exact .inr (.inr ⟨hu, hts, hc, hes, .inr ⟨hne, rfl⟩⟩)

theorem memRead_ne_mf (W : Nat) (g : Seg) (off : Addr) : memRead s c W g off ≠ .error (.fault (.mf a)) :=
  fun h => absurd (memRead_stops h) (by simp)

theorem memRead_ne_externalFpuError (W : Nat) (g : Seg) (off : Addr) :
    memRead s c W g off ≠ .error (.refused .externalFpuError) :=
  fun h => absurd (memRead_stops h) (by simp)

theorem memRead_ne_pcWrap (W : Nat) (g : Seg) (off : Addr) : memRead s c W g off ≠ .error (.refused .pcWrap) :=
  fun h => absurd (memRead_stops h) (by simp)

theorem checkForm_ne_pcWrap : checkForm c p s ≠ .error (.refused .pcWrap) :=
  fun h => absurd (checkForm_stops h) (by simp)

end

theorem exec_eq_externalFpuError {i : Instr} {s : State} :
    exec i s = .refused .externalFpuError ↔
      checkForm i.formClass i.prefixes s = .error (.refused .externalFpuError) := by
  rw [exec_eq_refused]
  constructor
  · rintro (hcheck | ⟨_, W, g, off, _, hread⟩ | ⟨_, _, _, hwrap⟩)
    · exact hcheck
    · exact absurd hread (memRead_ne_externalFpuError W g off)
    · cases hwrap
  · exact .inl

/-- Settles O29: both stops come from the last check of the form, which CR0.NE divides. -/
theorem pendingFpuErrorStopsMmxForms : Obligations.PendingFpuErrorStopsMmxForms := by
  unfold Obligations.PendingFpuErrorStopsMmxForms
  intro i s
  refine ⟨fun a => ?_, ?_⟩
  · rw [exec_eq_fault_iff_checkForm memRead_ne_mf, checkForm_eq_mf]
  · rw [exec_eq_externalFpuError, checkForm_eq_externalFpuError]

/-! ## Stops of the memory operand alone -/

/-- The memory operand of an enabled instruction stops with `e`. -/
def OperandStop (i : Instr) (s : State) (e : Stop) : Prop :=
  Enabled i.formClass i.prefixes s ∧ ∃ g off, memoryOperand i s = some (g, off) ∧
    memRead s i.formClass (8 * i.formClass.operandBytes) g off = .error e

theorem execStop_iff_operandStop {i : Instr} {s : State} {e : Stop} (hcheck : checkForm i.formClass i.prefixes s ≠ .error e)
    (hwrap : e ≠ .refused .pcWrap) : execStop i s e ↔ OperandStop i s e := by
  constructor
  · rintro (h | ⟨he, W, g, off, hm, hread⟩ | ⟨_, _, _, h⟩)
    · exact absurd h hcheck
    · exact ⟨he, g, off, hm, memRead_error_width.1 hread⟩
    · exact absurd h hwrap
  · rintro ⟨he, g, off, hm, hread⟩
    exact .inr (.inl ⟨he, _, g, off, hm, hread⟩)

theorem exec_eq_fault_iff_operandStop {i : Instr} {s : State} {f : Fault} (hud : f ≠ .ud s.pc) (hnm : f ≠ .nm s.pc)
    (hmf : f ≠ .mf s.pc) : exec i s = .fault f ↔ OperandStop i s (.fault f) := by
  rw [exec_eq_fault]
  refine execStop_iff_operandStop (fun h => ?_) (by simp)
  rcases checkForm_stops h with h | h | h | h <;> cases h
  · exact hud rfl
  · exact hnm rfl
  · exact hmf rfl

theorem exec_eq_notOrdinaryMemory {i : Instr} {s : State} :
    exec i s = .refused .notOrdinaryMemory ↔ OperandStop i s (.refused .notOrdinaryMemory) := by
  rw [exec_eq_refused]
  exact execStop_iff_operandStop (fun h => absurd (checkForm_stops h) (by simp)) (by simp)

section
variable {s : State} {c : FormClass} {W : Nat} {g : Seg} {off a : Addr}

/-- The bytes of an operand stop with a page fault or with the refusal of what is not ordinary memory. -/
theorem readLinear_stops {lin : Addr} {n : Nat} {e : Stop} (h : readLinear s lin n = .error e) :
    (∃ code lin', e = .fault (.pf s.pc code lin')) ∨ e = .refused .notOrdinaryMemory := by
  rcases readLinear_eq_error.1 h with ⟨k, _, _, h⟩ | ⟨_, _, h⟩
  · obtain ⟨_, p, r, i, h⟩ := translateAddr_error h
    exact .inl ⟨_, _, h⟩
  · exact .inr h

/-- The fault of a misaligned operand, and when it is raised. -/
theorem exists_alignmentFault {lin : Addr} {e : Stop} :
    (∃ f, alignmentFault s c lin = some f ∧ e = .fault (f s.pc)) ↔
      (c = .mmx ∧ s.alignmentCheck = true ∧ lin.toNat % 8 ≠ 0 ∧ e = .fault (.ac s.pc)) ∨
      (c = .sse2 ∧ lin.toNat % 16 ≠ 0 ∧ e = .fault (.gp s.pc)) := by
  simp only [alignmentFault_eq_some]
  constructor
  · rintro ⟨f, ⟨hc, ham, hlin, rfl⟩ | ⟨hc, hlin, rfl⟩, rfl⟩
    · exact .inl ⟨hc, ham, hlin, rfl⟩
    · exact .inr ⟨hc, hlin, rfl⟩
  · rintro (⟨hc, ham, hlin, rfl⟩ | ⟨hc, hlin, rfl⟩)
    · exact ⟨_, .inl ⟨hc, ham, hlin, rfl⟩, rfl⟩
    · exact ⟨_, .inr ⟨hc, hlin, rfl⟩, rfl⟩

theorem segmentFault_eq : segmentFault g a = if g = .ss then .ss a else .gp a := by
  unfold segmentFault
  split <;> rfl

theorem memRead_eq_ss : memRead s c W g off = .error (.fault (.ss a)) ↔
    a = s.pc ∧ g = .ss ∧ ¬ SegmentLegal s g off c.operandBytes := by
  have hread : ∀ lin n, readLinear s lin n ≠ .error (.fault (.ss a)) := fun _ _ h => absurd (readLinear_stops h) (by simp)
  rw [memRead_eq_error, exists_alignmentFault, segmentFault_eq]
  by_cases hg : g = .ss
  · simp [hread, hg]
    tauto
  · simp [hread, hg]

theorem memRead_eq_gp : memRead s c W g off = .error (.fault (.gp a)) ↔
    a = s.pc ∧ ((g ≠ .ss ∧ ¬ SegmentLegal s g off c.operandBytes) ∨
      (SegmentLegal s g off c.operandBytes ∧ c = .sse2 ∧ (linearAddress s g off).toNat % 16 ≠ 0)) := by
  have hread : ∀ lin n, readLinear s lin n ≠ .error (.fault (.gp a)) := fun _ _ h => absurd (readLinear_stops h) (by simp)
  rw [memRead_eq_error, exists_alignmentFault, segmentFault_eq]
  by_cases hg : g = .ss <;> simp [hread, hg] <;> tauto

theorem memRead_eq_ac : memRead s c W g off = .error (.fault (.ac a)) ↔
    a = s.pc ∧ c = .mmx ∧ s.alignmentCheck = true ∧ SegmentLegal s g off c.operandBytes ∧
      (linearAddress s g off).toNat % 8 ≠ 0 := by
  have hread : ∀ lin n, readLinear s lin n ≠ .error (.fault (.ac a)) := fun _ _ h => absurd (readLinear_stops h) (by simp)
  rw [memRead_eq_error, exists_alignmentFault, segmentFault_eq]
  by_cases hg : g = .ss <;> simp [hread, hg] <;> tauto

theorem memRead_eq_pf {code : BitVec 32} {lin : Addr} : memRead s c W g off = .error (.fault (.pf a code lin)) ↔
    SegmentLegal s g off c.operandBytes ∧ Aligned c s (linearAddress s g off) ∧
      ∃ k < c.operandBytes, (∀ j < k, ByteMapped s (linearAddress s g off) j) ∧
        translateAddr s .dataRead (linearByte s (linearAddress s g off) k) = .error (.fault (.pf a code lin)) := by
  rw [memRead_eq_error, readLinear_eq_error, exists_alignmentFault, segmentFault_eq]
  by_cases hg : g = .ss <;> simp [hg]

theorem memRead_eq_notOrdinaryMemory : memRead s c W g off = .error (.refused .notOrdinaryMemory) ↔
    SegmentLegal s g off c.operandBytes ∧ Aligned c s (linearAddress s g off) ∧
      Mapped s (linearAddress s g off) c.operandBytes ∧ ¬ Ordinary s (linearAddress s g off) c.operandBytes := by
  have htr : ∀ lin, translateAddr s .dataRead lin ≠ .error (.refused .notOrdinaryMemory) :=
    fun _ h => by simpa using (translateAddr_error h).2
  rw [memRead_eq_error, readLinear_eq_error]
  simp [htr]

end

/-- Settles O30: #SS(0) is raised by the segment check of an operand through SS. -/
theorem stackFaultExactlyWhenIllegalInSs : Obligations.StackFaultExactlyWhenIllegalInSs := by
  unfold Obligations.StackFaultExactlyWhenIllegalInSs
  intro i s a
  rw [exec_eq_fault_iff_operandStop (by simp) (by simp) (by simp)]
  simp only [OperandStop, memRead_eq_ss]
  constructor
  · rintro ⟨he, g, off, hm, rfl, rfl, hseg⟩
    exact ⟨rfl, he, off, hm, hseg⟩
  · rintro ⟨rfl, he, off, hm, hseg⟩
    exact ⟨he, .ss, off, hm, rfl, rfl, hseg⟩

/-- Settles O31: #GP(0) is raised by the segment check of an operand through another segment, and by the alignment rule of the
128-bit Legacy SSE forms. -/
theorem generalProtectionExactly : Obligations.GeneralProtectionExactly := by
  unfold Obligations.GeneralProtectionExactly
  intro i s a
  rw [exec_eq_fault_iff_operandStop (by simp) (by simp) (by simp)]
  simp only [OperandStop, memRead_eq_gp]
  constructor
  · rintro ⟨he, g, off, hm, rfl, h⟩
    exact ⟨rfl, he, g, off, hm, h⟩
  · rintro ⟨rfl, he, g, off, hm, h⟩
    exact ⟨he, g, off, hm, rfl, h⟩

theorem alignmentCheck_iff (s : State) :
    s.alignmentCheck = true ↔ s.cr0.getLsbD 18 = true ∧ s.eflags.getLsbD 18 = true ∧ s.cpl = 3 := by
  simp [State.alignmentCheck, State.cr0Am, State.eflagsAc, and_assoc]

/-- Settles O32: #AC(0) is raised by the alignment rule of the MMX forms. -/
theorem alignmentCheckExactly : Obligations.AlignmentCheckExactly := by
  unfold Obligations.AlignmentCheckExactly
  intro i s a
  rw [exec_eq_fault_iff_operandStop (by simp) (by simp) (by simp)]
  simp only [OperandStop, memRead_eq_ac, alignmentCheck_iff]
  constructor
  · rintro ⟨he, g, off, hm, rfl, hc, ⟨ham, hac, hcpl⟩, hseg, hlin⟩
    exact ⟨rfl, he, hc, ham, hac, hcpl, g, off, hm, hseg, hlin⟩
  · rintro ⟨rfl, he, hc, ham, hac, hcpl, g, off, hm, hseg, hlin⟩
    exact ⟨he, g, off, hm, rfl, hc, ⟨ham, hac, hcpl⟩, hseg, hlin⟩

/-- Settles O33: #PF is raised by the first byte in order that Translate faults on. -/
theorem pageFaultReportsLowestFaultingByte : Obligations.PageFaultReportsLowestFaultingByte := by
  unfold Obligations.PageFaultReportsLowestFaultingByte
  intro i s a code lin
  rw [exec_eq_fault_iff_operandStop (by simp) (by simp) (by simp)]
  simp only [OperandStop, memRead_eq_pf]
  refine and_congr_right fun _ => exists_congr fun g => exists_congr fun off => ?_
  constructor
  · rintro ⟨hm, hseg, hal, k, hk, hmap, hpf⟩
    exact ⟨k, hm, hseg, hal, hk, hmap, hpf⟩
  · rintro ⟨k, hm, hseg, hal, hk, hmap, hpf⟩
    exact ⟨hm, hseg, hal, k, hk, hmap, hpf⟩

/-- Settles O35: the refusal comes after every check and after the translation of every byte. -/
theorem notOrdinaryMemoryIsRefused : Obligations.NotOrdinaryMemoryIsRefused := by
  unfold Obligations.NotOrdinaryMemoryIsRefused
  intro i s
  simp only [exec_eq_notOrdinaryMemory, OperandStop, memRead_eq_notOrdinaryMemory]

/-! ## The next pc, and completion -/

/-- Settles O36: neither the checks nor the memory operand give this refusal, so the next pc is its one origin. -/
theorem pcWrapIsRefused : Obligations.PcWrapIsRefused := by
  unfold Obligations.PcWrapIsRefused
  intro i s
  rw [exec_eq_refused]
  constructor
  · rintro (hcheck | ⟨_, W, g, off, _, hread⟩ | ⟨he, ho, hp, _⟩)
    · exact absurd hcheck checkForm_ne_pcWrap
    · exact absurd hread (memRead_ne_pcWrap W g off)
    · exact ⟨he, ho, hp⟩
  · rintro ⟨he, ho, hp⟩
    exact .inr (.inr ⟨he, ho, hp, rfl⟩)

/-- Settles O37: checks, r/m operand and next pc are all that can stop a form. -/
theorem completesExactlyWhenEnabledAndReady : Obligations.CompletesExactlyWhenEnabledAndReady := by
  unfold Obligations.CompletesExactlyWhenEnabledAndReady
  intro i s
  rw [← (execShape i s).source_isOk_iff]
  constructor
  · rintro ⟨t, ht⟩
    obtain ⟨he, hp, b, hb, _⟩ := (exec_eq_next (execShape i s)).1 ht
    exact ⟨he, ⟨b, hb⟩, hp⟩
  · rintro ⟨he, ⟨b, hb⟩, hp⟩
    exact ⟨_, (exec_eq_next (execShape i s)).2 ⟨he, hp, b, hb, rfl⟩⟩

/-! ## What a fault carries -/

theorem pageFaultCode_bits (present rsvd instr : Bool) (k : AccessKind) (cpl : BitVec 2) :
    (pageFaultCode present rsvd instr k cpl).getLsbD 1 = false ∧
      (pageFaultCode present rsvd instr k cpl).getLsbD 2 = decide (cpl = 3) ∧
      (pageFaultCode present rsvd instr k cpl).getLsbD 4 = (instr && decide (k = .fetch)) ∧
      ∀ j, 4 < j → (pageFaultCode present rsvd instr k cpl).getLsbD j = false := by
  have bits : ∀ id rsvd us p : Bool,
      (0#27 ++ BitVec.ofBool id ++ BitVec.ofBool rsvd ++ BitVec.ofBool us ++ 0#1 ++ BitVec.ofBool p).getLsbD 1 = false ∧
      (0#27 ++ BitVec.ofBool id ++ BitVec.ofBool rsvd ++ BitVec.ofBool us ++ 0#1 ++ BitVec.ofBool p).getLsbD 2 = us ∧
      (0#27 ++ BitVec.ofBool id ++ BitVec.ofBool rsvd ++ BitVec.ofBool us ++ 0#1 ++ BitVec.ofBool p).getLsbD 4 = id ∧
      ∀ j < 32, 4 < j →
        (0#27 ++ BitVec.ofBool id ++ BitVec.ofBool rsvd ++ BitVec.ofBool us ++ 0#1 ++ BitVec.ofBool p).getLsbD j = false := by
    decide
  obtain ⟨h1, h2, h4, hhigh⟩ := bits (instr && decide (k = .fetch)) rsvd (decide (cpl = 3)) present
  refine ⟨h1, h2, h4, fun j hj => ?_⟩
  rcases Nat.lt_or_ge j 32 with h | h
  · exact hhigh j h hj
  · exact BitVec.getLsbD_of_ge _ j h

/-- Settles O34: the one stop of Translate, and the bits of its code. -/
theorem pageFaultCodeBits : Obligations.PageFaultCodeBits := by
  unfold Obligations.PageFaultCodeBits
  intro s k lin e h
  obtain ⟨hm, present, rsvd, instr, rfl⟩ := translateAddr_error h
  obtain ⟨hwr, hus, hid, hhigh⟩ := pageFaultCode_bits present rsvd instr k s.cpl
  refine ⟨hm, _, rfl, hwr, ?_, fun hfetch => ?_, hhigh⟩
  · rw [hus, decide_eq_true_iff]
  · rw [hid, Bool.and_eq_true, decide_eq_true_iff] at hfetch
    exact hfetch.2

/-- Settles O38: vector and code of each exception. -/
theorem exceptionVectorsAndCodes : Obligations.ExceptionVectorsAndCodes := by
  unfold Obligations.ExceptionVectorsAndCodes
  exact fun p lin c => ⟨⟨rfl, rfl⟩, ⟨rfl, rfl⟩, ⟨rfl, rfl⟩, ⟨rfl, rfl⟩, ⟨rfl, rfl⟩, ⟨rfl, rfl⟩, ⟨rfl, rfl⟩⟩

theorem savedPc_of_exec_fault {i : Instr} {s : State} {f : Fault} (h : exec i s = .fault f) : f.savedPc = s.pc := by
  rcases exec_eq_fault.1 h with hcheck | ⟨_, W, g, off, _, hread⟩ | ⟨_, _, _, hwrap⟩
  · rcases checkForm_stops hcheck with h | h | h | h <;> cases h <;> rfl
  · rcases memRead_stops hread with h | h | h | ⟨_, _, h⟩ | h <;> cases h <;> rfl
  · cases hwrap

/-- Bytes that are no instruction stop with a fault only where the fetch of a further byte did. -/
theorem savedPc_of_fetchInstr_fault {s : State} {f : Fault} (h : fetchInstr s = .error (.fault f)) : f.savedPc = s.pc := by
  unfold fetchInstr at h
  split at h
  · cases h
  · next e _ =>
    cases e
    case truncated => exact fetchBytes_fault (Except.error.inj h)
    all_goals cases h

/-- Settles O39: the fault of a fetch or of an execution. -/
theorem exceptionSavesInstructionAddress : Obligations.ExceptionSavesInstructionAddress := by
  unfold Obligations.ExceptionSavesInstructionAddress
  intro s f h
  unfold step at h
  split at h
  · exact savedPc_of_exec_fault h
  · next hfetch => cases h; exact savedPc_of_fetchInstr_fault hfetch
  · cases h

/-- Settles O40: what MemRead answers is the value of the memory operand, byte by byte. -/
theorem memoryOperandIsLittleEndian : Obligations.MemoryOperandIsLittleEndian := by
  unfold Obligations.MemoryOperandIsLittleEndian
  intro s c g off v h
  obtain ⟨_, _, hbytes⟩ := (memRead_eq_ok_iff (a := (g, off)) rfl).1 h
  exact hbytes

end Sys2Proof.Machine
end

section
/-! Addresses in integers (30_encoding.md R51 to R54, R56; 20_memory.md R30): an address is congruent to the sum of what it is
made of, modulo 2^asz; with it O41 to O45. -/

namespace Sys2Proof

/-- asz in bits. -/
def AddressSize.bits : AddressSize → Nat
  | .a16 => 16
  | .a32 => 32
  | .a64 => 64

theorem AddressSize.two_pow_bits_dvd (z : AddressSize) : (2 : Int) ^ z.bits ∣ 2 ^ 64 :=
  pow_dvd_pow 2 (by cases z <;> decide)

theorem AddressSize.bits_eq_sixteen {z : AddressSize} : z.bits = 16 ↔ z = .a16 := by
  cases z <;> simp [AddressSize.bits]

namespace Machine

theorem addressBits_eq (m : Mode) (p : List LegacyPrefix) : addressBits m p = (addressSize m p).bits := by
  unfold addressBits addressSize
  cases m <;> cases hasKind .addrSize p <;> rfl

/-! ## An address and the integer it stands for -/

/-- The address and the integer are the same modulo 2^asz. -/
def AddrCongr (z : AddressSize) (a : Addr) (v : Int) : Prop := (a.toNat : Int) ≡ v [ZMOD 2 ^ z.bits]

section
variable {z : AddressSize} {a b : Addr} {v w : Int}

theorem addrCongr_of_modEq (h : (a.toNat : Int) ≡ v [ZMOD 2 ^ 64]) : AddrCongr z a v :=
  h.of_dvd z.two_pow_bits_dvd

theorem addrCongr_toNat (z : AddressSize) (a : Addr) : AddrCongr z a a.toNat := Int.ModEq.refl _

theorem addrCongr_zero (z : AddressSize) : AddrCongr z 0 0 := addrCongr_toNat z 0

theorem addrCongr_ofNat (z : AddressSize) (n : Nat) : AddrCongr z (BitVec.ofNat 64 n) n := by
  refine addrCongr_of_modEq ?_
  rw [BitVec.toNat_ofNat]
  push_cast
  exact Int.mod_modEq _ _

theorem addrCongr_ofInt (z : AddressSize) (v : Int) : AddrCongr z (BitVec.ofInt 64 v) v := by
  refine addrCongr_of_modEq ?_
  rw [BitVec.toNat_ofInt, Int.toNat_of_nonneg (Int.emod_nonneg _ (by decide))]
  exact Int.mod_modEq _ _

theorem AddrCongr.add (ha : AddrCongr z a v) (hb : AddrCongr z b w) : AddrCongr z (a + b) (v + w) := by
  refine Int.ModEq.trans ?_ (Int.ModEq.add ha hb)
  refine addrCongr_of_modEq (z := z) ?_
  rw [BitVec.toNat_add]
  push_cast
  exact Int.mod_modEq _ _

theorem AddrCongr.shiftLeft (ha : AddrCongr z a v) (k : Nat) : AddrCongr z (a <<< k) (v * 2 ^ k) := by
  refine Int.ModEq.trans ?_ (Int.ModEq.mul_right _ ha)
  refine addrCongr_of_modEq (z := z) ?_
  rw [BitVec.toNat_shiftLeft, Nat.shiftLeft_eq]
  push_cast
  exact Int.mod_modEq _ _

theorem toNat_truncAddr (z : AddressSize) (a : Addr) : (truncAddr z a).toNat = a.toNat % 2 ^ z.bits := by
  have ha := a.isLt
  cases z <;> simp [truncAddr, AddressSize.bits] <;> omega

theorem AddrCongr.truncAddr (ha : AddrCongr z a v) : AddrCongr z (truncAddr z a) v := by
  refine Int.ModEq.trans ?_ ha
  rw [toNat_truncAddr]
  push_cast
  exact Int.mod_modEq _ _

/-- Reduced modulo 2^asz, the address is the residue of the integer. -/
theorem AddrCongr.truncAddr_eq (ha : AddrCongr z a v) : Machine.truncAddr z a = BitVec.ofInt 64 (v % 2 ^ z.bits) := by
  have hres : (a.toNat : Int) % 2 ^ z.bits = v % 2 ^ z.bits := ha
  have htrunc := toNat_truncAddr z a
  have hlt := (Machine.truncAddr z a).isLt
  have hcast : (a.toNat : Int) % 2 ^ z.bits = ((Machine.truncAddr z a).toNat : Int) := by rw [htrunc]; push_cast; rfl
  rw [← hres, hcast]
  apply BitVec.eq_of_toNat_eq
  rw [BitVec.toNat_ofInt]
  omega

end

/-! ## The parts of an effective address -/

section
variable (s : State) (z : AddressSize)

theorem addrCongr_readGpr (i : BitVec 4) : AddrCongr z (s.readGpr i) (gprInt s i) := addrCongr_toNat z _

theorem addrCongr_readGprAt (i : BitVec 4) : AddrCongr z (s.readGprAt z i) (gprInt s i) :=
  (addrCongr_readGpr s z i).truncAddr

theorem addrCongr_disp (d : Disp) : AddrCongr z (Disp.value d) (dispInt d) := by
  cases d with
  | absent => exact addrCongr_zero z
  | disp8 v => exact addrCongr_ofInt z v.toInt
  | disp16 v => exact addrCongr_ofInt z v.toInt
  | disp32 v => exact addrCongr_ofInt z v.toInt

/-- The scaled index in integers. -/
def sibIndexInt (x : Bool) (sib : Sib) : Int :=
  if regNumber x sib.idx = 4 then 0 else gprInt s (regNumber x sib.idx) * 2 ^ sib.ss.toNat

theorem addrCongr_sibIndex (x : Bool) (sib : Sib) : AddrCongr z (sibIndex s z x sib) (sibIndexInt s x sib) := by
  unfold sibIndex sibIndexInt
  split
  · exact addrCongr_zero z
  · exact (addrCongr_readGprAt s z _).shiftLeft _

theorem fst_sibBase (x b : Bool) (mod : MemMod) (sib : Sib) :
    (sibBase s z b mod sib).1 = (sibAddressInt s x b mod sib).1 := by
  unfold sibBase sibAddressInt baseSegment
  split <;> rfl

theorem addrCongr_sibBase_add_sibIndex (x b : Bool) (mod : MemMod) (sib : Sib) :
    AddrCongr z ((sibBase s z b mod sib).2 + sibIndex s z x sib) (sibAddressInt s x b mod sib).2 := by
  have hindex := addrCongr_sibIndex s z x sib
  unfold sibBase sibAddressInt
  split
  · dsimp only
    rw [zero_add]
    exact hindex
  · exact (addrCongr_readGprAt s z _).add hindex

/-- The case table of R51 and the rules of R52, part by part. -/
theorem wideAddress_congr (x b : Bool) {pcNext : Addr} {v : Int} (hv : AddrCongr z pcNext v) (m : MemOperand) :
    (wideAddress s z x b pcNext m).1 = (wideAddressInt s x b v m).1 ∧
      AddrCongr z (wideAddress s z x b pcNext m).2 ((wideAddressInt s x b v m).2 + dispInt m.disp) := by
  have hdisp := addrCongr_disp z m.disp
  unfold wideAddress wideAddressInt
  cases m.sib with
  | some sib => exact ⟨fst_sibBase s z x b m.mod sib, (addrCongr_sibBase_add_sibIndex s z x b m.mod sib).add hdisp⟩
  | none =>
    dsimp only
    by_cases hrip : m.rm = 5 ∧ m.mod = .m00
    · rw [if_pos hrip, if_pos hrip]
      split
      · exact ⟨rfl, hv.add hdisp⟩
      · exact ⟨rfl, by simpa using hdisp⟩
    · rw [if_neg hrip, if_neg hrip]
      exact ⟨rfl, (addrCongr_readGprAt s z _).add hdisp⟩

/-- The table of R54, row by row. -/
theorem shortAddress_congr (m : MemOperand) :
    (shortAddress s m).1 = (shortAddressInt s m).1 ∧
      AddrCongr z (shortAddress s m).2 ((shortAddressInt s m).2 + dispInt m.disp) := by
  have hdisp := addrCongr_disp z m.disp
  have hgpr := addrCongr_readGpr s z
  unfold shortAddress shortAddressInt
  split_ifs
  iterate 4 exact ⟨rfl, ((hgpr _).add (hgpr _)).add hdisp⟩
  iterate 2 exact ⟨rfl, (hgpr _).add hdisp⟩
  · exact ⟨rfl, by simpa using hdisp⟩
  iterate 2 exact ⟨rfl, (hgpr _).add hdisp⟩

end

/-! ## Effective addresses -/

section
variable (s : State) (x b : Bool) {pcNext : Addr} (m : MemOperand)

theorem effectiveAddress_wide {z : AddressSize} (hz : z ≠ .a16) {v : Int} (hv : AddrCongr z pcNext v) :
    effectiveAddress s z x b pcNext m = ((wideAddressInt s x b v m).1,
      BitVec.ofInt 64 (((wideAddressInt s x b v m).2 + dispInt m.disp) % 2 ^ z.bits)) := by
  obtain ⟨hseg, haddr⟩ := wideAddress_congr s z x b hv m
  rw [← haddr.truncAddr_eq, ← hseg]
  cases z with
  | a16 => exact absurd rfl hz
  | a32 => rfl
  | a64 => rfl

theorem effectiveAddress_short : effectiveAddress s .a16 x b pcNext m = ((shortAddressInt s m).1,
    BitVec.ofInt 64 (((shortAddressInt s m).2 + dispInt m.disp) % 2 ^ 16)) := by
  obtain ⟨hseg, haddr⟩ := shortAddress_congr s .a16 m
  have hbits := haddr.truncAddr_eq
  rw [AddressSize.bits] at hbits
  rw [← hbits, ← hseg]
  rfl

end

/-- Settles O41: the sum in integers, read from the case table. -/
theorem effectiveAddressWithSibAndDisplacement : Obligations.EffectiveAddressWithSibAndDisplacement := by
  unfold Obligations.EffectiveAddressWithSibAndDisplacement
  intro s z x b pcNext m bits hz
  obtain ⟨hz16, rfl⟩ : z ≠ .a16 ∧ bits = z.bits := by
    rcases hz with ⟨rfl, rfl⟩ | ⟨rfl, rfl⟩ <;> exact ⟨by simp, rfl⟩
  rw [effectiveAddress_wide s x b m hz16 (addrCongr_toNat z pcNext)]
  refine ⟨fun hs hrm hmod => ?ripRelative, fun hs hbase => ?base, fun sib hs => ?sib⟩
  case ripRelative => simp [wideAddressInt, hs, hrm, hmod]
  case base => simp only [wideAddressInt, hs, hbase, if_false, gprInt]
  case sib =>
    simp only [wideAddressInt, sibAddressInt, hs, gprInt]
    by_cases hbase : sib.base = 5 ∧ m.mod = .m00
    · simp only [hbase, and_self, not_true, false_and, if_true, if_false, zero_add]
    · simp only [hbase, not_false_iff, true_and, if_false]

/-- Settles O42: the eight rows of the table. -/
theorem effectiveAddressUnder16BitAddressing : Obligations.EffectiveAddressUnder16BitAddressing := by
  unfold Obligations.EffectiveAddressUnder16BitAddressing
  intro s x b pcNext m
  dsimp only
  rw [effectiveAddress_short s x b m]
  unfold shortAddressInt gprInt
  refine ⟨fun hrm => ?_, fun hrm => ?_, fun hrm => ?_, fun hrm => ?_, fun hrm => ?_, fun hrm => ?_, fun hrm hmod => ?_,
    fun hrm hmod => ?_, fun hrm => ?_⟩ <;> simp [*]

/-- Settles O43: the address size that mode and 67 give chooses between the two tables. -/
theorem memoryOperandOfAnInstruction : Obligations.MemoryOperandOfAnInstruction := by
  unfold Obligations.MemoryOperandOfAnInstruction
  intro i s m hm
  have hpc : AddrCongr (addressSize s.mode i.prefixes) (s.pc + BitVec.ofNat 64 i.len) (s.pc.toNat + i.len) :=
    (addrCongr_toNat _ _).add (addrCongr_ofNat _ _)
  rw [memoryOperand_of_rm_mem s hm, addressBits_eq]
  simp only [operandAddress, AddressSize.bits_eq_sixteen]
  by_cases hz : addressSize s.mode i.prefixes = .a16
  · simp only [hz, if_true, effectiveAddress_short s _ _ m, AddressSize.bits]
  · simp only [hz, if_false, effectiveAddress_wide s _ _ m hz hpc]

/-! ## Segments and linear addresses -/

theorem segOverride_eq_none {p : List LegacyPrefix} (h : hasKind .segment p = false) : segOverride p = none := by
  rw [hasKind_eq_false] at h
  induction p with
  | nil => rfl
  | cons q p ih =>
    obtain ⟨hq, hp⟩ := List.forall_mem_cons.1 h
    cases q
    case segment => exact absurd rfl hq
    all_goals exact ih hp

/-- Where no kind is repeated, an override is the only one. -/
theorem segOverride_eq_some {p : List LegacyPrefix} (honce : prefixesOnce p = true) {g : Seg} (h : .segment g ∈ p) :
    segOverride p = some g := by
  induction p with
  | nil => simp at h
  | cons q p ih =>
    obtain ⟨hq, hp⟩ := List.nodup_cons.1 (of_decide_eq_true honce)
    rcases List.mem_cons.1 h with rfl | hmem
    · rfl
    · have hrest := ih (decide_eq_true hp) hmem
      cases q
      case segment => exact absurd (List.mem_map_of_mem (f := LegacyPrefix.kind) hmem) hq
      all_goals exact hrest

theorem operandSegment_of_override {p : List LegacyPrefix} {g : Seg} (h : segOverride p = some g) (m : Mode) (d : Seg) :
    operandSegment m p d = if m = .mode64 ∧ g ≠ .fs ∧ g ≠ .gs then d else g := by
  unfold operandSegment
  cases g <;> simp [h]

/-- Settles O44: the one override, and which of the six are ignored. -/
theorem segmentOverridePrefixes : Obligations.SegmentOverridePrefixes := by
  unfold Obligations.SegmentOverridePrefixes
  refine fun m p d honce => ⟨fun h => ?_, fun g h => operandSegment_of_override (segOverride_eq_some honce h) m d⟩
  simp only [operandSegment, segOverride_eq_none h]

/-- Settles O45: base and wrap-around in 64-bit mode and outside it. -/
theorem linearAddressOfAnOffset : Obligations.LinearAddressOfAnOffset := by
  unfold Obligations.LinearAddressOfAnOffset
  intro s g off
  unfold linearAddress segBase wrapLinear
  refine ⟨fun hm hfs hgs => ?_, fun hm hg => ?_, fun hm => ?_⟩
  · simp [hm, hfs, hgs]
  · rcases hg with rfl | rfl <;> simp [hm]
  · simp only [hm, false_and, if_false, toNat_truncAddr, BitVec.toNat_add, AddressSize.bits]
    omega

end Machine
end Sys2Proof
end

section
/-! Bytes after a whole instruction, or after bytes that are refused, do not change what is decoded (30_encoding.md R66). -/

namespace Sys2Proof

theorem takeSib_eq_error {z : Bool} {bs : List Byte} {e : DecodeError} (h : takeSib z bs = .error e) : e = .truncated := by
  unfold takeSib at h
  split at h <;> cases h
  rfl

theorem takeDisp_eq_error {z : DispSize} {bs : List Byte} {e : DecodeError} (h : takeDisp z bs = .error e) :
    e = .truncated := by
  unfold takeDisp at h
  split at h <;> cases h <;> rfl

theorem Except.bind_eq_error {ε α β : Type} {x : Except ε α} {f : α → Except ε β} {e : ε} (h : (x >>= f) = .error e) :
    x = .error e ∨ ∃ a, x = .ok a ∧ f a = .error e := by
  cases x with
  | error e' => cases h; exact .inl rfl
  | ok a => exact .inr ⟨a, rfl, h⟩

/-- ModRM and what follows it are refused by no other name. -/
theorem decodeRM_eq_error {z : AddressSize} {bs : List Byte} {e : DecodeError} (h : decodeRM z bs = .error e) :
    e = .truncated := by
  cases bs with
  | nil => cases h; rfl
  | cons b t =>
    simp only [decodeRM] at h
    split at h
    · cases h
    · rcases Except.bind_eq_error h with h | ⟨_, _, h⟩
      · exact takeSib_eq_error h
      · rcases Except.bind_eq_error h with h | ⟨_, _, h⟩
        · exact takeDisp_eq_error h
        · cases h

theorem decodeRM_append {z : AddressSize} {bs t : List Byte} {reg : BitVec 3} {rm : RM} (h : decodeRM z bs = .ok (reg, rm, t))
    (r : List Byte) : decodeRM z (bs ++ r) = .ok (reg, rm, t ++ r) := by
  obtain ⟨rfl, hw⟩ := decodeRM_ok h
  rw [List.append_assoc]
  exact decodeRM_encodeRM reg hw _

/-- The same for a decoder that goes on with the two fields, as both shapes do. -/
theorem decodeRM_bind_append {α : Type} {z : AddressSize} {bs : List Byte} {f : BitVec 3 → RM → Except DecodeError α}
    (h : (decodeRM z bs >>= fun q => f q.1 q.2.1) ≠ .error .truncated) (r : List Byte) :
    (decodeRM z (bs ++ r) >>= fun q => f q.1 q.2.1) = (decodeRM z bs >>= fun q => f q.1 q.2.1) := by
  cases hrm : decodeRM z bs with
  | error e =>
    rw [hrm, decodeRM_eq_error hrm] at h
    exact absurd rfl h
  | ok q =>
    rw [decodeRM_append hrm]
    rfl

section
variable {m : Mode} {p : List LegacyPrefix} {bs : List Byte} (r : List Byte)

theorem decodeLegacy_append (h : decodeLegacy m p bs ≠ .error .truncated) :
    decodeLegacy m p (bs ++ r) = decodeLegacy m p bs := by
  cases bs with
  | nil => exact absurd rfl h
  | cons op bs =>
    simp only [List.cons_append, decodeLegacy] at h ⊢
    cases he : elemOfOpcode op with
    | none => rfl
    | some e =>
      simp only [he] at h ⊢
      split_ifs at h ⊢
      · rfl
      · rfl
      · exact decodeRM_bind_append (f := fun reg rm => .ok (legacyInstr e (hasKind .opSize p) ⟨p, reg, rm⟩)) h r

theorem decodeVexBody_append {hd : VexHead} (h : decodeVexBody m p hd bs ≠ .error .truncated) :
    decodeVexBody m p hd (bs ++ r) = decodeVexBody m p hd bs := by
  cases bs with
  | nil => exact absurd rfl h
  | cons op bs =>
    simp only [List.cons_append, decodeVexBody] at h ⊢
    cases he : elemOfOpcode op with
    | none => rfl
    | some e =>
      simp only [he] at h ⊢
      split_ifs at h ⊢
      · rfl
      · rfl
      · rfl
      · exact decodeRM_bind_append (f := fun reg rm => .ok (vexInstr e hd.l ⟨p, hd.vex, reg, rm⟩)) h r

theorem decodeVexTwo_append (h : decodeVexTwo m p bs ≠ .error .truncated) :
    decodeVexTwo m p (bs ++ r) = decodeVexTwo m p bs := by
  cases bs with
  | nil => exact absurd rfl h
  | cons p0 bs =>
    simp only [List.cons_append, decodeVexTwo] at h ⊢
    split_ifs at h ⊢
    · exact decodeVexBody_append r h
    · rfl

theorem decodeVexThree_append (h : decodeVexThree m p bs ≠ .error .truncated) :
    decodeVexThree m p (bs ++ r) = decodeVexThree m p bs := by
  match bs with
  | [] => exact absurd rfl h
  | [p1] =>
    simp only [decodeVexThree] at h ⊢
    split_ifs at h ⊢ with hpayload
    · exact absurd rfl h
    · cases r <;> simp [hpayload]
  | p1 :: p2 :: bs =>
    simp only [List.cons_append, decodeVexThree] at h ⊢
    split_ifs at h ⊢
    · exact decodeVexBody_append r h
    · rfl

theorem decode_append (hlen : bs.length ≤ 15) (h : decode m bs ≠ .error .truncated) : decode m (bs ++ r) = decode m bs := by
  obtain ⟨r', hlen', hdecode⟩ := exists_decode_append_eq m hlen r
  rw [hdecode]
  simp only [decode, List.take_of_length_le hlen, List.take_of_length_le hlen'] at h ⊢
  rcases hsplit : takePrefixes m bs with ⟨p, t⟩
  cases t with
  | nil => rw [hsplit] at h; exact absurd rfl h
  | cons b t =>
    rw [takePrefixes_snoc hsplit]
    rw [hsplit] at h
    simp only at h ⊢
    split_ifs at h ⊢
    · exact decodeLegacy_append r' h
    · exact decodeVexTwo_append r' h
    · exact decodeVexThree_append r' h
    · rfl

end

end Sys2Proof
end

section
/-! Fetching and stepping (60_exceptions.md R101 step 1; 40_packed_subtract_common.md R72, R73); with them O46 to O50, O52 and
O53. -/

namespace Sys2Proof.Machine

/-! ## A step, by what its bytes decode to -/

section
variable {s : State} {bs : List Byte}

/-- Bytes that can be fetched, and are no front of an instruction, decide what is decoded. -/
theorem decode_fetchBytes {n : Nat} (hlen : bs.length ≤ n) (hn : n ≤ 15)
    (hfetch : ∀ (k : Nat) (b : Byte), bs[k]? = some b → fetchByte s k = .ok b)
    (hd : decode s.mode bs ≠ .error .truncated) : decode s.mode (fetchBytes s n 0).1 = decode s.mode bs := by
  obtain ⟨r, hbytes, _⟩ := fetchBytes_eq (k := 0) hlen fun j b hb => by simpa using hfetch j b hb
  rw [hbytes, decode_append r (hlen.trans hn) hd]

theorem step_of_decode_ok {i : Instr} (h : decode s.mode (fetchBytes s 15 0).1 = .ok i) : step s = exec i s := by
  simp only [step, fetchInstr, h]

theorem step_of_decode_error {e : DecodeError} (h : decode s.mode (fetchBytes s 15 0).1 = .error e) :
    step s = Res.toOutcome (.error (decodeStop (fetchBytes s 15 0).2 e)) := by
  simp only [step, fetchInstr, h]
  cases decodeStop (fetchBytes s 15 0).2 e <;> rfl

/-- Settles O47: the encoding decides what is decoded. -/
theorem stepRunsTheDecodedInstruction : Obligations.StepRunsTheDecodedInstruction := by
  unfold Obligations.StepRunsTheDecodedInstruction
  intro s i hw hfetch
  have hlen : (encode i).length ≤ 15 := length_encode i ▸ Instr.len_le_fifteen hw
  have hd : decode s.mode (encode i) = .ok i := by simpa using decodeOfEncodeIsIdentity s.mode i [] hw
  exact step_of_decode_ok ((decode_fetchBytes hlen le_rfl hfetch (by simp [hd])).trans hd)

/-- A refusal other than for want of bytes is that of the step. -/
theorem step_of_decode_refusal (hlen : bs.length ≤ 15)
    (hfetch : ∀ (k : Nat) (b : Byte), bs[k]? = some b → fetchByte s k = .ok b) {e : DecodeError} (he : e ≠ .truncated)
    (hd : decode s.mode bs = .error e) : step s = Res.toOutcome (.error (decodeStop (fetchBytes s 15 0).2 e)) :=
  step_of_decode_error ((decode_fetchBytes hlen le_rfl hfetch (by simp [hd, he])).trans hd)

/-- Settles O48: decodeStop gives each refusal its name, and 15 fetched bytes leave the length limit as the stop. -/
theorem stepRefusesWhatDecodingRefuses : Obligations.StepRefusesWhatDecodingRefuses := by
  unfold Obligations.StepRefusesWhatDecodingRefuses
  intro s bs hlen hfetch
  have hrefusal := fun {e} => step_of_decode_refusal (e := e) hlen hfetch
  refine ⟨hrefusal (by simp), hrefusal (by simp), hrefusal (by simp), hrefusal (by simp), fun hfull hd => ?_⟩
  obtain ⟨r, hbytes, hstop⟩ := fetchBytes_eq (k := 0) hlen fun j b hb => by simpa using hfetch j b hb
  obtain ⟨rfl, htooLong⟩ := hstop hfull
  rw [List.append_nil] at hbytes
  rw [step_of_decode_error (hbytes ▸ hd), htooLong]
  rfl

/-- Settles O50: the fetched bytes end where the next one cannot be fetched, and its stop is that of the fetch. -/
theorem fetchStopIsTheStopOfTheStep : Obligations.FetchStopIsTheStopOfTheStep := by
  unfold Obligations.FetchStopIsTheStopOfTheStep
  intro s bs hlen hfetch hd
  have hstep : ∀ e, fetchByte s bs.length = .error e → step s = Res.toOutcome (.error e) := by
    intro e he
    have hbytes : fetchBytes s 15 0 = (bs, e) :=
      fetchBytes_eq_stop hlen (fun j b hb => by simpa using hfetch j b hb) (by simpa using he)
    have hd' : decode s.mode (fetchBytes s 15 0).1 = .error .truncated := by rw [hbytes, hd]
    rw [step_of_decode_error hd', hbytes]
    rfl
  exact ⟨fun f => hstep (.fault f), fun r => hstep (.refused r)⟩

end

/-- Settles O49: range of pc, limit of CS, Translate and MemMap, in this order. -/
theorem fetchReadsTheCodeSegment : Obligations.FetchReadsTheCodeSegment := by
  unfold Obligations.FetchReadsTheCodeSegment
  intro s k
  dsimp only
  have hpf : ∀ {lin : Addr} {e : Stop}, translateAddr s .fetch lin = .error e → ∃ code, e = .fault (.pf s.pc code lin) := by
    intro lin e h
    obtain ⟨_, p, r, i, h⟩ := translateAddr_error h
    exact ⟨_, h⟩
  have hgp : ∀ lin a, translateAddr s .fetch lin ≠ .error (.fault (.gp a)) := fun _ _ h => by simpa using hpf h
  have hrefused : ∀ lin q, translateAddr s .fetch lin ≠ .error (.refused q) := fun _ _ h => by simpa using hpf h
  refine ⟨fun b => fetchByte_eq_ok, fun a => ?gp, fun a code lin' => ?pf, ?pcWrap, ?notOrdinary⟩
  all_goals rw [fetchByte_eq_error]
  case gp => by_cases hk : k = 0 <;> simp [hk, hgp] <;> tauto
  case pf => by_cases hk : k = 0 <;> simp [hk]
  case pcWrap => by_cases hk : k = 0 <;> simp [hk, hrefused]
  case notOrdinary => by_cases hk : k = 0 <;> simp [hk, hrefused]

/-! ## What a completed step leaves -/

/-- Settles O46: the next pc fits, so adding the length does not wrap around. -/
theorem nextPcIsTheAddressAfterTheInstruction : Obligations.NextPcIsTheAddressAfterTheInstruction := by
  unfold Obligations.NextPcIsTheAddressAfterTheInstruction
  intro i s t h
  obtain ⟨_, hmode, _, _, _, hpc, hready⟩ := exec_next_keeps h
  rw [hpc, toNat_nextPc hready, hmode]
  exact ⟨rfl, hready⟩

/-- A step that completes runs a well-formed instruction. -/
theorem exists_exec_of_step {s t : State} (h : step s = .next t) : ∃ i, i.wellFormed s.mode = true ∧ exec i s = .next t := by
  obtain ⟨i, hd, ht⟩ := step_eq_next h
  exact ⟨i, (decodedInstructionIsWellFormedAndReencodes s.mode _ i hd).1, ht⟩

/-- Settles O53: a form keeps memory and mode, and moves pc by its length to an offset that fits. -/
theorem stepKeepsTheInvariant : Obligations.StepKeepsTheInvariant := by
  unfold Obligations.StepKeepsTheInvariant
  rintro s t ⟨hmem, _⟩ h
  obtain ⟨i, hw, ht⟩ := exists_exec_of_step h
  obtain ⟨hmemory, hmode, _⟩ := exec_next_keeps ht
  obtain ⟨hpc, hfits⟩ := nextPcIsTheAddressAfterTheInstruction i s t ht
  have hmin := three_le_len i
  have hmax := Instr.len_le_fifteen hw
  exact ⟨⟨hmemory ▸ hmem, hfits⟩, hmode, by omega, by omega⟩

/-- The YMM register a well-formed instruction writes is below NREG; every other one is kept. -/
theorem readYmm_of_exec_of_nreg_le {i : Instr} {s t : State} (hw : i.wellFormed s.mode = true) (h : exec i s = .next t)
    {r : BitVec 4} (hr : s.mode.nreg ≤ r.toNat) : t.readYmm r = s.readYmm r := by
  obtain ⟨hlegacy, hvex⟩ := namedVectorRegistersAreBelowNreg
  have hkeep : ∀ {d : BitVec 4}, d.toNat < s.mode.nreg → ∀ (v : BitVec 256) (a : Addr),
      ((s.writeYmm d v).setPc a).readYmm r = s.readYmm r := by
    intro d hd v a
    have hne : d ≠ r := by rintro rfl; omega
    rw [State.readYmm_setPc, State.readYmm_writeYmm_of_ne s v hne]
  cases i
  case psubbMm | psubwMm | psubdMm => exact stepMmx_next_readYmm h r
  case psubbXmm o | psubwXmm o | psubdXmm o =>
    obtain ⟨v, rfl⟩ := stepXmm_next_shape h
    exact hkeep (hlegacy _ o hw).1 v _
  case vpsubbXmm o | vpsubwXmm o | vpsubdXmm o =>
    obtain ⟨v, rfl⟩ := stepVexXmm_next_shape h
    exact hkeep (hvex _ o hw).1 v _
  case vpsubbYmm o | vpsubwYmm o | vpsubdYmm o =>
    obtain ⟨v, rfl⟩ := stepVexYmm_next_shape h
    exact hkeep (hvex _ o hw).1 v _

/-- Settles O52: NREG is 8 outside 64-bit mode. -/
theorem highRegistersKeepTheirValuesOutside64BitMode : Obligations.HighRegistersKeepTheirValuesOutside64BitMode := by
  unfold Obligations.HighRegistersKeepTheirValuesOutside64BitMode
  intro s t hm h r hr
  obtain ⟨i, hw, ht⟩ := exists_exec_of_step h
  exact readYmm_of_exec_of_nreg_le hw ht (Mode.nreg_of_ne_mode64 hm ▸ hr)

end Sys2Proof.Machine
end

section
/-! The privilege level (60_exceptions.md R107): of a form it enters Translate at the bytes of the operand and alignment
checking, and nothing else; with it O51. -/

namespace Sys2Proof.Machine

/-- The same state at another privilege level. -/
def State.setCpl (s : State) (c : BitVec 2) : State := { s with cpl := c }

/-- At level `c` alignment checking, where the form class asks for it, and Translate at the bytes of an operand at segment and
offset `a` are as at the level of `s`. -/
def AgreesAtLevel (s : State) (c : BitVec 2) (fc : FormClass) (a : Seg × Addr) : Prop :=
  (fc = .mmx → (s.setCpl c).alignmentCheck = s.alignmentCheck) ∧
    ∀ k < fc.operandBytes, translateAddr (s.setCpl c) .dataRead (linearByte s (linearAddress s a.1 a.2) k) =
      translateAddr s .dataRead (linearByte s (linearAddress s a.1 a.2) k)

section
variable {s : State} {c : BitVec 2}

theorem alignmentFault_setCpl {fc : FormClass} (h : fc = .mmx → (s.setCpl c).alignmentCheck = s.alignmentCheck) (lin : Addr) :
    alignmentFault (s.setCpl c) fc lin = alignmentFault s fc lin := by
  cases fc
  case mmx => simp only [alignmentFault, h]
  all_goals rfl

theorem checkedLinear_setCpl {fc : FormClass} (h : fc = .mmx → (s.setCpl c).alignmentCheck = s.alignmentCheck) (g : Seg)
    (off : Addr) : checkedLinear (s.setCpl c) fc g off = checkedLinear s fc g off := by
  have hlin : linearAddress (s.setCpl c) g off = linearAddress s g off := rfl
  simp only [checkedLinear, hlin, alignmentFault_setCpl h]
  rfl

theorem readLinear_setCpl {lin : Addr} {n : Nat} (h : ∀ k < n, translateAddr (s.setCpl c) .dataRead (linearByte s lin k) =
    translateAddr s .dataRead (linearByte s lin k)) : readLinear (s.setCpl c) lin n = readLinear s lin n := by
  have htranslate : eachInOrder (fun k => translateAddr (s.setCpl c) .dataRead (linearByte (s.setCpl c) lin k)) (List.range n) =
      eachInOrder (fun k => translateAddr s .dataRead (linearByte s lin k)) (List.range n) :=
    eachInOrder_congr fun k hk => h k (List.mem_range.1 hk)
  unfold readLinear
  rw [htranslate]
  rfl

theorem memRead_setCpl {fc : FormClass} {W : Nat} {a : Seg × Addr} (h : AgreesAtLevel s c fc a) :
    memRead (s.setCpl c) fc W a.1 a.2 = memRead s fc W a.1 a.2 := by
  obtain ⟨halign, htranslate⟩ := h
  unfold memRead
  rw [checkedLinear_setCpl halign]
  cases hl : checkedLinear s fc a.1 a.2 with
  | error e => rfl
  | ok lin =>
    obtain ⟨_, _, rfl⟩ := checkedLinear_eq_ok.1 hl
    simp only [Res.bind_ok, readLinear_setCpl htranslate]

/-! ## The r/m operand at another level -/

theorem readMmSource_setCpl {o : LegacyOps} (h : ∀ a, o.rm = .mem a → AgreesAtLevel s c .mmx
    (operandAddress s o.prefixes (effectiveRex o.prefixes).x (effectiveRex o.prefixes).b o.len a)) :
    readMmSource o (s.setCpl c) = readMmSource o s := by
  unfold readMmSource
  cases hr : o.rm with
  | reg r => rfl
  | mem a => exact memRead_setCpl (h a hr)

theorem readXmmSource_setCpl {o : LegacyOps} (h : ∀ a, o.rm = .mem a → AgreesAtLevel s c .sse2
    (operandAddress s o.prefixes (effectiveRex o.prefixes).x (effectiveRex o.prefixes).b o.len a)) :
    readXmmSource o (s.setCpl c) = readXmmSource o s := by
  unfold readXmmSource
  cases hr : o.rm with
  | reg r => rfl
  | mem a => exact memRead_setCpl (h a hr)

theorem readVexXmmSource_setCpl {o : VexOps} (h : ∀ a, o.rm = .mem a → AgreesAtLevel s c .vex128
    (operandAddress s o.prefixes o.vex.x o.vex.b o.len a)) :
    readVexXmmSource o (s.setCpl c) = readVexXmmSource o s := by
  unfold readVexXmmSource
  cases hr : o.rm with
  | reg r => rfl
  | mem a => exact memRead_setCpl (h a hr)

theorem readVexYmmSource_setCpl {o : VexOps} (h : ∀ a, o.rm = .mem a → AgreesAtLevel s c .vex256
    (operandAddress s o.prefixes o.vex.x o.vex.b o.len a)) :
    readVexYmmSource o (s.setCpl c) = readVexYmmSource o s := by
  unfold readVexYmmSource
  cases hr : o.rm with
  | reg r => rfl
  | mem a => exact memRead_setCpl (h a hr)

end

theorem toOutcome_advance_setCpl {c : BitVec 2} {α : Type} {check check' : Res Unit} {source source' : Res α} {len : Nat}
    {result result' : α → State} (hcheck : check' = check) (hsource : source' = source)
    (hresult : ∀ b, result' b = (result b).setCpl c) :
    Res.toOutcome (do check'; let b ← source'; advance len (result' b)) =
      mapNext (·.setCpl c) (Res.toOutcome (do check; let b ← source; advance len (result b))) :=
  toOutcome_advance_map (·.setCpl c) hcheck hsource hresult (fun _ => rfl) (fun _ _ => rfl) (fun _ => rfl)

/-- No check of a form and no register operand depends on the level. -/
theorem exec_setCpl {i : Instr} {s : State} {c : BitVec 2}
    (h : ∀ a, memoryOperand i s = some a → AgreesAtLevel s c i.formClass a) :
    exec i (s.setCpl c) = mapNext (·.setCpl c) (exec i s) := by
  have hrm := fun a (hr : i.rm = .mem a) => h _ (memoryOperand_of_rm_mem s hr)
  cases i
  case psubbMm o | psubwMm o | psubdMm o =>
    exact toOutcome_advance_setCpl rfl (readMmSource_setCpl hrm) fun _ => rfl
  case psubbXmm o | psubwXmm o | psubdXmm o =>
    exact toOutcome_advance_setCpl rfl (readXmmSource_setCpl hrm) fun _ => rfl
  case vpsubbXmm o | vpsubwXmm o | vpsubdXmm o =>
    exact toOutcome_advance_setCpl rfl (readVexXmmSource_setCpl hrm) fun _ => rfl
  case vpsubbYmm o | vpsubwYmm o | vpsubdYmm o =>
    exact toOutcome_advance_setCpl rfl (readVexYmmSource_setCpl hrm) fun _ => rfl

/-- Settles O51: the level enters through the memory operand alone, which a register-direct form does not have. -/
theorem privilegeDoesNotMatter : Obligations.PrivilegeDoesNotMatter := by
  unfold Obligations.PrivilegeDoesNotMatter
  refine fun i s => ⟨fun c h => exec_setCpl fun a ha => h a.1 a.2 ha, fun r c hr => exec_setCpl fun a ha => ?_, fun t ht => ?_⟩
  · simp [memoryOperand, hr] at ha
  · obtain ⟨_, hmode, _, hcpl, _⟩ := exec_next_keeps ht
    exact ⟨hcpl, hmode⟩

end Sys2Proof.Machine
end

section
/-! The state after reset (10_state.md R26; 70_reset_and_hazards.md R111); with it O54 to O56. -/

namespace Sys2Proof.Machine

/-- Settles O54: no cell is listed, and FFF0H fits IP. -/
theorem resetSatisfiesTheInvariant : Obligations.ResetSatisfiesTheInvariant := by
  unfold Obligations.ResetSatisfiesTheInvariant
  exact ⟨by decide, by decide⟩

/-- Settles O55: each value of the table, by evaluation. -/
theorem resetValues : Obligations.ResetValues := by
  unfold Obligations.ResetValues
  exact ⟨by decide, by decide, rfl, rfl, rfl, rfl, rfl, rfl, rfl, rfl, rfl, by decide, rfl, by decide, rfl, by decide⟩

theorem mode_reset : State.reset.mode = .real16 := by decide

/-- CR4 = 0 disables the Legacy SSE forms, real-address mode the VEX forms. -/
theorem undefined_reset {c : FormClass} (p : List LegacyPrefix) (hc : c ≠ .mmx) : Undefined c p State.reset := by
  cases c
  case mmx => exact absurd rfl hc
  case sse2 => exact .inr (.inr (.inr (by decide)))
  case vex128 | vex256 => exact .inr (.inr (.inl mode_reset))

theorem enabled_mmx_reset {p : List LegacyPrefix} (hlock : hasKind .lock p = false) : Enabled .mmx p State.reset :=
  ⟨rfl, hlock, by decide, by decide, by decide⟩

theorem translateAddr_reset (k : AccessKind) (lin : Addr) : translateAddr State.reset k lin = .ok lin := by
  rw [translateAddr, if_pos mode_reset]

theorem isOrdinary_reset (pa : Addr) : State.reset.isOrdinary pa = true := by
  have hle : pa ≤ 0xFFFFFFFFFFFFFFFF#64 := BitVec.le_def.2 (Nat.le_of_lt_succ pa.isLt)
  have hge : 0#64 ≤ pa := BitVec.le_def.2 (Nat.zero_le _)
  simp [State.isOrdinary, State.reset, resetConfig, hle, hge]

theorem operandReady_reset {i : Instr} (hc : i.formClass = .mmx)
    (h : ∀ g off, memoryOperand i State.reset = some (g, off) → off.toNat + 7 ≤ 0xFFFF) : OperandReady i State.reset := by
  intro g off hm
  have hoff := h g off hm
  rw [hc]
  refine ⟨?legal, fun hcheck => absurd hcheck (by decide), fun k _ => ⟨_, translateAddr_reset ..⟩,
    fun k _ pa _ => isOrdinary_reset pa⟩
  case legal =>
    simp only [SegmentLegal, mode_reset, FormClass.operandBytes]
    omega

theorem pcReady_reset {m : Mode} {i : Instr} (hw : i.wellFormed m = true) : PcReady i State.reset := by
  have hlen := Instr.len_le_fifteen hw
  have hpc : State.reset.pc.toNat = 0xFFF0 := by decide
  simp only [PcReady, mode_reset, pcFits, hpc, decide_eq_true_eq]
  omega

/-- Settles O56: what is undefined there, and the three parts of completion. -/
theorem afterResetOnlyMmxFormsExecute : Obligations.AfterResetOnlyMmxFormsExecute := by
  unfold Obligations.AfterResetOnlyMmxFormsExecute
  refine fun i => ⟨fun hc => ?undefined, fun hc hw hlock h => ?completes⟩
  case undefined => exact (invalidOpcodeExactlyWhenUndefined i State.reset _).2 ⟨rfl, undefined_reset i.prefixes hc⟩
  case completes =>
    exact (completesExactlyWhenEnabledAndReady i State.reset).2
      ⟨hc ▸ enabled_mmx_reset hlock, operandReady_reset hc h, pcReady_reset hw⟩

end Sys2Proof.Machine
end

section
/-! Runs over a program text (70_reset_and_hazards.md R117): each step moves pc by an instruction of the text, and the walk that
divides the text finds the instructions it was made of; with it O57 to O59. -/

namespace Sys2Proof.Machine

/-! ## The instruction a run goes on with -/

theorem getElem?_fetchBytes {s : State} {n k j : Nat} {b : Byte} (h : (fetchBytes s n k).1[j]? = some b) :
    fetchByte s (k + j) = .ok b := by
  induction n generalizing k j with
  | zero => simp [fetchBytes] at h
  | succ n ih =>
    unfold fetchBytes at h
    split at h
    · next c hc =>
      cases j with
      | zero =>
        simp only [List.getElem?_cons_zero, Option.some.injEq] at h
        rwa [h] at hc
      | succ j =>
        rw [← Nat.add_assoc, Nat.add_right_comm]
        exact ih (by simpa using h)
    · simp at h

/-- The instruction made of the next `n` bytes has no more of them, and is the one that a step runs. -/
theorem textInstr_ok {n : Nat} {s : State} {i : Instr} (h : textInstr n s = .ok i) : i.len ≤ n ∧ step s = exec i s := by
  have hd := textInstr_eq_ok.1 h
  have hlen := length_fetchBytes s (min 15 n) 0
  obtain ⟨_, hfront⟩ := decodedInstructionIsWellFormedAndReencodes s.mode _ i hd
  have hle := hfront.length_le
  rw [length_encode] at hle
  have hstep := decode_fetchBytes (hlen.trans (min_le_left 15 n)) le_rfl
    (fun k b hb => by simpa using getElem?_fetchBytes hb) (by simp [hd])
  exact ⟨by omega, step_of_decode_ok (hstep.trans hd)⟩

theorem beginsInstruction_ge {s : State} {stop target fuel p : Nat} (h : beginsInstruction s stop target fuel p = true) :
    p ≤ target := by
  induction fuel generalizing p with
  | zero => cases h
  | succ n ih =>
    unfold beginsInstruction at h
    split_ifs at h with hp
    · exact hp.le
    · split at h
      · exact (Nat.le_add_right _ _).trans (ih h)
      · cases h

/-! ## Runs end -/

theorem runText_of_runInstr_error {base size fuel : Nat} {s : State} {e : Stop} (h : runInstr base size s = .error e) :
    runText base size fuel s ≠ .unfinished := by
  unfold runText
  cases e <;> simp [h]

/-- A run that has a step for every three bytes left of the text ends: an instruction of the text has at least three. -/
theorem runText_ne_unfinished {base size fuel : Nat} {s : State} (h : base + size < s.pc.toNat + 3 * (fuel + 1)) :
    runText base size fuel s ≠ .unfinished := by
  induction fuel generalizing s with
  | zero =>
    cases hr : runInstr base size s with
    | error e => exact runText_of_runInstr_error hr
    | ok i =>
      obtain ⟨hlen, _⟩ := textInstr_ok (runInstr_eq_ok.1 hr).2
      have hmin := three_le_len i
      omega
  | succ fuel ih =>
    cases hr : runInstr base size s with
    | error e => exact runText_of_runInstr_error hr
    | ok i =>
      obtain ⟨_, hstep⟩ := textInstr_ok (runInstr_eq_ok.1 hr).2
      have hmin := three_le_len i
      unfold runText
      simp only [hr, hstep]
      cases ht : exec i s with
      | fault f => simp
      | refused r => simp
      | next t =>
        obtain ⟨hpc, _⟩ := nextPcIsTheAddressAfterTheInstruction i s t ht
        dsimp only
        split_ifs
        · simp
        · exact ih (by omega)

/-- Settles O57: a run that goes on at all goes on from a pc in the text. -/
theorem runOverATextEnds : Obligations.RunOverATextEnds := by
  unfold Obligations.RunOverATextEnds
  intro base size s
  cases hb : beginsInstruction s (base + size) s.pc.toNat size base with
  | false => simp [runText_of_not_begins hb]
  | true =>
    have hge := beginsInstruction_ge hb
    exact runText_ne_unfinished (by omega)

/-! ## Walking a text of well-formed instructions -/

/-- The next instruction of a text is the one whose encoding stands at pc. -/
theorem textInstr_of_encode {t : State} {i : Instr} {rest : List Byte} (hw : i.wellFormed t.mode = true)
    (ht : TextAt t t.pc (encode i ++ rest)) : textInstr (encode i ++ rest).length t = .ok i := by
  have hd : decode t.mode (encode i) = .ok i := by simpa using decodeOfEncodeIsIdentity t.mode i [] hw
  have hlen : (encode i).length ≤ min 15 (encode i ++ rest).length := by
    have hmax := Instr.len_le_fifteen hw
    rw [List.length_append, length_encode]
    omega
  exact textInstr_eq_ok.2 ((decode_fetchBytes hlen (min_le_left ..) (textAt_front ht) (by simp [hd])).trans hd)

/-- What is left of a text that the end cuts off in the middle of an instruction is refused. -/
theorem textInstr_of_truncated {t : State} {tail : List Byte} (hd : decode t.mode tail = .error .truncated)
    (hlen : tail.length < 15) (ht : TextAt t t.pc tail) : textInstr tail.length t = .error (.refused .outsideText) := by
  obtain ⟨r, hbytes, hall⟩ := fetchBytes_eq (s := t) (n := tail.length) (k := 0) le_rfl fun j b hb => by
    rw [Nat.zero_add]
    exact ht j b hb
  obtain ⟨rfl, _⟩ := hall rfl
  rw [List.append_nil] at hbytes
  have hmin : min 15 tail.length = tail.length := by omega
  exact textInstr_eq_outside hlen (by rw [hmin, hbytes, hd]) (by rw [hmin, hbytes])

theorem encode_ne_nil (i : Instr) : encode i ≠ [] := by
  have hmin := three_le_len i
  rw [← length_encode] at hmin
  exact List.ne_nil_of_length_pos (by omega)

section
variable {s : State} {base : Addr} {front rest : List Byte}

/-- An offset in the text is an offset of the code segment. -/
theorem toNat_ofNat_of_textAt (ht : TextAt s base (front ++ rest)) (hrest : rest ≠ []) :
    (BitVec.ofNat 64 (base.toNat + front.length)).toNat = base.toNat + front.length := by
  have hlt := textAt_lt ht (k := front.length) (by simpa using List.length_pos_of_ne_nil hrest)
  rw [BitVec.toNat_ofNat, Nat.mod_eq_of_lt hlt]

/-- The walk over a text goes on behind the instruction whose encoding it meets. -/
theorem beginsInstruction_encode {i : Instr} (hw : i.wellFormed s.mode = true)
    (ht : TextAt s base (front ++ (encode i ++ rest))) {target : Nat} (hne : base.toNat + front.length ≠ target) (fuel : Nat) :
    beginsInstruction s (base.toNat + (front ++ (encode i ++ rest)).length) target (fuel + 1) (base.toNat + front.length) =
      beginsInstruction s (base.toNat + (front ++ (encode i ++ rest)).length) target fuel
        (base.toNat + (front ++ encode i).length) := by
  have ha := toNat_ofNat_of_textAt ht (by simp [encode_ne_nil])
  have hleft : base.toNat + (front ++ (encode i ++ rest)).length - (base.toNat + front.length) = (encode i ++ rest).length := by
    rw [List.length_append (as := front)]
    omega
  have hinstr := textInstr_of_encode (t := s.setPc (BitVec.ofNat 64 (base.toNat + front.length))) hw (textAt_append ht ha)
  rw [beginsInstruction, if_neg hne, hleft, hinstr]
  simp only [List.length_append, length_encode, Nat.add_assoc]

end

section
variable {s : State} {base : Addr}

/-- The walk finds the instruction behind any number of instructions. -/
theorem beginsInstruction_of_textAt {done : List Instr} {front rest : List Byte} {fuel : Nat}
    (hw : ∀ i ∈ done, i.wellFormed s.mode = true) (ht : TextAt s base (front ++ (done.flatMap encode ++ rest)))
    (hrest : rest ≠ []) (hfuel : done.length < fuel) :
    beginsInstruction s (base.toNat + (front ++ (done.flatMap encode ++ rest)).length)
      (base.toNat + (front ++ done.flatMap encode).length) fuel (base.toNat + front.length) = true := by
  obtain ⟨fuel, rfl⟩ : ∃ n, fuel = n + 1 := ⟨fuel - 1, by omega⟩
  induction done generalizing front fuel with
  | nil =>
    have hpos := List.length_pos_of_ne_nil hrest
    simp [beginsInstruction, hpos]
  | cons i done ih =>
    obtain ⟨hi, hdone⟩ := List.forall_mem_cons.1 hw
    obtain ⟨fuel, rfl⟩ : ∃ n, fuel = n + 1 := ⟨fuel - 1, by rw [List.length_cons] at hfuel; omega⟩
    have hne : base.toNat + front.length ≠ base.toNat + (front ++ (i :: done).flatMap encode).length := by
      have hpos := List.length_pos_of_ne_nil (encode_ne_nil i)
      simp only [List.flatMap_cons, List.length_append]
      omega
    simp only [List.flatMap_cons, List.append_assoc] at ht hne ⊢
    rw [beginsInstruction_encode hi ht hne]
    have := ih (front := front ++ encode i) hdone (by simpa using ht) fuel (by simpa using hfuel)
    simpa using this

/-- The walk finds nothing at an offset where no instruction of the text begins. -/
theorem beginsInstruction_of_ne {is : List Instr} {front : List Byte} {fuel target : Nat}
    (hw : ∀ i ∈ is, i.wellFormed s.mode = true) (ht : TextAt s base (front ++ is.flatMap encode))
    (hne : ∀ n < is.length, target ≠ base.toNat + (front ++ (is.take n).flatMap encode).length) :
    beginsInstruction s (base.toNat + (front ++ is.flatMap encode).length) target fuel (base.toNat + front.length) = false := by
  induction is generalizing front fuel with
  | nil =>
    cases fuel with
    | zero => rfl
    | succ fuel =>
      simp only [List.flatMap_nil, List.append_nil, beginsInstruction, lt_irrefl, decide_false, Nat.sub_self]
      split_ifs
      · rfl
      · rfl
  | cons i is ih =>
    cases fuel with
    | zero => rfl
    | succ fuel =>
      obtain ⟨hi, his⟩ := List.forall_mem_cons.1 hw
      have h0 : base.toNat + front.length ≠ target := by simpa using (hne 0 (by simp)).symm
      rw [List.flatMap_cons] at ht ⊢
      rw [beginsInstruction_encode hi ht h0]
      have := ih (front := front ++ encode i) (fuel := fuel) his (by simpa using ht) fun n hn => by
        simpa using hne (n + 1) (by simpa using hn)
      simpa using this

end

/-- Settles O59: the walk over the text finds no instruction at pc. -/
theorem runOutsideItsInstructionsIsRefused : Obligations.RunOutsideItsInstructionsIsRefused := by
  unfold Obligations.RunOutsideItsInstructionsIsRefused
  intro s base is fuel hw ht hne
  exact runText_of_not_begins (beginsInstruction_of_ne (front := []) hw ht hne)

/-! ## Runs in order -/

theorem length_le_length_flatMap_encode (is : List Instr) : is.length ≤ (is.flatMap encode).length := by
  induction is with
  | nil => simp
  | cons i is ih =>
    have hpos := List.length_pos_of_ne_nil (encode_ne_nil i)
    simp only [List.flatMap_cons, List.length_cons, List.length_append]
    omega

/-- At the encoding of an instruction, behind any number of instructions, a run goes on with that instruction. -/
theorem runInstr_of_textAt {s : State} {base : Addr} {done : List Instr} {i : Instr} {rest : List Byte}
    (hw : ∀ j ∈ done, j.wellFormed s.mode = true) (hi : i.wellFormed s.mode = true)
    (ht : TextAt s base (done.flatMap encode ++ (encode i ++ rest)))
    (hpc : s.pc.toNat = base.toNat + (done.flatMap encode).length) :
    runInstr base.toNat (done.flatMap encode ++ (encode i ++ rest)).length s = .ok i := by
  have hfuel : done.length < (done.flatMap encode ++ (encode i ++ rest)).length := by
    have hle := length_le_length_flatMap_encode done
    have hpos := List.length_pos_of_ne_nil (encode_ne_nil i)
    simp only [List.length_append]
    omega
  have hleft : base.toNat + (done.flatMap encode ++ (encode i ++ rest)).length - s.pc.toNat = (encode i ++ rest).length := by
    rw [hpc, List.length_append]
    omega
  refine runInstr_eq_ok.2 ⟨?_, ?_⟩
  · rw [hpc]
    exact beginsInstruction_of_textAt (front := []) hw ht (by simp [encode_ne_nil]) hfuel
  · rw [hleft]
    exact textInstr_of_encode hi (textAt_append ht hpc)

/-- How a run ends after the instructions of its text, with or without a cut-off instruction behind them. -/
def afterText (tail : List Byte) (t : State) : RunResult :=
  if tail = [] then .final t else .refused .outsideText

/-- Where only the cut-off instruction is left, the run is refused. -/
theorem runText_of_truncated {s : State} {base : Addr} {front tail : List Byte} {fuel : Nat}
    (hd : decode s.mode tail = .error .truncated) (hlen : tail.length < 15) (ht : TextAt s base (front ++ tail))
    (hpc : s.pc.toNat = base.toNat + front.length) :
    runText base.toNat (front ++ tail).length fuel s = .refused .outsideText := by
  have hleft : base.toNat + (front ++ tail).length - s.pc.toNat = tail.length := by
    rw [hpc, List.length_append]
    omega
  have hinstr := textInstr_of_truncated hd hlen (textAt_append ht hpc)
  have hrun : runInstr base.toNat (front ++ tail).length s = .error (.refused .outsideText) := by
    unfold runInstr
    rw [hleft, hinstr]
    split <;> rfl
  unfold runText
  rw [hrun]

/-- A run that stands behind the instructions `done` of a text executes the others in order. -/
theorem runText_eq_runInOrder {base : Addr} {tail : List Byte} (hlen : tail.length < 15) {is done : List Instr} {fuel : Nat}
    {s : State} (hdone : ∀ i ∈ done, i.wellFormed s.mode = true) (his : ∀ i ∈ is, i.wellFormed s.mode = true)
    (hne : is ≠ [] ∨ tail ≠ []) (hfuel : is.length ≤ fuel) (hd : decode s.mode tail = .error .truncated)
    (ht : TextAt s base (done.flatMap encode ++ (is.flatMap encode ++ tail)))
    (hpc : s.pc.toNat = base.toNat + (done.flatMap encode).length) :
    runText base.toNat (done.flatMap encode ++ (is.flatMap encode ++ tail)).length fuel s =
      runInOrder (afterText tail) is s := by
  induction is generalizing done fuel s with
  | nil =>
    have htail : tail ≠ [] := hne.resolve_left (by simp)
    rw [runInOrder, afterText, if_neg htail]
    exact runText_of_truncated hd hlen ht hpc
  | cons i is ih =>
    obtain ⟨hi, his⟩ := List.forall_mem_cons.1 his
    obtain ⟨fuel, rfl⟩ : ∃ n, fuel = n + 1 := ⟨fuel - 1, by rw [List.length_cons] at hfuel; omega⟩
    rw [List.flatMap_cons, List.append_assoc] at ht ⊢
    have hrun := runInstr_of_textAt hdone hi ht hpc
    obtain ⟨_, hstep⟩ := textInstr_ok (runInstr_eq_ok.1 hrun).2
    unfold runText runInOrder
    simp only [hrun, hstep]
    cases hexec : exec i s with
    | fault f => rfl
    | refused r => rfl
    | next t =>
      obtain ⟨hpc', _⟩ := nextPcIsTheAddressAfterTheInstruction i s t hexec
      obtain ⟨_, hmode, _⟩ := exec_next_keeps hexec
      have hpcDone : t.pc.toNat = base.toNat + ((done ++ [i]).flatMap encode).length := by
        simp [hpc', hpc, length_encode, Nat.add_assoc]
      dsimp only
      split
      · next hend =>
        have hlast : is = [] ∧ tail = [] := by
          have hle := length_le_length_flatMap_encode is
          simp only [hpcDone, List.flatMap_append, List.flatMap_singleton, List.length_append] at hend
          exact ⟨List.eq_nil_of_length_eq_zero (by omega), List.eq_nil_of_length_eq_zero (by omega)⟩
        obtain ⟨rfl, rfl⟩ := hlast
        rfl
      · next hend =>
        have htext := textAt_of_exec hexec ht
        have hassoc : done.flatMap encode ++ (encode i ++ (is.flatMap encode ++ tail)) =
            (done ++ [i]).flatMap encode ++ (is.flatMap encode ++ tail) := by simp
        rw [hassoc] at htext hend ⊢
        refine ih ?_ (hmode ▸ his) ?_ (by simpa using hfuel) (hmode ▸ hd) htext hpcDone
        · rw [hmode]
          exact List.forall_mem_append.2 ⟨hdone, by simpa using hi⟩
        · by_contra hnil
          simp only [not_or, not_not] at hnil
          obtain ⟨rfl, rfl⟩ := hnil
          exact hend (by simpa using hpcDone)

/-- Settles O58: a run from the start stands behind no instruction. -/
theorem runExecutesTheTextInOrder : Obligations.RunExecutesTheTextInOrder := by
  unfold Obligations.RunExecutesTheTextInOrder
  intro s is tail fuel hw hne hfuel hd hlen ht
  exact runText_eq_runInOrder hlen (done := []) (by simp) hw hne hfuel hd ht (by simp)

end Sys2Proof.Machine
end
